-- ==== Sys2Proof/Word.lean ====
section
/-! DEFINITION. The words of the Spice86-sub001 core: bytes, 16-bit and 32-bit words, the three operand
widths of `00_scope.md` rule R5 and the two sizes of a `v` operand (`30_encoding.md` rule R109). -/

namespace Sys2Proof

/-- 8 bits: one memory cell, one instruction byte (R71). -/
abbrev Byte := BitVec 8

/-- 16 bits: a segment register, `ip`, an offset (R26, R30). -/
abbrev Word := BitVec 16

/-- 32 bits: one general register cell (R20). -/
abbrev DWord := BitVec 32

/-- The operand widths N in 8, 16, 32 (R5). -/
inductive Width where
  | w8
  | w16
  | w32
  deriving DecidableEq, Repr

/-- N in bits. -/
abbrev Width.bits : Width → Nat
  | .w8 => 8
  | .w16 => 16
  | .w32 => 32

/-- N/8, the bytes of a memory operand of width N (R108). -/
abbrev Width.bytes : Width → Nat
  | .w8 => 1
  | .w16 => 2
  | .w32 => 4

/-- The two sizes of a `v` operand: 16 bits, or 32 with the operand-size prefix (R109, R101). -/
inductive OpSize where
  | o16
  | o32
  deriving DecidableEq, Repr

/-- The operand width of a `v` operand. -/
abbrev OpSize.width : OpSize → Width
  | .o16 => .w16
  | .o32 => .w32

end Sys2Proof
end

