-- ==== Sys2Proof/Config.lean ====
section
/-! DEFINITION. What is fixed for one machine: the parameters of `00_scope.md` rule R5, held as plain data so
that State can carry them, and what the spec leaves free (a flag drawn under `UNDEF_FLAG_POLICY = draw`, an A20
transform that is neither of the two the spec names, the ALU port's lines where no result exists), without a body. -/

namespace Sys2Proof.Config

/-- Longest instruction, in bytes (R115, GK19). -/
abbrev maxInsnLen : Nat := 15

/-- The six flags a free value can be drawn for (`93_implementation_defined.md`, `UNDEF_FLAG_POLICY`). -/
inductive FlagName where
  | cf
  | pf
  | af
  | zf
  | sf
  | ofl
  deriving DecidableEq, Repr

/-- FREE VALUE (log 6): the value of a flag drawn under the policy `draw`; the first argument is the number of
the draw, so that two instructions draw independently. No body: nothing can be proved of its value. -/
opaque freeFlag : Nat → FlagName → Bool

/-- FREE VALUE (log 7): an `A20Transform` the platform supplies that is neither of the two named ones (R73:
"The transform belongs to the bus"). No body. -/
opaque platformA20 : Nat → Nat

/-- FREE VALUE (log 23): what stands on the ALU port's result lines while its fault output is up, by operation select,
width select, `value1`, `value2` and `count`; not by `carry_in`, which R45 has Div and Idiv not read. R45, R222 and R224
give a quotient or the fault. No body. -/
opaque faultLines : Nat → Nat → BitVec 64 → BitVec 32 → Byte → BitVec 64

/-- FREE VALUE (log 23): the ALU port's result lines and flag outputs when a double shift is selected at width 8, by
operation select, `value1`, `value2` and `count`; not by `carry_in` (R45). R259 and R270 have no 8-bit form (D23). No body. -/
opaque doubleShift8 : Nat → BitVec 64 → BitVec 32 → Byte → BitVec 64 × (FlagName → Option Bool)

/-- `A20Transform` (R73, D7): a parameter, default identity. -/
inductive A20 where
  /-- the default: the linear address is the memory address -/
  | identity
  /-- the other customary value: address line 20 forced low, `addr mod 2^20` (GK7) -/
  | line20Low
  /-- any other transform of the bus, left uninterpreted -/
  | platform
  deriving DecidableEq, Repr

/-- The transform applied to a linear address (R73). -/
def A20.apply : A20 → Nat → Nat
  | .identity, a => a
  | .line20Low, a => a % 2 ^ 20
  | .platform, a => platformA20 a

/-- `ROT_LEFT_OF` (D21, `90_conflicts.md` C4): which Overflow a left rotate writes. -/
inductive RotLeftOf where
  /-- XOR of the two top bits of the result, the source's literal sentence (default) -/
  | top2
  /-- MSB of the result XOR the new Carry -/
  | msbXorCf
  deriving DecidableEq, Repr

/-- `UNDEF_FLAG_POLICY` (R5; `93_implementation_defined.md` U2, U3, U4, U6, U7). -/
inductive UndefFlagPolicy where
  /-- every flag has exactly the value its rule gives (default) -/
  | asSpecified
  /-- in the five listed cases the named flags take any value -/
  | draw
  deriving DecidableEq, Repr

/-- The parameters of R5, with the spec's defaults. `ENTRY_CS:ENTRY_IP` has no default in the spec: the pair
here is the one every program and vector of `95_test_vectors.md` uses (DESIGN CHOICE, log 1). -/
structure Params where
  a20             : A20 := .identity
  memSize         : Nat := 0x110000
  entryCs         : Word := 0x1000#16
  entryIp         : Word := 0x0100#16
  rotLeftOf       : RotLeftOf := .top2
  strictInvalid   : Bool := false
  undefFlagPolicy : UndefFlagPolicy := .asSpecified
  deriving DecidableEq, Repr

/-- Every address the core can form (`Lin` is at most 0x10FFEF, R72, and an instruction has at most 15 bytes,
R115) lies inside memory. The default parameters have this property. -/
def Params.covers (p : Params) : Prop := ∀ a, a < 0x110000 → p.a20.apply a < p.memSize

end Sys2Proof.Config
end

