-- ==== Sys2Proof/Syntax.lean ====
section
/-! DEFINITION. Instructions as syntax: operands (`30_encoding.md` R104 to R110), the operand forms of the
instruction families (R109), and `Instr`, one constructor per instruction rule of files 40 to 45; a row of
`opcode_table.json` is a constructor together with a form of it (log 17). -/

namespace Sys2Proof

/-- A general register number 0..7 (R24), named by its 16-bit view. At width 8 the first four name AL, CL, DL,
BL and the last four AH, CH, DH, BH (R23). -/
inductive Gpr where
  | ax
  | cx
  | dx
  | bx
  | sp
  | bp
  | si
  | di
  deriving DecidableEq, Repr

/-- A segment register (R26). -/
inductive SReg where
  | es
  | cs
  | ss
  | ds
  | fs
  | gs
  deriving DecidableEq, Repr

/-- The register part of an effective address, in ModRM `rm` order 0..7 (R106). -/
inductive Base where
  | bxsi
  | bxdi
  | bpsi
  | bpdi
  | si
  | di
  | bp
  | bx
  deriving DecidableEq, Repr

/-- The displacement of a register-based address: none (`mod` 0), one byte (`mod` 1), two bytes (`mod` 2)
(R105). -/
inductive Disp where
  | none
  | d8 (d : Byte)
  | d16 (d : Word)
  deriving DecidableEq, Repr

/-- A 16-bit effective address (R106): `disp16` alone (`mod` 0, `rm` 6), or registers plus displacement. -/
inductive Addr where
  | direct (d : Word)
  | based (b : Base) (d : Disp)
  deriving DecidableEq, Repr

/-- A memory operand: the segment override if one is present (R107), and the address. -/
structure MemRef where
  seg  : Option SReg
  addr : Addr
  deriving DecidableEq, Repr

/-- An `E` operand: general register or memory (R104). -/
inductive Rm where
  | reg (r : Gpr)
  | mem (m : MemRef)
  deriving DecidableEq, Repr

/-- An immediate that fixes the operand width: `Ib`, or `Iv` of 2 or 4 bytes (R110). -/
inductive Imm where
  | i8 (v : Byte)
  | i16 (v : Word)
  | i32 (v : DWord)
  deriving DecidableEq, Repr

/-- The operand width an immediate fixes. -/
abbrev Imm.width : Imm → Width
  | .i8 _ => .w8
  | .i16 _ => .w16
  | .i32 _ => .w32

/-- The nine two-operand forms of ADD OR ADC SBB AND SUB XOR CMP (R109, R120 table 1, group 1): `Eb,Gb` `Ev,Gv`;
`Gb,Eb` `Gv,Ev`; `AL,Ib` `eAX,Iv`; `Eb,Ib` `Ev,Iv`; `Ev,Ibs`. -/
inductive BinForm where
  | rmReg (w : Width) (e : Rm) (g : Gpr)
  | regRm (w : Width) (g : Gpr) (e : Rm)
  | accImm (i : Imm)
  | rmImm (e : Rm) (i : Imm)
  | rmImmS (o : OpSize) (e : Rm) (i : Byte)
  deriving DecidableEq, Repr

/-- The six forms of TEST (R204). -/
inductive TestForm where
  | rmReg (w : Width) (e : Rm) (g : Gpr)
  | accImm (i : Imm)
  | rmImm (e : Rm) (i : Imm)
  deriving DecidableEq, Repr

/-- The three forms of INC and DEC: `Zv`; `Eb`, `Ev` (R171, R172). -/
inductive IncForm where
  | short (o : OpSize) (r : Gpr)
  | rm (w : Width) (e : Rm)
  deriving DecidableEq, Repr

/-- The count operand of group 2: an immediate byte, 1, or CL (R109). -/
inductive Count where
  | imm (c : Byte)
  | one
  | cl
  deriving DecidableEq, Repr

/-- The count operand of a double shift: an immediate byte or CL (R271, R272). -/
inductive DCount where
  | imm (c : Byte)
  | cl
  deriving DecidableEq, Repr

/-- The sixteen conditions of Jcc, in the order of cc (R341). -/
inductive Cond where
  | o
  | no
  | b
  | ae
  | e
  | ne
  | be
  | a
  | s
  | ns
  | p
  | np
  | l
  | ge
  | le
  | g
  deriving DecidableEq, Repr

/-- The instructions. The docstring of a constructor names the rule that gives its meaning. -/
inductive Instr where
  /-- ADD, R166 -/
  | add (f : BinForm)
  /-- OR, R202 -/
  | or (f : BinForm)
  /-- ADC, R167 -/
  | adc (f : BinForm)
  /-- SBB, R169 -/
  | sbb (f : BinForm)
  /-- AND, R201 -/
  | and (f : BinForm)
  /-- SUB, R168 -/
  | sub (f : BinForm)
  /-- XOR, R203 -/
  | xor (f : BinForm)
  /-- CMP, R170 -/
  | cmp (f : BinForm)
  /-- INC, R171 -/
  | inc (f : IncForm)
  /-- DEC, R172 -/
  | dec (f : IncForm)
  /-- NEG, R173 -/
  | neg (w : Width) (e : Rm)
  /-- TEST, R204 -/
  | test (f : TestForm)
  /-- NOT, R205 -/
  | not (w : Width) (e : Rm)
  /-- MUL, R227 -/
  | mul (w : Width) (e : Rm)
  /-- IMUL, one operand, R228 -/
  | imul (w : Width) (e : Rm)
  /-- IMUL `Gv,Ev`, R229 -/
  | imulRegRm (o : OpSize) (g : Gpr) (e : Rm)
  /-- IMUL `Gv,Ev,Iv`, R229; the immediate has 2 or 4 bytes (WellFormed) -/
  | imulRegRmImm (g : Gpr) (e : Rm) (i : Imm)
  /-- IMUL `Gv,Ev,Ibs`, R229 -/
  | imulRegRmImmS (o : OpSize) (g : Gpr) (e : Rm) (i : Byte)
  /-- DIV, R230 -/
  | div (w : Width) (e : Rm)
  /-- IDIV, R231 -/
  | idiv (w : Width) (e : Rm)
  /-- ROL, R260 -/
  | rol (w : Width) (e : Rm) (c : Count)
  /-- ROR, R261 -/
  | ror (w : Width) (e : Rm) (c : Count)
  /-- RCL, R262 -/
  | rcl (w : Width) (e : Rm) (c : Count)
  /-- RCR, R263 -/
  | rcr (w : Width) (e : Rm) (c : Count)
  /-- SHL (SAL), R264 -/
  | shl (w : Width) (e : Rm) (c : Count)
  /-- SHR, R265 -/
  | shr (w : Width) (e : Rm) (c : Count)
  /-- SAR, R266 -/
  | sar (w : Width) (e : Rm) (c : Count)
  /-- SHLD, R271 -/
  | shld (o : OpSize) (e : Rm) (g : Gpr) (c : DCount)
  /-- SHRD, R272 -/
  | shrd (o : OpSize) (e : Rm) (g : Gpr) (c : DCount)
  /-- MOV `Eb,Gb` `Ev,Gv`, R300 -/
  | movRmReg (w : Width) (e : Rm) (g : Gpr)
  /-- MOV `Gb,Eb` `Gv,Ev`, R300 -/
  | movRegRm (w : Width) (g : Gpr) (e : Rm)
  /-- MOV `Zb,Ib` `Zv,Iv`, R301 -/
  | movRegImm (g : Gpr) (i : Imm)
  /-- MOV `Eb,Ib` `Ev,Iv`, R302 -/
  | movRmImm (e : Rm) (i : Imm)
  /-- MOV `Ew,Sw`, R303 -/
  | movRmSreg (e : Rm) (r : SReg)
  /-- MOV `Sw,Ew`, R304; not to CS (WellFormed) -/
  | movSregRm (r : SReg) (e : Rm)
  /-- NOP, R305 -/
  | nop
  /-- LAHF, R306 -/
  | lahf
  /-- SAHF, R307 -/
  | sahf
  /-- PUSHF, R308 -/
  | pushf
  /-- POPF, R309 -/
  | popf
  /-- CLC, R310 -/
  | clc
  /-- STC, R311 -/
  | stc
  /-- CMC, R312 -/
  | cmc
  /-- CLD, R313 -/
  | cld
  /-- STD, R314 -/
  | std
  /-- CLI, R315 -/
  | cli
  /-- STI, R316 -/
  | sti
  /-- Jcc rel8, R341 -/
  | jcc (c : Cond) (rel : Byte)
  /-- JMP rel8, R342 -/
  | jmpRel8 (rel : Byte)
  /-- JMP rel16, R343 -/
  | jmpRel16 (rel : Word)
  /-- INT n, R344 -/
  | int (n : Byte)
  /-- IRET, R345 -/
  | iret
  /-- HLT, R347 -/
  | hlt
  /-- ESC, R348: opcode 0xD8 plus `op`, ModRM `reg` and the `E` operand, which is not accessed -/
  | esc (op : BitVec 3) (reg : BitVec 3) (e : Rm)
  /-- an invalid encoding of R125 other than `MOV CS, rm`: opcode byte and ModRM byte -/
  | invalid (op : Byte) (modrm : Byte)
  /-- `MOV CS, rm`, R125, R304: ModRM byte -/
  | invalidMovCs (modrm : Byte)
  /-- a reserved encoding of R126: opcode byte, and the ModRM byte when the group index is what is reserved -/
  | reserved (op : Byte) (modrm : Option Byte)
  deriving DecidableEq, Repr

end Sys2Proof
end

