-- ==== Sys2Proof/WellFormed.lean ====
section
/-! DEFINITION. Which terms of `Instr` are instructions of the core: the checks syntax alone does not make. -/

namespace Sys2Proof

/-- `mod` 0 with `rm` 6 is `disp16`, so a BP-only address always has a displacement (R105, R106). -/
def Addr.wf : Addr → Bool
  | .based .bp .none => false
  | _ => true

/-- An `E` operand is encodable. -/
def Rm.wf : Rm → Bool
  | .reg _ => true
  | .mem m => m.addr.wf

/-- The ModRM `reg` field, which selects inside a group (R104). -/
def groupIndex (modrm : Byte) : Nat := modrm.toNat / 8 % 8

/-- The invalid encodings of R125, `MOV CS, rm` (0x8E /1) apart: opcode byte and group or segment number. -/
def invalidRows : List (Byte × Nat) :=
  [(0x8C, 6), (0x8C, 7), (0x8E, 6), (0x8E, 7),
   (0xFE, 2), (0xFE, 3), (0xFE, 4), (0xFE, 5), (0xFE, 6), (0xFE, 7), (0xFF, 7)]

/-- The reserved encodings of R126 that a group index selects. -/
def reservedRows : List (Byte × Nat) :=
  [(0xC0, 6), (0xC1, 6), (0xD0, 6), (0xD1, 6), (0xD2, 6), (0xD3, 6), (0xF6, 1), (0xF7, 1),
   (0xC6, 1), (0xC6, 2), (0xC6, 3), (0xC6, 4), (0xC6, 5), (0xC6, 6), (0xC6, 7),
   (0xC7, 1), (0xC7, 2), (0xC7, 3), (0xC7, 4), (0xC7, 5), (0xC7, 6), (0xC7, 7)]

/-- A two-operand form is encodable. -/
def BinForm.wf : BinForm → Bool
  | .rmReg _ e _ => e.wf
  | .regRm _ _ e => e.wf
  | .accImm _ => true
  | .rmImm e _ => e.wf
  | .rmImmS _ e _ => e.wf

/-- A TEST form is encodable. -/
def TestForm.wf : TestForm → Bool
  | .rmReg _ e _ => e.wf
  | .accImm _ => true
  | .rmImm e _ => e.wf

/-- An INC or DEC form is encodable. -/
def IncForm.wf : IncForm → Bool
  | .short _ _ => true
  | .rm _ e => e.wf

/-- The instruction has an encoding in the tables of R120, R121, R125, R126. -/
def Instr.wf : Instr → Bool
  | .add f | .or f | .adc f | .sbb f | .and f | .sub f | .xor f | .cmp f => f.wf
  | .inc f | .dec f => f.wf
  | .test f => f.wf
  | .neg _ e | .not _ e | .mul _ e | .imul _ e | .div _ e | .idiv _ e => e.wf
  | .imulRegRm _ _ e => e.wf
  | .imulRegRmImm _ e i => e.wf && decide (i.width ≠ .w8)
  | .imulRegRmImmS _ _ e _ => e.wf
  | .rol _ e _ | .ror _ e _ | .rcl _ e _ | .rcr _ e _ | .shl _ e _ | .shr _ e _ | .sar _ e _ => e.wf
  | .shld _ e _ _ | .shrd _ e _ _ => e.wf
  | .movRmReg _ e _ => e.wf
  | .movRegRm _ _ e => e.wf
  | .movRegImm _ _ => true
  | .movRmImm e _ => e.wf
  | .movRmSreg e _ => e.wf
  | .movSregRm r e => e.wf && decide (r ≠ .cs)
  | .nop | .lahf | .sahf | .pushf | .popf | .clc | .stc | .cmc | .cld | .std | .cli | .sti => true
  | .jcc _ _ | .jmpRel8 _ | .jmpRel16 _ | .int _ | .iret | .hlt => true
  | .esc _ _ e => e.wf
  | .invalid op m => decide ((op, groupIndex m) ∈ invalidRows)
  | .invalidMovCs m => decide (groupIndex m = 1)
  | .reserved op none => decide (op = 0x82)
  | .reserved op (some m) => decide ((op, groupIndex m) ∈ reservedRows)

end Sys2Proof
end

