-- ==== Sys2Proof/Decode.lean ====
section
/-! DEFINITION. The instruction decoder as the byte-serial state machine of `30_encoding.md` R112, its opcode
map (R120, R121, R125, R126, R127), and after it the encoder written from the same tables. -/

namespace Sys2Proof

/-! ### Field numbering -/

/-- General register of a 3-bit number (R24). -/
def Gpr.ofNum (n : BitVec 3) : Gpr :=
  match n.toNat with
  | 0 => .ax
  | 1 => .cx
  | 2 => .dx
  | 3 => .bx
  | 4 => .sp
  | 5 => .bp
  | 6 => .si
  | _ => .di

/-- The 3-bit number of a general register (R24). -/
def Gpr.num : Gpr → BitVec 3
  | .ax => 0
  | .cx => 1
  | .dx => 2
  | .bx => 3
  | .sp => 4
  | .bp => 5
  | .si => 6
  | .di => 7

/-- Segment register of a 3-bit number; 6 and 7 select none (R26). -/
def SReg.ofNum (n : BitVec 3) : Option SReg :=
  match n.toNat with
  | 0 => some .es
  | 1 => some .cs
  | 2 => some .ss
  | 3 => some .ds
  | 4 => some .fs
  | 5 => some .gs
  | _ => none

/-- The 3-bit number of a segment register (R26). -/
def SReg.num : SReg → BitVec 3
  | .es => 0
  | .cs => 1
  | .ss => 2
  | .ds => 3
  | .fs => 4
  | .gs => 5

/-- The register part of an address from ModRM `rm` (R106). -/
def Base.ofNum (n : BitVec 3) : Base :=
  match n.toNat with
  | 0 => .bxsi
  | 1 => .bxdi
  | 2 => .bpsi
  | 3 => .bpdi
  | 4 => .si
  | 5 => .di
  | 6 => .bp
  | _ => .bx

/-- ModRM `rm` of the register part of an address (R106). -/
def Base.num : Base → BitVec 3
  | .bxsi => 0
  | .bxdi => 1
  | .bpsi => 2
  | .bpdi => 3
  | .si => 4
  | .di => 5
  | .bp => 6
  | .bx => 7

/-- Condition of cc = opcode bits 3:0 (R341). -/
def Cond.ofNum (n : BitVec 4) : Cond :=
  match n.toNat with
  | 0 => .o
  | 1 => .no
  | 2 => .b
  | 3 => .ae
  | 4 => .e
  | 5 => .ne
  | 6 => .be
  | 7 => .a
  | 8 => .s
  | 9 => .ns
  | 10 => .p
  | 11 => .np
  | 12 => .l
  | 13 => .ge
  | 14 => .le
  | _ => .g

/-- cc of a condition (R341). -/
def Cond.num : Cond → BitVec 4
  | .o => 0
  | .no => 1
  | .b => 2
  | .ae => 3
  | .e => 4
  | .ne => 5
  | .be => 6
  | .a => 7
  | .s => 8
  | .ns => 9
  | .p => 10
  | .np => 11
  | .l => 12
  | .ge => 13
  | .le => 14
  | .g => 15

/-- The operation numbers of table 1 and group 1 (R120, R121). -/
inductive AluOp where
  | add
  | or
  | adc
  | sbb
  | and
  | sub
  | xor
  | cmp
  deriving DecidableEq, Repr

/-- Operation of a 3-bit number k (R120 table 1). -/
def AluOp.ofNum (n : BitVec 3) : AluOp :=
  match n.toNat with
  | 0 => .add
  | 1 => .or
  | 2 => .adc
  | 3 => .sbb
  | 4 => .and
  | 5 => .sub
  | 6 => .xor
  | _ => .cmp

/-- k of an operation (R120 table 1). -/
def AluOp.num : AluOp → BitVec 3
  | .add => 0
  | .or => 1
  | .adc => 2
  | .sbb => 3
  | .and => 4
  | .sub => 5
  | .xor => 6
  | .cmp => 7

/-- The instruction of an operation with a form. -/
def AluOp.instr : AluOp → BinForm → Instr
  | .add, f => .add f
  | .or, f => .or f
  | .adc, f => .adc f
  | .sbb, f => .sbb f
  | .and, f => .and f
  | .sub, f => .sub f
  | .xor, f => .xor f
  | .cmp, f => .cmp f

/-- The three fields of a ModRM byte (R104). -/
def modField (m : Byte) : BitVec 2 := m.extractLsb' 6 2
def regField (m : Byte) : BitVec 3 := m.extractLsb' 3 3
def rmField (m : Byte) : BitVec 3 := m.extractLsb' 0 3

/-- A ModRM byte of its three fields (R104). -/
def modrmByte (md : BitVec 2) (reg rm : BitVec 3) : Byte := md ++ reg ++ rm

/-! ### Decoder working registers and states -/

/-- REPNE (0xF2) or REP (0xF3) (R101). -/
inductive RepKind where
  | repne
  | rep
  deriving DecidableEq, Repr

/-- The decoder working registers of `10_state.md` R32: `ip_start`, `len`, the prefix record, the opcode byte or
bytes, the ModRM byte, the displacement bytes, the immediate bytes. -/
structure DecRegs where
  ipStart : Word
  len     : Nat
  seg     : Option SReg
  opSize  : Bool
  lock    : Bool
  rep     : Option RepKind
  opcode  : List Byte
  modrm   : Option Byte
  disp    : List Byte
  imm     : List Byte
  deriving DecidableEq, Repr

/-- The working registers before the first byte (`len` starts at 0, R112). -/
def DecRegs.idle : DecRegs :=
  { ipStart := 0, len := 0, seg := none, opSize := false, lock := false, rep := none,
    opcode := [], modrm := none, disp := [], imm := [] }

/-- Why the decoder gives a byte sequence no instruction: `D_REFUSED` with its reason (R112), or the bytes
ran out before the instruction was complete. -/
inductive DecodeStop where
  /-- byte 0x67 in prefix position (R101) -/
  | addressSize
  /-- REP or REPNE on an admitted instruction (R102) -/
  | repOnAdmitted
  /-- operand-size on a "no 66" form (R102, R120) -/
  | operandSize16Only
  /-- an opcode outside the admitted set (R127) -/
  | notAdmitted
  /-- the byte list ended first; the caller says why it ended (R115, R74) -/
  | truncated
  deriving DecidableEq, Repr

/-- Where a group 2 instruction takes its count (R109, R120 table 2). -/
inductive CountKind where
  | imm
  | one
  | cl
  deriving DecidableEq, Repr

/-- A row of the opcode map before group selection (R120): what the opcode byte or bytes fix. `wide` is false
for the 8-bit form and true for the `v` form. -/
inductive OpForm where
  | aluRmReg (k : AluOp) (wide : Bool)
  | aluRegRm (k : AluOp) (wide : Bool)
  | aluAcc (k : AluOp) (wide : Bool)
  | incZ (r : Gpr)
  | decZ (r : Gpr)
  | imulRegRmImm
  | imulRegRmImmS
  | imulRegRm
  | jcc (c : Cond)
  | grp1 (wide : Bool)
  | grp1S
  | testRmReg (wide : Bool)
  | testAcc (wide : Bool)
  | movRmReg (wide : Bool)
  | movRegRm (wide : Bool)
  | movRmSreg
  | movSregRm
  | movRegImm (wide : Bool) (r : Gpr)
  | grp2 (wide : Bool) (c : CountKind)
  | grp3 (wide : Bool)
  | grp4
  | grp5
  | grp11 (wide : Bool)
  | shld (cl : Bool)
  | shrd (cl : Bool)
  | esc (op : BitVec 3)
  | jmpRel8
  | jmpRel16
  | int
  /-- an instruction of the opcode byte alone; `no66`: the operand-size prefix is refused on it -/
  | plain (i : Instr) (no66 : Bool)
  deriving DecidableEq, Repr

/-- What the opcode map says of an opcode (R112): a form or group, reserved (R126), not admitted (R127). -/
inductive Lookup where
  | form (f : OpForm)
  | reserved
  | notAdmitted
  deriving DecidableEq, Repr

/-- Tables 1 and 2 of R120: the one-byte opcodes. -/
def lookup1 (b : Byte) : Lookup :=
  let k := AluOp.ofNum (b.extractLsb' 3 3)
  let r := Gpr.ofNum (b.extractLsb' 0 3)
  let n := b.toNat
  if n < 0x40 then
    match n % 8 with
    | 0 => .form (.aluRmReg k false)
    | 1 => .form (.aluRmReg k true)
    | 2 => .form (.aluRegRm k false)
    | 3 => .form (.aluRegRm k true)
    | 4 => .form (.aluAcc k false)
    | 5 => .form (.aluAcc k true)
    | _ => .notAdmitted
  else if n < 0x48 then .form (.incZ r)
  else if n < 0x50 then .form (.decZ r)
  else if 0x70 ≤ n ∧ n < 0x80 then .form (.jcc (Cond.ofNum (b.extractLsb' 0 4)))
  else if 0xB0 ≤ n ∧ n < 0xB8 then .form (.movRegImm false r)
  else if 0xB8 ≤ n ∧ n < 0xC0 then .form (.movRegImm true r)
  else if 0xD8 ≤ n ∧ n < 0xE0 then .form (.esc (b.extractLsb' 0 3))
  else
    match n with
    | 0x69 => .form .imulRegRmImm
    | 0x6B => .form .imulRegRmImmS
    | 0x80 => .form (.grp1 false)
    | 0x81 => .form (.grp1 true)
    | 0x82 => .reserved
    | 0x83 => .form .grp1S
    | 0x84 => .form (.testRmReg false)
    | 0x85 => .form (.testRmReg true)
    | 0x88 => .form (.movRmReg false)
    | 0x89 => .form (.movRmReg true)
    | 0x8A => .form (.movRegRm false)
    | 0x8B => .form (.movRegRm true)
    | 0x8C => .form .movRmSreg
    | 0x8E => .form .movSregRm
    | 0x90 => .form (.plain .nop false)
    | 0x9C => .form (.plain .pushf true)
    | 0x9D => .form (.plain .popf true)
    | 0x9E => .form (.plain .sahf false)
    | 0x9F => .form (.plain .lahf false)
    | 0xA8 => .form (.testAcc false)
    | 0xA9 => .form (.testAcc true)
    | 0xC0 => .form (.grp2 false .imm)
    | 0xC1 => .form (.grp2 true .imm)
    | 0xC6 => .form (.grp11 false)
    | 0xC7 => .form (.grp11 true)
    | 0xCD => .form .int
    | 0xCF => .form (.plain .iret true)
    | 0xD0 => .form (.grp2 false .one)
    | 0xD1 => .form (.grp2 true .one)
    | 0xD2 => .form (.grp2 false .cl)
    | 0xD3 => .form (.grp2 true .cl)
    | 0xE9 => .form .jmpRel16
    | 0xEB => .form .jmpRel8
    | 0xF4 => .form (.plain .hlt false)
    | 0xF5 => .form (.plain .cmc false)
    | 0xF6 => .form (.grp3 false)
    | 0xF7 => .form (.grp3 true)
    | 0xF8 => .form (.plain .clc false)
    | 0xF9 => .form (.plain .stc false)
    | 0xFA => .form (.plain .cli false)
    | 0xFB => .form (.plain .sti false)
    | 0xFC => .form (.plain .cld false)
    | 0xFD => .form (.plain .std false)
    | 0xFE => .form .grp4
    | 0xFF => .form .grp5
    | _ => .notAdmitted

/-- Table 3 of R120: the second byte after 0x0F. -/
def lookup2 (b : Byte) : Lookup :=
  match b.toNat with
  | 0xA4 => .form (.shld false)
  | 0xA5 => .form (.shld true)
  | 0xAC => .form (.shrd false)
  | 0xAD => .form (.shrd true)
  | 0xAF => .form .imulRegRm
  | _ => .notAdmitted

/-- The form has an `E`, `G`, `S` or group operand, so a ModRM byte follows (R100). -/
def OpForm.hasModrm : OpForm → Bool
  | .aluRmReg _ _ | .aluRegRm _ _ | .imulRegRmImm | .imulRegRmImmS | .imulRegRm => true
  | .grp1 _ | .grp1S | .testRmReg _ | .movRmReg _ | .movRegRm _ | .movRmSreg | .movSregRm => true
  | .grp2 _ _ | .grp3 _ | .grp4 | .grp5 | .grp11 _ | .shld _ | .shrd _ | .esc _ => true
  | .aluAcc _ _ | .incZ _ | .decZ _ | .jcc _ | .testAcc _ | .movRegImm _ _ => false
  | .jmpRel8 | .jmpRel16 | .int | .plain _ _ => false

/-- Column "66" of R120 says `no`: the operand-size prefix is refused (R102). -/
def OpForm.no66 : OpForm → Bool
  | .movRmSreg | .movSregRm | .jcc _ | .jmpRel8 | .jmpRel16 | .int => true
  | .plain _ no => no
  | _ => false

/-- Width N of a byte form or a `v` form under the operand-size flag (R109). -/
def widthOf (wide opSize : Bool) : Width :=
  if wide then (if opSize then .w32 else .w16) else .w8

/-- Size of a `v` operand under the operand-size flag (R101). -/
def sizeOf (opSize : Bool) : OpSize := if opSize then .o32 else .o16

/-- Bytes of the immediate (R110); in group 3 only index 0 has one (R121). -/
def OpForm.immLen (opSize : Bool) (reg : BitVec 3) : OpForm → Nat
  | .aluAcc _ wide | .grp1 wide | .testAcc wide | .movRegImm wide _ | .grp11 wide => (widthOf wide opSize).bytes
  | .grp3 wide => if reg = 0 then (widthOf wide opSize).bytes else 0
  | .imulRegRmImm => (widthOf true opSize).bytes
  | .imulRegRmImmS | .grp1S | .jcc _ | .jmpRel8 | .int => 1
  | .jmpRel16 => 2
  | .grp2 _ .imm | .shld false | .shrd false => 1
  | _ => 0

/-- Displacement bytes of a ModRM byte (R105). -/
def dispLen (m : Byte) : Nat :=
  match (modField m).toNat with
  | 0 => if (rmField m).toNat = 6 then 2 else 0
  | 1 => 1
  | 2 => 2
  | _ => 0

/-- Little-endian word of a byte list (R76, R110); missing bytes read 0. -/
def word16 : List Byte → Word
  | [b0, b1] => b1 ++ b0
  | [b0] => (0 : Byte) ++ b0
  | _ => 0

/-- Little-endian double word of a byte list (R76, R110). -/
def word32 : List Byte → DWord
  | [b0, b1, b2, b3] => b3 ++ b2 ++ b1 ++ b0
  | _ => 0

/-- First byte of a byte list. -/
def byte0 : List Byte → Byte
  | b :: _ => b
  | [] => 0

/-- The immediate of width N assembled from its bytes (R110). -/
def immOf (w : Width) (bs : List Byte) : Imm :=
  match w with
  | .w8 => .i8 (byte0 bs)
  | .w16 => .i16 (word16 bs)
  | .w32 => .i32 (word32 bs)

/-- The `E` operand of a ModRM byte, its displacement bytes and the segment override in force (R104 to R107). -/
def rmOf (seg : Option SReg) (m : Byte) (disp : List Byte) : Rm :=
  match (modField m).toNat with
  | 3 => .reg (Gpr.ofNum (rmField m))
  | 0 =>
    if (rmField m).toNat = 6 then .mem ⟨seg, .direct (word16 disp)⟩
    else .mem ⟨seg, .based (Base.ofNum (rmField m)) .none⟩
  | 1 => .mem ⟨seg, .based (Base.ofNum (rmField m)) (.d8 (byte0 disp))⟩
  | _ => .mem ⟨seg, .based (Base.ofNum (rmField m)) (.d16 (word16 disp))⟩

/-- ModRM byte of the working registers; 0 when there is none. -/
def DecRegs.m (r : DecRegs) : Byte := r.modrm.getD 0

/-- The `E` operand of the working registers. -/
def DecRegs.e (r : DecRegs) : Rm := rmOf r.seg r.m r.disp

/-- The `G` operand of the working registers. -/
def DecRegs.g (r : DecRegs) : Gpr := Gpr.ofNum (regField r.m)

/-- The group 2 count operand. -/
def CountKind.count (r : DecRegs) : CountKind → Count
  | .imm => .imm (byte0 r.imm)
  | .one => .one
  | .cl => .cl

/-- The double-shift count operand. -/
def dcountOf (r : DecRegs) (cl : Bool) : DCount := if cl then .cl else .imm (byte0 r.imm)

/-- The group 2 instruction of an index (R121); index 6 is reserved and never reaches here. -/
def grp2Instr (n : BitVec 3) (w : Width) (e : Rm) (c : Count) : Instr :=
  match n.toNat with
  | 0 => .rol w e c
  | 1 => .ror w e c
  | 2 => .rcl w e c
  | 3 => .rcr w e c
  | 4 => .shl w e c
  | 5 => .shr w e c
  | _ => .sar w e c

/-- The group 3 instruction of an index (R121); index 1 is reserved and never reaches here. -/
def grp3Instr (n : BitVec 3) (w : Width) (e : Rm) (imm : List Byte) : Instr :=
  match n.toNat with
  | 2 => .not w e
  | 3 => .neg w e
  | 4 => .mul w e
  | 5 => .imul w e
  | 6 => .div w e
  | 7 => .idiv w e
  | _ => .test (.rmImm e (immOf w imm))

/-- `D_DONE`: the node of the working registers (R114): operation kind, width and operands. -/
def OpForm.build (r : DecRegs) : OpForm → Instr
  | .aluRmReg k wide => k.instr (.rmReg (widthOf wide r.opSize) r.e r.g)
  | .aluRegRm k wide => k.instr (.regRm (widthOf wide r.opSize) r.g r.e)
  | .aluAcc k wide => k.instr (.accImm (immOf (widthOf wide r.opSize) r.imm))
  | .incZ g => .inc (.short (sizeOf r.opSize) g)
  | .decZ g => .dec (.short (sizeOf r.opSize) g)
  | .imulRegRmImm => .imulRegRmImm r.g r.e (immOf (widthOf true r.opSize) r.imm)
  | .imulRegRmImmS => .imulRegRmImmS (sizeOf r.opSize) r.g r.e (byte0 r.imm)
  | .imulRegRm => .imulRegRm (sizeOf r.opSize) r.g r.e
  | .jcc c => .jcc c (byte0 r.imm)
  | .grp1 wide => (AluOp.ofNum (regField r.m)).instr (.rmImm r.e (immOf (widthOf wide r.opSize) r.imm))
  | .grp1S => (AluOp.ofNum (regField r.m)).instr (.rmImmS (sizeOf r.opSize) r.e (byte0 r.imm))
  | .testRmReg wide => .test (.rmReg (widthOf wide r.opSize) r.e r.g)
  | .testAcc wide => .test (.accImm (immOf (widthOf wide r.opSize) r.imm))
  | .movRmReg wide => .movRmReg (widthOf wide r.opSize) r.e r.g
  | .movRegRm wide => .movRegRm (widthOf wide r.opSize) r.g r.e
  | .movRmSreg => .movRmSreg r.e ((SReg.ofNum (regField r.m)).getD .es)
  | .movSregRm => .movSregRm ((SReg.ofNum (regField r.m)).getD .es) r.e
  | .movRegImm wide g => .movRegImm g (immOf (widthOf wide r.opSize) r.imm)
  | .grp2 wide c => grp2Instr (regField r.m) (widthOf wide r.opSize) r.e (c.count r)
  | .grp3 wide => grp3Instr (regField r.m) (widthOf wide r.opSize) r.e r.imm
  | .grp4 => if regField r.m = 0 then .inc (.rm .w8 r.e) else .dec (.rm .w8 r.e)
  | .grp5 => if regField r.m = 0 then .inc (.rm (widthOf true r.opSize) r.e) else .dec (.rm (widthOf true r.opSize) r.e)
  | .grp11 wide => .movRmImm r.e (immOf (widthOf wide r.opSize) r.imm)
  | .shld cl => .shld (sizeOf r.opSize) r.e r.g (dcountOf r cl)
  | .shrd cl => .shrd (sizeOf r.opSize) r.e r.g (dcountOf r cl)
  | .esc op => .esc op (regField r.m) r.e
  | .jmpRel8 => .jmpRel8 (byte0 r.imm)
  | .jmpRel16 => .jmpRel16 (word16 r.imm)
  | .int => .int (byte0 r.imm)
  | .plain i _ => i

/-- What the check of the ModRM byte in `D_MODRM` finds (R112). -/
inductive ModCheck where
  | ok
  | invalid
  | invalidMovCs
  | reserved
  | notAdmitted
  deriving DecidableEq, Repr

/-- Group selection and the segment-register check (R121, R125, R126, R127, R303, R304). -/
def OpForm.check (n : BitVec 3) : OpForm → ModCheck
  | .movRmSreg => if n.toNat < 6 then .ok else .invalid
  | .movSregRm => if n.toNat = 1 then .invalidMovCs else if n.toNat < 6 then .ok else .invalid
  | .grp2 _ _ => if n.toNat = 6 then .reserved else .ok
  | .grp3 _ => if n.toNat = 1 then .reserved else .ok
  | .grp4 => if n.toNat < 2 then .ok else .invalid
  | .grp5 => if n.toNat < 2 then .ok else if n.toNat = 7 then .invalid else .notAdmitted
  | .grp11 _ => if n.toNat = 0 then .ok else .reserved
  | _ => .ok

/-- The decoder sub-states that consume a byte (R112). `dDisp f n` and `dImm f n` have n more bytes to read
after the next one. `D_OPCODE` is entered without consuming from `D_PREFIX`, so the two share the state
`dPrefix`. -/
inductive DState where
  | dPrefix
  | dOpcode2
  | dModrm (f : OpForm)
  | dDisp (f : OpForm) (n : Nat)
  | dImm (f : OpForm) (n : Nat)
  deriving DecidableEq, Repr

/-- One transition: another byte is needed, the node is complete (`D_DONE`; `D_INVALID` and the reserved rows
end here too, as the instructions that stand for them), or `D_REFUSED`. -/
inductive DNext where
  | more (st : DState) (r : DecRegs)
  | done (i : Instr) (r : DecRegs)
  | refused (why : DecodeStop)
  deriving DecidableEq, Repr

/-- Each consumed byte adds 1 to `len` (R112). -/
def DecRegs.eat (r : DecRegs) : DecRegs := { r with len := r.len + 1 }

/-- After the last byte before the immediate: read the immediate if the form has one, else done. -/
def toImm (f : OpForm) (r : DecRegs) : DNext :=
  match f.immLen r.opSize (regField r.m) with
  | 0 => .done (f.build r) r
  | n + 1 => .more (.dImm f n) r

/-- `D_OPCODE` and `D_OPCODE2` once the opcode is known: the prefix-dependent refusals of R102 are made here,
before a ModRM byte is fetched (R112). Of two that apply, the REP or REPNE refusal is the one named (the spec gives no
order: log 10). -/
def afterLookup (l : Lookup) (r : DecRegs) : DNext :=
  match l with
  | .notAdmitted => .refused .notAdmitted
  | .reserved => .done (.reserved (byte0 r.opcode) none) r
  | .form f =>
    if r.rep.isSome then .refused .repOnAdmitted
    else if r.opSize && f.no66 then .refused .operandSize16Only
    else if f.hasModrm then .more (.dModrm f) r
    else toImm f r

/-- `D_OPCODE` (R112). -/
def atOpcode (r : DecRegs) (b : Byte) : DNext :=
  let r := { r.eat with opcode := [b] }
  if b = 0x0F then .more .dOpcode2 r else afterLookup (lookup1 b) r

/-- Segment override of a prefix byte (R101). -/
def segOverride (b : Byte) : Option SReg :=
  match b.toNat with
  | 0x26 => some .es
  | 0x2E => some .cs
  | 0x36 => some .ss
  | 0x3E => some .ds
  | 0x64 => some .fs
  | 0x65 => some .gs
  | _ => none

/-- `D_PREFIX` (R112): the last segment override counts, a repeated prefix acts once (R102). -/
def atPrefix (r : DecRegs) (b : Byte) : DNext :=
  match segOverride b with
  | some g => .more .dPrefix { r.eat with seg := some g }
  | none =>
    match b.toNat with
    | 0x66 => .more .dPrefix { r.eat with opSize := true }
    | 0xF0 => .more .dPrefix { r.eat with lock := true }
    | 0xF2 => .more .dPrefix { r.eat with rep := some .repne }
    | 0xF3 => .more .dPrefix { r.eat with rep := some .rep }
    | 0x67 => .refused .addressSize
    | _ => atOpcode r b

/-- `D_MODRM` (R112): the check comes before any displacement or immediate byte is read (R125). -/
def atModrm (f : OpForm) (r : DecRegs) (m : Byte) : DNext :=
  let r := { r.eat with modrm := some m }
  match f.check (regField m) with
  | .invalid => .done (.invalid (byte0 r.opcode) m) r
  | .invalidMovCs => .done (.invalidMovCs m) r
  | .reserved => .done (.reserved (byte0 r.opcode) (some m)) r
  | .notAdmitted => .refused .notAdmitted
  | .ok =>
    match dispLen m with
    | 0 => toImm f r
    | n + 1 => .more (.dDisp f n) r

/-- One transition of the decoder on one byte (R112). -/
def dStep (st : DState) (r : DecRegs) (b : Byte) : DNext :=
  match st with
  | .dPrefix => atPrefix r b
  | .dOpcode2 => afterLookup (lookup2 b) { r.eat with opcode := r.opcode ++ [b] }
  | .dModrm f => atModrm f r b
  | .dDisp f 0 => toImm f { r.eat with disp := r.disp ++ [b] }
  | .dDisp f (n + 1) => .more (.dDisp f n) { r.eat with disp := r.disp ++ [b] }
  | .dImm f 0 => let r := { r.eat with imm := r.imm ++ [b] }; .done (f.build r) r
  | .dImm f (n + 1) => .more (.dImm f n) { r.eat with imm := r.imm ++ [b] }

/-- The decoder run over a byte list from a state. -/
def dRun : DState → DecRegs → List Byte → Except DecodeStop (Instr × DecRegs)
  | _, _, [] => .error .truncated
  | st, r, b :: bs =>
    match dStep st r b with
    | .more st' r' => dRun st' r' bs
    | .done i r' => .ok (i, r')
    | .refused why => .error why

/-- Decoding, total on any bytes (R111, R112): the instruction at the head of the list, with the working
registers at its end, among them its length (R113). -/
def decode (bs : List Byte) : Except DecodeStop (Instr × DecRegs) := dRun .dPrefix .idle bs

/-- The bytes of a table word: byte k is bits 8k+7..8k of w, every bit above `nbits` zero. -/
def tableBytes (nbits w : Nat) : List Byte :=
  (List.range 15).map fun k => BitVec.ofNat 8 ((w % 2 ^ nbits) >>> (8 * k))

/-- The instruction the decoder reads from a table word. -/
def decodeTableWord (nbits w : Nat) : Option Instr :=
  match decode (tableBytes nbits w) with
  | .ok (i, _) => some i
  | .error _ => none

/-! ### Encoder -/

/-- The segment-override byte of a segment register (R101). -/
def SReg.overrideByte : SReg → Byte
  | .es => 0x26
  | .cs => 0x2E
  | .ss => 0x36
  | .ds => 0x3E
  | .fs => 0x64
  | .gs => 0x65

/-- Little-endian bytes of a word and of a double word (R76). -/
def bytes16 (v : Word) : List Byte := [v.extractLsb' 0 8, v.extractLsb' 8 8]
def bytes32 (v : DWord) : List Byte :=
  [v.extractLsb' 0 8, v.extractLsb' 8 8, v.extractLsb' 16 8, v.extractLsb' 24 8]

/-- The bytes of an immediate (R110). -/
def Imm.bytes : Imm → List Byte
  | .i8 v => [v]
  | .i16 v => bytes16 v
  | .i32 v => bytes32 v

/-- The segment-override prefix of an `E` operand, if it has one (R107). -/
def Rm.overrideBytes : Rm → List Byte
  | .mem ⟨some g, _⟩ => [g.overrideByte]
  | _ => []

/-- ModRM byte and displacement of an `E` operand with a `reg` field (R104, R105). -/
def Rm.bytes (reg : BitVec 3) : Rm → List Byte
  | .reg r => [modrmByte 3 reg r.num]
  | .mem ⟨_, .direct d⟩ => modrmByte 0 reg 6 :: bytes16 d
  | .mem ⟨_, .based b .none⟩ => [modrmByte 0 reg b.num]
  | .mem ⟨_, .based b (.d8 d)⟩ => [modrmByte 1 reg b.num, d]
  | .mem ⟨_, .based b (.d16 d)⟩ => modrmByte 2 reg b.num :: bytes16 d

/-- The operand-size prefix of a width (R101). -/
def Width.prefixBytes : Width → List Byte
  | .w32 => [0x66]
  | _ => []

/-- The opcode byte of a byte form or, one above it, of the `v` form (R120). -/
def Width.opcode (base : Byte) : Width → Byte
  | .w8 => base
  | _ => base + 1

/-- An instruction with an `E` operand: prefixes, opcode bytes, ModRM, displacement, immediate (R100). -/
def encodeRm (w : Width) (op : List Byte) (reg : BitVec 3) (e : Rm) (imm : List Byte) : List Byte :=
  w.prefixBytes ++ e.overrideBytes ++ op ++ e.bytes reg ++ imm

/-- Table 1 and group 1 (R120, R121). -/
def encodeAlu (k : AluOp) : BinForm → List Byte
  | .rmReg w e g => encodeRm w [w.opcode ((0 : BitVec 2) ++ k.num ++ (0 : BitVec 3))] g.num e []
  | .regRm w g e => encodeRm w [w.opcode ((0 : BitVec 2) ++ k.num ++ (2 : BitVec 3))] g.num e []
  | .accImm i => i.width.prefixBytes ++ [i.width.opcode ((0 : BitVec 2) ++ k.num ++ (4 : BitVec 3))] ++ i.bytes
  | .rmImm e i => encodeRm i.width [i.width.opcode 0x80] k.num e i.bytes
  | .rmImmS o e i => encodeRm o.width [0x83] k.num e [i]

/-- Group 2 (R120, R121). -/
def encodeShift (n : BitVec 3) (w : Width) (e : Rm) : Count → List Byte
  | .imm c => encodeRm w [w.opcode 0xC0] n e [c]
  | .one => encodeRm w [w.opcode 0xD0] n e []
  | .cl => encodeRm w [w.opcode 0xD2] n e []

/-- Double shifts (R120 table 3): `base` with an immediate count, `base + 1` with CL. -/
def encodeDShift (base : Byte) (o : OpSize) (e : Rm) (g : Gpr) : DCount → List Byte
  | .imm c => encodeRm o.width [0x0F, base] g.num e [c]
  | .cl => encodeRm o.width [0x0F, base + 1] g.num e []

/-- INC (0x40+r, /0) and DEC (0x48+r, /1) (R171, R172). -/
def encodeIncDec (dec : Bool) : IncForm → List Byte
  | .short o r => o.width.prefixBytes ++ [(if dec then (9 : BitVec 5) else 8) ++ r.num]
  | .rm w e => encodeRm w [w.opcode 0xFE] (if dec then 1 else 0) e []

/-- The bytes of a well-formed instruction, with no redundant prefix (R100, R120, R121; log 13). -/
def encode : Instr → List Byte
  | .add f => encodeAlu .add f
  | .or f => encodeAlu .or f
  | .adc f => encodeAlu .adc f
  | .sbb f => encodeAlu .sbb f
  | .and f => encodeAlu .and f
  | .sub f => encodeAlu .sub f
  | .xor f => encodeAlu .xor f
  | .cmp f => encodeAlu .cmp f
  | .inc f => encodeIncDec false f
  | .dec f => encodeIncDec true f
  | .neg w e => encodeRm w [w.opcode 0xF6] 3 e []
  | .test (.rmReg w e g) => encodeRm w [w.opcode 0x84] g.num e []
  | .test (.accImm i) => i.width.prefixBytes ++ [i.width.opcode 0xA8] ++ i.bytes
  | .test (.rmImm e i) => encodeRm i.width [i.width.opcode 0xF6] 0 e i.bytes
  | .not w e => encodeRm w [w.opcode 0xF6] 2 e []
  | .mul w e => encodeRm w [w.opcode 0xF6] 4 e []
  | .imul w e => encodeRm w [w.opcode 0xF6] 5 e []
  | .imulRegRm o g e => encodeRm o.width [0x0F, 0xAF] g.num e []
  | .imulRegRmImm g e i => encodeRm i.width [0x69] g.num e i.bytes
  | .imulRegRmImmS o g e i => encodeRm o.width [0x6B] g.num e [i]
  | .div w e => encodeRm w [w.opcode 0xF6] 6 e []
  | .idiv w e => encodeRm w [w.opcode 0xF6] 7 e []
  | .rol w e c => encodeShift 0 w e c
  | .ror w e c => encodeShift 1 w e c
  | .rcl w e c => encodeShift 2 w e c
  | .rcr w e c => encodeShift 3 w e c
  | .shl w e c => encodeShift 4 w e c
  | .shr w e c => encodeShift 5 w e c
  | .sar w e c => encodeShift 7 w e c
  | .shld o e g c => encodeDShift 0xA4 o e g c
  | .shrd o e g c => encodeDShift 0xAC o e g c
  | .movRmReg w e g => encodeRm w [w.opcode 0x88] g.num e []
  | .movRegRm w g e => encodeRm w [w.opcode 0x8A] g.num e []
  | .movRegImm g i =>
    i.width.prefixBytes ++ [(match i.width with | .w8 => (0x16 : BitVec 5) | _ => 0x17) ++ g.num] ++ i.bytes
  | .movRmImm e i => encodeRm i.width [i.width.opcode 0xC6] 0 e i.bytes
  | .movRmSreg e r => encodeRm .w16 [0x8C] r.num e []
  | .movSregRm r e => encodeRm .w16 [0x8E] r.num e []
  | .nop => [0x90]
  | .lahf => [0x9F]
  | .sahf => [0x9E]
  | .pushf => [0x9C]
  | .popf => [0x9D]
  | .clc => [0xF8]
  | .stc => [0xF9]
  | .cmc => [0xF5]
  | .cld => [0xFC]
  | .std => [0xFD]
  | .cli => [0xFA]
  | .sti => [0xFB]
  | .jcc c rel => [(7 : BitVec 4) ++ c.num, rel]
  | .jmpRel8 rel => [0xEB, rel]
  | .jmpRel16 rel => 0xE9 :: bytes16 rel
  | .int n => [0xCD, n]
  | .iret => [0xCF]
  | .hlt => [0xF4]
  | .esc op reg e => encodeRm .w16 [(0x1B : BitVec 5) ++ op] reg e []
  | .invalid op m => [op, m]
  | .invalidMovCs m => [0x8E, m]
  | .reserved op none => [op]
  | .reserved op (some m) => [op, m]

end Sys2Proof
end

