-- ==== Sys2Proof/Machine/State.lean ====
section
/-! DEFINITION. The state of the core (`10_state.md`), why a step can end without a next state, and the state
right after reset. -/

namespace Sys2Proof.Machine

open Sys2Proof.Config

/-- The eight 32-bit cells `G[0]` .. `G[7]` (R20). -/
structure Gprs where
  eax : DWord
  ecx : DWord
  edx : DWord
  ebx : DWord
  esp : DWord
  ebp : DWord
  esi : DWord
  edi : DWord
  deriving DecidableEq, Repr

/-- The six 16-bit segment registers (R26). -/
structure Segs where
  es : Word
  cs : Word
  ss : Word
  ds : Word
  fs : Word
  gs : Word
  deriving DecidableEq, Repr

/-- The flag latch: nine independent one-bit cells (R27). IF and OF are `ifl` and `ofl`. -/
structure Flags where
  cf  : Bool
  pf  : Bool
  af  : Bool
  zf  : Bool
  sf  : Bool
  tf  : Bool
  ifl : Bool
  df  : Bool
  ofl : Bool
  deriving DecidableEq, Repr

/-- The fatal conditions (R385, R371). -/
inductive FatalReason where
  /-- IRET with `depth` = 0 (R385) -/
  | contextUnderflow
  /-- an invalid encoding with `STRICT_INVALID_OPCODE` (R371) -/
  | invalidOpcode
  deriving DecidableEq, Repr

/-- Run state (R31). `fetching` stands for the three phases of a step, which R31 lets a model merge. -/
inductive RunState where
  | fetching
  | halted
  | stopped (why : FatalReason)
  deriving DecidableEq, Repr

/-- The input pins as one step samples them: `RESET` (R43), and `INTR` with `INTR_VEC` (R41): `some n` is
`INTR` = 1 with `INTR_VEC` = n. -/
structure Pins where
  reset : Bool
  intr  : Option Byte
  deriving DecidableEq, Repr

/-- Why the machine stops with a fault. -/
inductive Fault where
  /-- A memory request touches a transformed address at or above `MEM_SIZE` (R74, `refuse(out_of_memory)`).
  Raised by instruction fetch, by every access of a memory operand, by the stack and by the vector fetch.
  Safe: the spec gives the access no meaning, and the model stops. -/
  | outOfMemory
  deriving DecidableEq, Repr

/-- Why a step gives no meaning. Every one is a `refuse` of the spec (R10), and safe: the model stops. -/
inductive Refusal where
  /-- an arm of `exec` without a meaning; raised by no arm of this model; safe -/
  | notModelled (mnemonic : String)
  /-- `refuse(reserved_encoding)` (R126), raised by `execReserved`; safe -/
  | reservedEncoding
  /-- `refuse(not_admitted)` (R127), raised by the decoder; safe -/
  | notAdmitted
  /-- `refuse(address_size_prefix)` (R101), raised by the decoder; safe -/
  | addressSizePrefix
  /-- `refuse(rep_prefix)` (R102), raised by the decoder; safe -/
  | repPrefix
  /-- `refuse(operand_size_on_16bit_only_form)` (R102), raised by the decoder; safe -/
  | operandSizeOn16bitOnlyForm
  /-- `refuse(instruction_too_long)` (R115), raised by the decoder; safe -/
  | instructionTooLong
  /-- `refuse(trap_flag_set)` (R387), raised by a step that begins with TF = 1; safe -/
  | trapFlagSet
  deriving DecidableEq, Repr

/-- Everything the spec gives the machine (INVENTORY.md, State). -/
structure State where
  gpr    : Gprs
  seg    : Segs
  ip     : Word
  flags  : Flags
  run    : RunState
  depth  : Nat
  mem    : List Host.Cell
  dec    : DecRegs
  inputs : List Pins
  inta   : Bool
  draws  : Nat
  cfg    : Params
  deriving DecidableEq, Repr

/-- General registers after reset (R50). -/
abbrev Gprs.zero : Gprs :=
  { eax := 0, ecx := 0, edx := 0, ebx := 0, esp := 0, ebp := 0, esi := 0, edi := 0 }

/-- Flags after reset: all nine 0 (R50). -/
abbrev Flags.zero : Flags :=
  { cf := false, pf := false, af := false, zf := false, sf := false, tf := false, ifl := false, df := false,
    ofl := false }

/-- The machine right after reset (R50, R420), with the default parameters, nothing in memory, no input
pending. -/
def State.reset : State :=
  { gpr := .zero
    seg := { es := 0, cs := ({} : Params).entryCs, ss := 0, ds := 0, fs := 0, gs := 0 }
    ip := ({} : Params).entryIp
    flags := .zero
    run := .fetching
    depth := 0
    mem := []
    dec := .idle
    inputs := []
    inta := false
    draws := 0
    cfg := {} }

end Sys2Proof.Machine
end

