-- ==== Sys2Proof/Machine/Flags.lean ====
section
/-! DEFINITION. The flag latch's operations: result flags and parity (`40_alu_add_sub.md` R160, R161), flag write
sets (`00_scope.md` R9), the packed image (`10_state.md` R28), and the drawn flags of `UNDEF_FLAG_POLICY`. -/

namespace Sys2Proof.Machine

open Sys2Proof.Config

/-- Even parity of the low byte of a result, whatever its width (R161). -/
def evenParity {n : Nat} (res : BitVec n) : Bool :=
  !(res.getLsbD 0 ^^ res.getLsbD 1 ^^ res.getLsbD 2 ^^ res.getLsbD 3 ^^
    res.getLsbD 4 ^^ res.getLsbD 5 ^^ res.getLsbD 6 ^^ res.getLsbD 7)

/-- The 16-entry table T of R161: `T[i] = 1` when nibble i has an even number of ones. -/
def parityTable : List Bool :=
  [true, false, false, true, false, true, true, false, false, true, true, false, true, false, false, true]

/-- The table composed for the full byte (R161). -/
def parityByTable (b : Byte) : Bool :=
  parityTable.getD (b.toNat % 16) false == parityTable.getD (b.toNat / 16) false

/-- A flag write set (R9): the flags an operation writes with their new values; `none` is not written. The one
new value and one write enable per flag of the ALU port (R45). -/
structure FlagWrites where
  cf  : Option Bool := none
  pf  : Option Bool := none
  af  : Option Bool := none
  zf  : Option Bool := none
  sf  : Option Bool := none
  ofl : Option Bool := none
  deriving DecidableEq, Repr

/-- A flag in the write set takes its new value, any other keeps its value (R9). -/
def FlagWrites.apply (w : FlagWrites) (f : Flags) : Flags :=
  { f with
    cf := w.cf.getD f.cf
    pf := w.pf.getD f.pf
    af := w.af.getD f.af
    zf := w.zf.getD f.zf
    sf := w.sf.getD f.sf
    ofl := w.ofl.getD f.ofl }

/-- The write set with the named flags replaced by free values, draw number k
(`93_implementation_defined.md`, policy `draw`). -/
def FlagWrites.drawn (k : Nat) (names : List FlagName) (w : FlagWrites) : FlagWrites :=
  { cf := if .cf ∈ names then some (freeFlag k .cf) else w.cf
    pf := if .pf ∈ names then some (freeFlag k .pf) else w.pf
    af := if .af ∈ names then some (freeFlag k .af) else w.af
    zf := if .zf ∈ names then some (freeFlag k .zf) else w.zf
    sf := if .sf ∈ names then some (freeFlag k .sf) else w.sf
    ofl := if .ofl ∈ names then some (freeFlag k .ofl) else w.ofl }

/-- `flags <- F` (step 6 of R82), where `names` are the flags that policy `draw` leaves free for this
instruction (U2, U3, U4, U6, U7). -/
def State.writeFlags (s : State) (w : FlagWrites) (names : List FlagName) : State :=
  if s.cfg.undefFlagPolicy = .draw ∧ names ≠ [] then
    { s with flags := (w.drawn s.draws names).apply s.flags, draws := s.draws + 1 }
  else { s with flags := w.apply s.flags }

/-- `FLAGS16` (R28): bit 1 reads 1, bits 3, 5, 12 to 15 read 0. -/
def Flags.image (f : Flags) : Word :=
  (0 : BitVec 4) ++ BitVec.ofBool f.ofl ++ BitVec.ofBool f.df ++ BitVec.ofBool f.ifl ++ BitVec.ofBool f.tf ++
  BitVec.ofBool f.sf ++ BitVec.ofBool f.zf ++ BitVec.ofBool false ++ BitVec.ofBool f.af ++ BitVec.ofBool false ++
  BitVec.ofBool f.pf ++ BitVec.ofBool true ++ BitVec.ofBool f.cf

/-- Writing the image (R28, R309): the nine flag positions are copied, the other seven bits ignored. -/
def Flags.ofImage (v : Word) : Flags :=
  { cf := v.getLsbD 0
    pf := v.getLsbD 2
    af := v.getLsbD 4
    zf := v.getLsbD 6
    sf := v.getLsbD 7
    tf := v.getLsbD 8
    ifl := v.getLsbD 9
    df := v.getLsbD 10
    ofl := v.getLsbD 11 }

/-- SAHF's write of image bits 7:0 (R307). -/
def Flags.setLow (f : Flags) (ah : Byte) : Flags :=
  { f with
    sf := ah.getLsbD 7
    zf := ah.getLsbD 6
    af := ah.getLsbD 4
    pf := ah.getLsbD 2
    cf := ah.getLsbD 0 }

/-- The sixteen conditions of Jcc (R341). -/
def condHolds (f : Flags) : Cond → Bool
  | .o => f.ofl
  | .no => !f.ofl
  | .b => f.cf
  | .ae => !f.cf
  | .e => f.zf
  | .ne => !f.zf
  | .be => f.cf || f.zf
  | .a => !f.cf && !f.zf
  | .s => f.sf
  | .ns => !f.sf
  | .p => f.pf
  | .np => !f.pf
  | .l => f.sf != f.ofl
  | .ge => f.sf == f.ofl
  | .le => f.zf || f.sf != f.ofl
  | .g => !f.zf && f.sf == f.ofl

end Sys2Proof.Machine
end

