-- ==== Sys2Proof/Machine/Alu.lean ====
section
/-! DEFINITION. The Arithmetic-Logic Unit: the 22 operations of `00_scope.md` R3 as pure functions from operands,
width, count and incoming Carry to a result and a flag write set (`40_alu_add_sub.md` to
`43_alu_rotate_shift.md`), which flags the policy `draw` leaves free, and the port of `10_state.md` R45. -/

namespace Sys2Proof.Machine

open Sys2Proof.Config

/-- A result of width n and a flag write set (R9). -/
structure AluOut (n : Nat) where
  res : BitVec n
  fw  : FlagWrites
  deriving DecidableEq, Repr

/-- `ZSP_N(res)` (R160, R161) added to a write set. -/
def FlagWrites.zsp {n : Nat} (res : BitVec n) (w : FlagWrites) : FlagWrites :=
  { w with zf := some (res == 0#n), sf := some res.msb, pf := some (evenParity res) }

/-! ### Add and subtract (R162 to R165) -/

/-- `Add_N(v1, v2, cin)` (R162): `ovf` marks signed overflow, `cb` the carry out of each bit. -/
def aluAdd {n : Nat} (v1 v2 : BitVec n) (cin : Bool) : AluOut n :=
  let res := v1 + v2 + (BitVec.ofBool cin).setWidth n
  let ovf := (v1 ^^^ res) &&& ~~~(v1 ^^^ v2)
  let cb := (v1 ^^^ v2 ^^^ res) ^^^ ovf
  ⟨res, .zsp res { cf := some cb.msb, af := some (cb.getLsbD 3), ofl := some ovf.msb }⟩

/-- `Sub_N(v1, v2, cin)` (R163): `bb` is the borrow out of each bit. -/
def aluSub {n : Nat} (v1 v2 : BitVec n) (cin : Bool) : AluOut n :=
  let res := v1 - v2 - (BitVec.ofBool cin).setWidth n
  let ovf := (v1 ^^^ res) &&& (v1 ^^^ v2)
  let bb := (v1 ^^^ v2 ^^^ res) ^^^ ovf
  ⟨res, .zsp res { cf := some bb.msb, af := some (bb.getLsbD 3), ofl := some ovf.msb }⟩

/-- `Inc_N(v)` (R164): as `Add_N(v, 1, 0)`, CF not in the write set. -/
def aluInc {n : Nat} (v : BitVec n) : AluOut n :=
  let r := aluAdd v 1#n false
  ⟨r.res, { r.fw with cf := none }⟩

/-- `Dec_N(v)` (R165): as `Sub_N(v, 1, 0)`, CF not in the write set. -/
def aluDec {n : Nat} (v : BitVec n) : AluOut n :=
  let r := aluSub v 1#n false
  ⟨r.res, { r.fw with cf := none }⟩

/-! ### Logic (R200) -/

/-- The write set of And, Or, Xor (R200): CF and OF cleared, ZF SF PF from the result, AF not written. -/
def logicOut {n : Nat} (res : BitVec n) : AluOut n :=
  ⟨res, .zsp res { cf := some false, ofl := some false }⟩

def aluAnd {n : Nat} (v1 v2 : BitVec n) : AluOut n := logicOut (v1 &&& v2)
def aluOr {n : Nat} (v1 v2 : BitVec n) : AluOut n := logicOut (v1 ||| v2)
def aluXor {n : Nat} (v1 v2 : BitVec n) : AluOut n := logicOut (v1 ^^^ v2)

/-! ### Multiply and divide (R220 to R223) -/

/-- `Mul_N(v1, v2)` (R220): the exact 2N-bit product; CF = OF = high half non-zero; ZF and SF from the low half
only at N = 8, else from the full product. -/
def aluMul {n : Nat} (v1 v2 : BitVec n) : AluOut (2 * n) :=
  let p := v1.toNat * v2.toNat
  let res := BitVec.ofNat (2 * n) p
  let high := decide (p / 2 ^ n ≠ 0)
  let w : FlagWrites := { cf := some high, ofl := some high }
  ⟨res, if n = 8 then .zsp (BitVec.ofNat n p) w else .zsp res w⟩

/-- `Imul_N(v1, v2)` (R221): the exact signed product in 2N bits; CF = OF = it does not fit N bits signed. -/
def aluImul {n : Nat} (v1 v2 : BitVec n) : AluOut (2 * n) :=
  let p := v1.toInt * v2.toInt
  let tooBig := !decide (-(2 ^ (n - 1) : Int) ≤ p ∧ p ≤ 2 ^ (n - 1) - 1)
  ⟨BitVec.ofInt (2 * n) p, { cf := some tooBig, ofl := some tooBig }⟩

/-- Quotient and remainder of a division that does not fault. -/
structure DivOut (n : Nat) where
  quot : BitVec n
  rem  : BitVec n
  deriving DecidableEq, Repr

/-- `Div_N(v1, v2)` (R222) with the remainder of R230; `none` is DivisionFault. -/
def aluDiv {n : Nat} (v1 : BitVec (2 * n)) (v2 : BitVec n) : Option (DivOut n) :=
  let a := v1.toNat
  let b := v2.toNat
  if b = 0 then none
  else if a / b > 2 ^ n - 1 then none
  else some ⟨BitVec.ofNat n (a / b), BitVec.ofNat n (a % b)⟩

/-- `Idiv_N(v1, v2)` (R223) with the remainder of R231: truncation toward zero; `none` is DivisionFault. -/
def aluIdiv {n : Nat} (v1 : BitVec (2 * n)) (v2 : BitVec n) : Option (DivOut n) :=
  let a := v1.toInt
  let b := v2.toInt
  let q := a.sign * b.sign * (a.natAbs / b.natAbs : Nat)
  if b = 0 then none
  else if q > 2 ^ (n - 1) - 1 ∨ q < -(2 ^ (n - 1) : Int) then none
  else some ⟨BitVec.ofInt n q, BitVec.ofInt n (a - q * b)⟩

/-! ### Rotates (R250 to R254) -/

/-- `c5 = count & 31` (R250, R255). -/
def count5 (count : Byte) : Nat := (count &&& 31#8).toNat

/-- XOR of the two top bits of a result (R251 to R254). -/
def topTwo {n : Nat} (res : BitVec n) : Bool := res.getLsbD (n - 1) ^^ res.getLsbD (n - 2)

/-- Overflow after a left rotate (R251, R253), chosen by `ROT_LEFT_OF`. -/
def leftOverflow {n : Nat} (mode : RotLeftOf) (res : BitVec n) (cf : Bool) : Bool :=
  match mode with
  | .top2 => topTwo res
  | .msbXorCf => res.getLsbD (n - 1) ^^ cf

/-- `Rol_N(v, count)` (R251). -/
def aluRol {n : Nat} (mode : RotLeftOf) (v : BitVec n) (count : Byte) : AluOut n :=
  let c := count5 count % n
  if c = 0 then ⟨v, {}⟩
  else
    let res := BitVec.ofNat n ((v.toNat <<< c) ||| (v.toNat >>> (n - c)))
    let cf := res.getLsbD 0
    ⟨res, { cf := some cf, ofl := some (leftOverflow mode res cf) }⟩

/-- `Ror_N(v, count)` (R252). -/
def aluRor {n : Nat} (v : BitVec n) (count : Byte) : AluOut n :=
  let c := count5 count % n
  if c = 0 then ⟨v, {}⟩
  else
    let res := BitVec.ofNat n ((v.toNat >>> c) ||| (v.toNat <<< (n - c)))
    ⟨res, { cf := some (res.getLsbD (n - 1)), ofl := some (topTwo res) }⟩

/-- The (N+1)-bit value `{cin, v}` (R253). -/
def withCarry {n : Nat} (v : BitVec n) (cin : Bool) : Nat := cin.toNat * 2 ^ n + v.toNat

/-- `Rcl_N(v, count, cin)` (R253): the rotation is of `{cin, v}`. -/
def aluRcl {n : Nat} (mode : RotLeftOf) (v : BitVec n) (count : Byte) (cin : Bool) : AluOut n :=
  let c := count5 count % (n + 1)
  if c = 0 then ⟨v, {}⟩
  else
    let x := withCarry v cin
    let y := ((x <<< c) ||| (x >>> (n + 1 - c))) % 2 ^ (n + 1)
    let res := BitVec.ofNat n y
    let cf := y.testBit n
    ⟨res, { cf := some cf, ofl := some (leftOverflow mode res cf) }⟩

/-- `Rcr_N(v, count, cin)` (R254). -/
def aluRcr {n : Nat} (v : BitVec n) (count : Byte) (cin : Bool) : AluOut n :=
  let c := count5 count % (n + 1)
  if c = 0 then ⟨v, {}⟩
  else
    let x := withCarry v cin
    let y := ((x >>> c) ||| (x <<< (n + 1 - c))) % 2 ^ (n + 1)
    let res := BitVec.ofNat n y
    ⟨res, { cf := some (y.testBit n), ofl := some (topTwo res) }⟩

/-! ### Shifts (R255 to R258) -/

/-- `Shl_N(v, count)` (R256). -/
def aluShl {n : Nat} (v : BitVec n) (count : Byte) : AluOut n :=
  let c := count5 count
  if c = 0 then ⟨v, {}⟩
  else
    let res := BitVec.ofNat n (v.toNat <<< c)
    let cf := if c ≤ n then (v.toNat >>> (n - c)).testBit 0 else false
    ⟨res, .zsp res { cf := some cf, ofl := some (cf ^^ res.getLsbD (n - 1)) }⟩

/-- `Shr_N(v, count)` (R257). -/
def aluShr {n : Nat} (v : BitVec n) (count : Byte) : AluOut n :=
  let c := count5 count
  if c = 0 then ⟨v, {}⟩
  else
    let res := BitVec.ofNat n (v.toNat >>> c)
    let cf := (v.toNat >>> (c - 1)).testBit 0
    ⟨res, .zsp res { cf := some cf, ofl := some (v.getLsbD (n - 1)) }⟩

/-- `Sar_N(v, count)` (R258): `>>` on a signed integer is floor division by a power of two. -/
def aluSar {n : Nat} (v : BitVec n) (count : Byte) : AluOut n :=
  let c := count5 count
  if c = 0 then ⟨v, {}⟩
  else
    let res := BitVec.ofInt n (v.toInt >>> c)
    let cf := decide ((v.toInt >>> (c - 1)) % 2 = 1)
    ⟨res, .zsp res { cf := some cf, ofl := some false }⟩

/-! ### Double shifts (R259, R270) -/

/-- `Shld_N(d, s, count)` (R259): on the 3N-bit value `{d, s, s}`. -/
def aluShld {n : Nat} (d s : BitVec n) (count : Byte) : AluOut n :=
  let c := count5 count
  if c = 0 then ⟨d, {}⟩
  else
    let x := d.toNat * 2 ^ (2 * n) + s.toNat * 2 ^ n + s.toNat
    let res := BitVec.ofNat n ((x <<< c) >>> (2 * n))
    let cf := x.testBit (3 * n - c)
    ⟨res, .zsp res { cf := some cf, ofl := some (res.getLsbD (n - 1) ^^ d.getLsbD (n - 1)) }⟩

/-- `Shrd_N(d, s, count)` (R270): on the 3N-bit value `{s, s, d}`. -/
def aluShrd {n : Nat} (d s : BitVec n) (count : Byte) : AluOut n :=
  let c := count5 count
  if c = 0 then ⟨d, {}⟩
  else
    let x := s.toNat * 2 ^ (2 * n) + s.toNat * 2 ^ n + d.toNat
    let res := BitVec.ofNat n (x >>> c)
    let cf := x.testBit (c - 1)
    ⟨res, .zsp res { cf := some cf, ofl := some (res.getLsbD (n - 1) ^^ d.getLsbD (n - 1)) }⟩

/-! ### What policy `draw` leaves free (`93_implementation_defined.md` U2, U3, U4, U6, U7) -/

/-- U4: AF after And, Or, Xor, TEST. -/
def undefLogic : List FlagName := [.af]

/-- U3, U4: ZF, SF, PF and AF after MUL and IMUL. -/
def undefMul : List FlagName := [.zf, .sf, .pf, .af]

/-- U6: all six after a DIV or IDIV that does not fault. -/
def undefDiv : List FlagName := [.cf, .pf, .af, .zf, .sf, .ofl]

/-- U7: OF after a rotate whose reduced count is neither 0 nor 1; m is N, or N + 1 for Rcl and Rcr (R250). -/
def undefRotate (m : Nat) (count : Byte) : List FlagName :=
  if count5 count % m = 0 ∨ count5 count % m = 1 then [] else [.ofl]

/-- U2, U4: after Shl and Shr AF, and OF when the reduced count is not 1; nothing when it is 0 (log 9). -/
def undefShift (count : Byte) : List FlagName :=
  if count5 count = 0 then [] else if count5 count = 1 then [.af] else [.af, .ofl]

/-- U4: after Sar, Shld, Shrd AF; nothing when the reduced count is 0 (log 9). -/
def undefAf (count : Byte) : List FlagName := if count5 count = 0 then [] else [.af]

/-! ### The ALU port (R45) -/

/-- The 22 operation selects (R3, R45). -/
inductive AluSel where
  | add
  | or
  | adc
  | sbb
  | and
  | sub
  | xor
  | inc
  | dec
  | mul
  | imul
  | div
  | idiv
  | rol
  | ror
  | rcl
  | rcr
  | shl
  | shr
  | sar
  | shld
  | shrd
  deriving DecidableEq, Repr

/-- The numeric select of an operation (D2; not visible to programs). -/
def AluSel.num : AluSel → Nat
  | .add => 0
  | .or => 1
  | .adc => 2
  | .sbb => 3
  | .and => 4
  | .sub => 5
  | .xor => 6
  | .inc => 8
  | .dec => 9
  | .mul => 10
  | .imul => 11
  | .div => 12
  | .idiv => 13
  | .rol => 16
  | .ror => 17
  | .rcl => 18
  | .rcr => 19
  | .shl => 20
  | .shr => 21
  | .sar => 23
  | .shld => 24
  | .shrd => 25

/-- The numeric select of a width (D2). -/
def widthSel : Width → Nat
  | .w8 => 0
  | .w16 => 1
  | .w32 => 2

/-- Inputs of the ALU port (R45): `value1` up to 64 bits, `value2` up to 32 bits, an 8-bit count, the carry. -/
structure AluIn where
  value1  : BitVec 64
  value2  : BitVec 32
  count   : Byte
  carryIn : Bool
  deriving DecidableEq, Repr

/-- Outputs of the ALU port (R45). -/
structure AluPortOut where
  result : BitVec 64
  fw     : FlagWrites
  fault  : Bool
  deriving DecidableEq, Repr

/-- A result of n bits on the 64-bit result lines. -/
def AluOut.toPort {n : Nat} (o : AluOut n) : AluPortOut := ⟨o.res.setWidth 64, o.fw, false⟩

/-- A quotient on the result lines, or the division fault, with a free value on the lines (DESIGN CHOICE, log 23). -/
def divToPort {n : Nat} (onFault : BitVec 64) : Option (DivOut n) → AluPortOut
  | some d => ⟨d.quot.setWidth 64, {}, false⟩
  | none => ⟨onFault, {}, true⟩

/-- A double shift selected at width 8, which no instruction does: free values (DESIGN CHOICE, log 23). -/
def doubleShift8ToPort (op : AluSel) (i : AluIn) : AluPortOut :=
  let (res, fl) := doubleShift8 op.num i.value1 i.value2 i.count
  ⟨res, { cf := fl .cf, pf := fl .pf, af := fl .af, zf := fl .zf, sf := fl .sf, ofl := fl .ofl }, false⟩

/-- The ALU behind its port (R45); the meanings of the instructions call the same functions. Its outputs on a division
fault and for a double shift at width 8, which the spec leaves open, are free values (DESIGN CHOICE, log 23). -/
def aluPort (mode : RotLeftOf) (op : AluSel) (w : Width) (i : AluIn) : AluPortOut :=
  let v1 := i.value1.setWidth w.bits
  let v2 := i.value2.setWidth w.bits
  match op with
  | .add => (aluAdd v1 v2 false).toPort
  | .or => (aluOr v1 v2).toPort
  | .adc => (aluAdd v1 v2 i.carryIn).toPort
  | .sbb => (aluSub v1 v2 i.carryIn).toPort
  | .and => (aluAnd v1 v2).toPort
  | .sub => (aluSub v1 v2 false).toPort
  | .xor => (aluXor v1 v2).toPort
  | .inc => (aluInc v1).toPort
  | .dec => (aluDec v1).toPort
  | .mul => (aluMul v1 v2).toPort
  | .imul => (aluImul v1 v2).toPort
  | .div => divToPort (faultLines op.num (widthSel w) i.value1 i.value2 i.count) (aluDiv (i.value1.setWidth (2 * w.bits)) v2)
  | .idiv => divToPort (faultLines op.num (widthSel w) i.value1 i.value2 i.count) (aluIdiv (i.value1.setWidth (2 * w.bits)) v2)
  | .rol => (aluRol mode v1 i.count).toPort
  | .ror => (aluRor v1 i.count).toPort
  | .rcl => (aluRcl mode v1 i.count i.carryIn).toPort
  | .rcr => (aluRcr v1 i.count i.carryIn).toPort
  | .shl => (aluShl v1 i.count).toPort
  | .shr => (aluShr v1 i.count).toPort
  | .sar => (aluSar v1 i.count).toPort
  | .shld => if w = .w8 then doubleShift8ToPort op i else (aluShld v1 v2 i.count).toPort
  | .shrd => if w = .w8 then doubleShift8ToPort op i else (aluShrd v1 v2 i.count).toPort

end Sys2Proof.Machine
end

