-- ==== Sys2Proof/Machine/Ops.lean ====
section
/-! DEFINITION. The shared operations over registers, memory and the stack, taking an exception
(`60_exceptions.md` R377) and returning from one (R380), and the bytes an instruction is fetched from. -/

namespace Sys2Proof.Machine

open Sys2Proof.Config

/-- What every meaning answers with. -/
abbrev Result := Host.Outcome State Fault Refusal

/-! ### General registers (R20 to R24) -/

/-- The 32-bit cell of a register number (R20). -/
def Gprs.cell (g : Gprs) : Gpr → DWord
  | .ax => g.eax
  | .cx => g.ecx
  | .dx => g.edx
  | .bx => g.ebx
  | .sp => g.esp
  | .bp => g.ebp
  | .si => g.esi
  | .di => g.edi

/-- Write of a whole cell (R21). -/
def Gprs.setCell (g : Gprs) (r : Gpr) (v : DWord) : Gprs :=
  match r with
  | .ax => { g with eax := v }
  | .cx => { g with ecx := v }
  | .dx => { g with edx := v }
  | .bx => { g with ebx := v }
  | .sp => { g with esp := v }
  | .bp => { g with ebp := v }
  | .si => { g with esi := v }
  | .di => { g with edi := v }

/-- The cell behind an 8-bit register number, and whether it is bits 15:8 of it (R23). -/
def byteCell : Gpr → Gpr × Bool
  | .ax => (.ax, false)
  | .cx => (.cx, false)
  | .dx => (.dx, false)
  | .bx => (.bx, false)
  | .sp => (.ax, true)
  | .bp => (.cx, true)
  | .si => (.dx, true)
  | .di => (.bx, true)

/-- `RN[r]`, the view of width N (R21, R22, R23). -/
def Gprs.read (g : Gprs) : (w : Width) → Gpr → BitVec w.bits
  | .w8, r => if (byteCell r).2 then (g.cell (byteCell r).1).extractLsb' 8 8 else (g.cell (byteCell r).1).extractLsb' 0 8
  | .w16, r => (g.cell r).extractLsb' 0 16
  | .w32, r => g.cell r

/-- Bits 7:0 of a cell replaced (R23). -/
def withByte0 (c : DWord) (v : Byte) : DWord := c.extractLsb' 8 24 ++ v

/-- Bits 15:8 of a cell replaced (R23). -/
def withByte1 (c : DWord) (v : Byte) : DWord := c.extractLsb' 16 16 ++ v ++ c.extractLsb' 0 8

/-- Bits 15:0 of a cell replaced (R22). -/
def withWord0 (c : DWord) (v : Word) : DWord := c.extractLsb' 16 16 ++ v

/-- `RN[r] <- v` (R21, R22, R23): the other bits of the cell are unchanged. -/
def Gprs.write (g : Gprs) : (w : Width) → Gpr → BitVec w.bits → Gprs
  | .w8, r, v =>
    g.setCell (byteCell r).1
      (if (byteCell r).2 then withByte1 (g.cell (byteCell r).1) v else withByte0 (g.cell (byteCell r).1) v)
  | .w16, r, v => g.setCell r (withWord0 (g.cell r) v)
  | .w32, r, v => g.setCell r v

/-! ### Segment registers (R26) -/

/-- `S[j]`. -/
def Segs.get (g : Segs) : SReg → Word
  | .es => g.es
  | .cs => g.cs
  | .ss => g.ss
  | .ds => g.ds
  | .fs => g.fs
  | .gs => g.gs

/-- `S[j] <- v`. -/
def Segs.set (g : Segs) (r : SReg) (v : Word) : Segs :=
  match r with
  | .es => { g with es := v }
  | .cs => { g with cs := v }
  | .ss => { g with ss := v }
  | .ds => { g with ds := v }
  | .fs => { g with fs := v }
  | .gs => { g with gs := v }

/-! ### Memory (R71 to R78)

The list holds transformed addresses in rising order, and no cell that reads as an unlisted one does. -/

/-- What an address no cell lists reads as (DESIGN CHOICE, log 3). -/
def unlisted : Byte := 0

/-- The byte at a transformed address. -/
def memGet (a : Nat) : List Host.Cell → Byte
  | [] => unlisted
  | (k, b) :: rest => if k = a then b else memGet a rest

/-- The byte at a transformed address replaced, keeping the canonical form. -/
def memSet (a : Nat) (v : Byte) : List Host.Cell → List Host.Cell
  | [] => if v = unlisted then [] else [(a, v)]
  | (k, b) :: rest =>
    if a < k then (if v = unlisted then (k, b) :: rest else (a, v) :: (k, b) :: rest)
    else if a = k then (if v = unlisted then rest else (a, v) :: rest)
    else (k, b) :: memSet a v rest

/-- The canonical form: addresses strictly rising, no cell equal to what an unlisted address reads as. -/
abbrev memWf (m : List Host.Cell) : Prop :=
  m.Pairwise (fun x y => x.1 < y.1) ∧ ∀ c ∈ m, c.2 ≠ unlisted

/-- `Lin(seg, off)` (R72). -/
def lin (seg off : Word) : Nat := seg.toNat * 16 + off.toNat

/-- `A20Transform` of a linear address (R73). -/
def State.phys (s : State) (a : Nat) : Nat := s.cfg.a20.apply a

/-- The byte at a transformed address: the model's read of one byte of memory. -/
def State.byteAt (s : State) (p : Nat) : Byte := memGet p s.mem

/-- Each of the n bytes from linear address a has its transformed address inside memory (R74). -/
def State.inMem (s : State) (a : Nat) : Nat → Bool
  | 0 => true
  | n + 1 => decide (s.phys a < s.cfg.memSize) && s.inMem (a + 1) n

/-- `MemRead(addr, n)` as a number, the byte at the lowest address least significant (R76, R77). -/
def State.loadNat (s : State) (a : Nat) : Nat → Nat
  | 0 => 0
  | n + 1 => (s.byteAt (s.phys a)).toNat + 256 * s.loadNat (a + 1) n

/-- `MemRead` of an operand of width N (R77, R108). -/
def State.load (s : State) (a : Nat) (w : Width) : BitVec w.bits := BitVec.ofNat w.bits (s.loadNat a w.bytes)

/-- `MemWrite(addr, n, v)` on the cells, byte by byte in increasing address (R77, R84). -/
def storeCells (cfg : Params) (a : Nat) : Nat → Nat → List Host.Cell → List Host.Cell
  | 0, _, m => m
  | n + 1, v, m => storeCells cfg (a + 1) n (v / 256) (memSet (cfg.a20.apply a) (BitVec.ofNat 8 v) m)

/-- `MemWrite` of an operand of width N (R77, R108). -/
def State.store (s : State) (a : Nat) (w : Width) (v : BitVec w.bits) : State :=
  { s with mem := storeCells s.cfg a w.bytes v.toNat s.mem }

/-- A request outside memory stops the machine (R74). -/
def guardMem (ok : Bool) (next : State) : Result :=
  if ok then .next next else .fault .outOfMemory

/-! ### Instruction pointer (R30) -/

/-- `trunc_16(ip_start + len)`: the offset of the byte after the instruction. -/
def State.nextIp (s : State) : Word := s.dec.ipStart + BitVec.ofNat 16 s.dec.len

/-- Completion of an instruction that is not a taken control transfer (R30). -/
def State.advance (s : State) : State := { s with ip := s.nextIp }

/-! ### The stack (R378) -/

/-- SP, the 16-bit stack pointer. -/
def State.sp (s : State) : Word := s.gpr.read .w16 .sp

/-- `SP <- v`; bits 31:16 of ESP are unchanged. -/
def State.setSp (s : State) (v : Word) : State := { s with gpr := s.gpr.write .w16 .sp v }

/-- `Push16(v)`: `SP <- trunc_16(SP - 2); MemWrite(Lin(SS, SP), 2, v)`. -/
def State.push16 (s : State) (v : Word) : State :=
  let t := s.setSp (s.sp - 2)
  t.store (lin t.seg.ss t.sp) .w16 v

/-- The value `Pop16()` returns: `MemRead(Lin(SS, SP), 2)`. -/
def State.top16 (s : State) : Word := s.load (lin s.seg.ss s.sp) .w16

/-- The state after `Pop16()`: `SP <- trunc_16(SP + 2)`. -/
def State.pop16 (s : State) : State := s.setSp (s.sp + 2)

/-- The stack slot at SP + d is inside memory. -/
def State.slotOk (s : State) (d : Word) : Bool := s.inMem (lin s.seg.ss (s.sp + d)) 2

/-! ### Taking an exception and returning from one (R377, R380) -/

/-- The memory requests of `TrapEntry(n, …)` are inside memory: three pushes, two vector reads. -/
def State.trapOk (s : State) (n : Byte) : Bool :=
  s.slotOk (-2) && s.slotOk (-4) && s.slotOk (-6) && s.inMem (4 * n.toNat) 2 && s.inMem (4 * n.toNat + 2) 2

/-- `IF <- 0 ; TF <- 0` (R377 step 2). -/
def State.maskIntr (s : State) : State := { s with flags := { s.flags with ifl := false, tf := false } }

/-- Steps 1 to 4 of `TrapEntry` (R377): FLAGS16 as it was, IF and TF cleared, CS, the saved offset. -/
def State.trapFrame (s : State) (savedIp : Word) : State :=
  (((s.push16 s.flags.image).maskIntr).push16 s.seg.cs).push16 savedIp

/-- `TrapEntry(n, saved_ip)` (R377): the frame, then the vector read from memory at 4n (R379), CS:ip, depth. -/
def State.trapped (s : State) (n : Byte) (savedIp : Word) : State :=
  let t := s.trapFrame savedIp
  let newIp := t.load (4 * n.toNat) .w16
  let newCs := t.load (4 * n.toNat + 2) .w16
  { t with seg := { t.seg with cs := newCs }, ip := newIp, depth := t.depth + 1 }

/-- Taking an exception: the one operation behind INT n, DivisionFault, InvalidOpcode and the external
interrupt (R372, R377). -/
def takeTrap (s : State) (n : Byte) (savedIp : Word) : Result := guardMem (s.trapOk n) (s.trapped n savedIp)

/-- `stop Fatal(reason)` (R10, R386): every other part of the state is as before the stopping instruction. -/
def State.stopFatal (s : State) (why : FatalReason) : State := { s with run := .stopped why }

/-- `raise DivisionFault` (R370): vector 0, saved offset `ip_start`. -/
def raiseDivisionFault (s : State) : Result := takeTrap s 0 s.dec.ipStart

/-- `raise InvalidOpcode` (R371): vector 6, saved offset `ip_start`, or the fatal stop in strict mode. -/
def raiseInvalidOpcode (s : State) : Result :=
  if s.cfg.strictInvalid then .next (s.stopFatal .invalidOpcode) else takeTrap s 6 s.dec.ipStart

/-- The frame an IRET pops is inside memory. -/
def State.iretOk (s : State) : Bool := s.slotOk 0 && s.slotOk 2 && s.slotOk 4

/-- Return from an exception (R345, R380): pops `ip`, CS and the flag image; `depth` - 1. -/
def State.iretted (s : State) : State :=
  let s1 := s.pop16
  let s2 := s1.pop16
  let s3 := s2.pop16
  { s3 with
    ip := s.top16
    seg := { s3.seg with cs := s1.top16 }
    flags := Flags.ofImage s2.top16
    depth := s3.depth - 1 }

/-- Return from an exception; with `depth` 0 it is the fatal context underflow, checked before any pop
(R385). -/
def trapReturn (s : State) : Result :=
  if s.depth = 0 then .next (s.stopFatal .contextUnderflow) else guardMem s.iretOk s.iretted

/-- The report with `STOPPED` (R43): CS and `ip_start` of the stopping instruction, and the depth. -/
def State.fatalReport (s : State) : Option (FatalReason × Word × Word × Nat) :=
  match s.run with
  | .stopped why => some (why, s.seg.cs, s.ip, s.depth)
  | _ => none

/-! ### Fetching an instruction's bytes (R79, R115) -/

/-- `Fetch8` from linear address a for up to n bytes, ending early where a byte is outside memory. -/
def State.fetchFrom (s : State) (a : Nat) : Nat → List Byte
  | 0 => []
  | n + 1 => if s.inMem a 1 then s.byteAt (s.phys a) :: s.fetchFrom (a + 1) n else []

/-- The bytes the decoder may consume: at most `MAX_INSN_LEN` from `Lin(CS, ip)` (R79, R115). -/
def State.fetchBytes (s : State) : List Byte := s.fetchFrom (lin s.seg.cs s.ip) maxInsnLen

/-- Why decoding stopped, as the step answers it: bytes that ran out ended at the length limit (R115) or at the
end of memory (R74). -/
def decodeStopped (avail : Nat) : DecodeStop → Result
  | .addressSize => .refused .addressSizePrefix
  | .repOnAdmitted => .refused .repPrefix
  | .operandSize16Only => .refused .operandSizeOn16bitOnlyForm
  | .notAdmitted => .refused .notAdmitted
  | .truncated => if avail < maxInsnLen then .fault .outOfMemory else .refused .instructionTooLong

/-- Bytes placed in memory from a linear address on, as a host loads a program (R423). -/
def State.loadBytes (s : State) (a : Nat) : List Byte → State
  | [] => s
  | b :: bs => (s.store a .w8 b).loadBytes (a + 1) bs

end Sys2Proof.Machine
end

