-- ==== Sys2Proof/Machine/Operands.lean ====
section
/-! DEFINITION. Operands: effective addresses (`30_encoding.md` R105 to R108), reading and writing an `E`
operand, and the shapes the instruction families share (`20_memory.md` R82, R83). -/

namespace Sys2Proof.Machine

open Sys2Proof.Config

/-! ### Effective address (R106, R107) -/

/-- The displacement as a 16-bit value (R105, R106). -/
def dispVal : Disp → Word
  | .none => 0
  | .d8 d => d.signExtend 16
  | .d16 d => d

/-- The registers of an address (R106), in their 16-bit views. -/
def baseVal (g : Gprs) : Base → Word
  | .bxsi => g.read .w16 .bx + g.read .w16 .si
  | .bxdi => g.read .w16 .bx + g.read .w16 .di
  | .bpsi => g.read .w16 .bp + g.read .w16 .si
  | .bpdi => g.read .w16 .bp + g.read .w16 .di
  | .si => g.read .w16 .si
  | .di => g.read .w16 .di
  | .bp => g.read .w16 .bp
  | .bx => g.read .w16 .bx

/-- The default segment of an address: SS for the BP-based forms, else DS (R106). -/
def defaultSeg : Addr → SReg
  | .based .bpsi _ => .ss
  | .based .bpdi _ => .ss
  | .based .bp _ => .ss
  | _ => .ds

/-- The 16-bit offset of an address, modulo 2^16 (R106). -/
def offsetOf (g : Gprs) : Addr → Word
  | .direct d => d
  | .based b d => baseVal g b + dispVal d

/-- The linear address of a memory operand (R107). -/
def State.linOf (s : State) (m : MemRef) : Nat :=
  lin (s.seg.get (m.seg.getD (defaultSeg m.addr))) (offsetOf s.gpr m.addr)

/-! ### `E` operands (R108) -/

/-- An `E` operand with its address computed: a register, or the linear address of its first byte. -/
inductive Place where
  | reg (r : Gpr)
  | mem (a : Nat)
  deriving DecidableEq, Repr

/-- The effective address, computed once, before any operand is read (R82 step 2, R108). -/
def State.place (s : State) : Rm → Place
  | .reg r => .reg r
  | .mem m => .mem (s.linOf m)

/-- The operand's bytes are inside memory (R74). -/
def State.placeOk (s : State) (w : Width) : Place → Bool
  | .reg _ => true
  | .mem a => s.inMem a w.bytes

/-- An `E` operand of width N is a register or lies inside memory. -/
def State.rmOk (s : State) (w : Width) (e : Rm) : Bool := s.placeOk w (s.place e)

/-- Read of an operand of width N (R108). -/
def State.peek (s : State) (w : Width) : Place → BitVec w.bits
  | .reg r => s.gpr.read w r
  | .mem a => s.load a w

/-- Write of an operand of width N (R108). -/
def State.poke (s : State) (w : Width) (p : Place) (v : BitVec w.bits) : State :=
  match p with
  | .reg r => { s with gpr := s.gpr.write w r v }
  | .mem a => s.store a w v

/-- Read of an `E` operand. -/
def State.readRm (s : State) (w : Width) (e : Rm) : BitVec w.bits := s.peek w (s.place e)

/-- Write of an `E` operand whose address is that of state s. -/
def State.writeRm (s : State) (w : Width) (e : Rm) (v : BitVec w.bits) : State := s.poke w (s.place e) v

/-- An immediate as a value of width N (R110). -/
def immVal (w : Width) : Imm → BitVec w.bits
  | .i8 v => v.setWidth w.bits
  | .i16 v => v.setWidth w.bits
  | .i32 v => v.setWidth w.bits

/-- `Ibs`: a byte sign-extended to N bits (R110). -/
def simmVal (w : Width) (i : Byte) : BitVec w.bits := i.signExtend w.bits

/-! ### The two-operand forms (R109) -/

/-- Width N of a form. -/
abbrev binWidth : BinForm → Width
  | .rmReg w _ _ => w
  | .regRm w _ _ => w
  | .accImm i => i.width
  | .rmImm _ i => i.width
  | .rmImmS o _ _ => o.width

/-- The destination of a form, the first operand. -/
def binDst : BinForm → Rm
  | .rmReg _ e _ => e
  | .regRm _ g _ => .reg g
  | .accImm _ => .reg .ax
  | .rmImm e _ => e
  | .rmImmS _ e _ => e

/-- The value of a form's source, the second operand. -/
def State.binSrc (s : State) : (f : BinForm) → BitVec (binWidth f).bits
  | .rmReg w _ g => s.gpr.read w g
  | .regRm w _ e => s.readRm w e
  | .accImm i => immVal i.width i
  | .rmImm _ i => immVal i.width i
  | .rmImmS o _ i => simmVal o.width i

/-- A form's `E` operand, if it has one, is a register or lies inside memory. -/
def State.binOk (s : State) : BinForm → Bool
  | .rmReg w e _ => s.rmOk w e
  | .regRm w _ e => s.rmOk w e
  | .accImm _ => true
  | .rmImm e i => s.rmOk i.width e
  | .rmImmS o e _ => s.rmOk o.width e

/-- An ALU operation of two operands at any width. -/
abbrev AluOp2 := {n : Nat} → BitVec n → BitVec n → AluOut n

/-- `(res, F) = Op_N(dst, src); dst <- res; flags <- F` (R166 and its like, R82, R83). -/
def execBin (op : AluOp2) (undef : List FlagName) (f : BinForm) (s : State) : Result :=
  let w := binWidth f
  let r := op (s.readRm w (binDst f)) (s.binSrc f)
  guardMem (s.binOk f) (((s.writeRm w (binDst f) r.res).writeFlags r.fw undef).advance)

/-- The same with the result discarded (R170). -/
def execBinFlags (op : AluOp2) (undef : List FlagName) (f : BinForm) (s : State) : Result :=
  let r := op (s.readRm (binWidth f) (binDst f)) (s.binSrc f)
  guardMem (s.binOk f) ((s.writeFlags r.fw undef).advance)

/-- `v = read E; (res, F) = Op(v); write E <- res; flags <- F` for one `E` operand (R83). -/
def execRmw (w : Width) (e : Rm) (op : BitVec w.bits → AluOut w.bits) (undef : List FlagName) (s : State) : Result :=
  let r := op (s.readRm w e)
  guardMem (s.rmOk w e) (((s.writeRm w e r.res).writeFlags r.fw undef).advance)

/-- The count of a group 2 instruction: the immediate byte, 1, or all 8 bits of CL (R109). -/
def State.countVal (s : State) : Count → Byte
  | .imm c => c
  | .one => 1
  | .cl => s.gpr.read .w8 .cx

/-- The count of a double shift (R271, R272). -/
def State.dcountVal (s : State) : DCount → Byte
  | .imm c => c
  | .cl => s.gpr.read .w8 .cx

/-- A double-width result into AX, or DX:AX, or EDX:EAX (R227, R228). -/
def State.writeDouble (s : State) : (w : Width) → BitVec (2 * w.bits) → State
  | .w8, v => { s with gpr := s.gpr.write .w16 .ax (v.setWidth 16) }
  | .w16, v => { s with gpr := (s.gpr.write .w16 .ax (v.extractLsb' 0 16)).write .w16 .dx (v.extractLsb' 16 16) }
  | .w32, v => { s with gpr := (s.gpr.write .w32 .ax (v.extractLsb' 0 32)).write .w32 .dx (v.extractLsb' 32 32) }

/-- The dividend: AX, `{DX, AX}` or `{EDX, EAX}` (R230). -/
def State.dividend (s : State) : (w : Width) → BitVec (2 * w.bits)
  | .w8 => (s.gpr.read .w16 .ax).setWidth (2 * Width.w8.bits)
  | .w16 => (s.gpr.read .w16 .dx ++ s.gpr.read .w16 .ax).setWidth (2 * Width.w16.bits)
  | .w32 => (s.gpr.read .w32 .dx ++ s.gpr.read .w32 .ax).setWidth (2 * Width.w32.bits)

/-- Quotient and remainder into AL and AH, AX and DX, or EAX and EDX (R230, R231). -/
def State.writeQuotRem (s : State) : (w : Width) → DivOut w.bits → State
  | .w8, d => { s with gpr := (s.gpr.write .w8 .ax d.quot).write .w8 .sp d.rem }
  | .w16, d => { s with gpr := (s.gpr.write .w16 .ax d.quot).write .w16 .dx d.rem }
  | .w32, d => { s with gpr := (s.gpr.write .w32 .ax d.quot).write .w32 .dx d.rem }

/-- A division: on a fault nothing is written and the trap sequence runs (R224, R230, R374). -/
def execDivide (w : Width) (e : Rm) (divide : BitVec (2 * w.bits) → BitVec w.bits → Option (DivOut w.bits))
    (s : State) : Result :=
  if s.rmOk w e then
    match divide (s.dividend w) (s.readRm w e) with
    | some d => .next (((s.writeQuotRem w d).writeFlags {} undefDiv).advance)
    | none => raiseDivisionFault s
  else .fault .outOfMemory

/-- A relative control transfer (R340): the offset of the next byte plus the displacement, modulo 2^16. -/
def State.jumpRel (s : State) (rel : Word) : State := { s with ip := s.nextIp + rel }

end Sys2Proof.Machine
end

