-- ==== Sys2Proof/Machine/AddSub.lean ====
section
/-! DEFINITION. ADD ADC SUB SBB CMP INC DEC NEG (`40_alu_add_sub.md` R166 to R173). -/

namespace Sys2Proof.Machine

open Sys2Proof.Config

/-- ADD (R166). -/
def execAdd (f : BinForm) (s : State) : Result := execBin (fun a b => aluAdd a b false) [] f s

/-- ADC (R167): the incoming Carry enters the sum. -/
def execAdc (f : BinForm) (s : State) : Result := execBin (fun a b => aluAdd a b s.flags.cf) [] f s

/-- SUB (R168). -/
def execSub (f : BinForm) (s : State) : Result := execBin (fun a b => aluSub a b false) [] f s

/-- SBB (R169): the incoming Carry is the borrow in. -/
def execSbb (f : BinForm) (s : State) : Result := execBin (fun a b => aluSub a b s.flags.cf) [] f s

/-- CMP (R170): SUB with the result discarded. -/
def execCmp (f : BinForm) (s : State) : Result := execBinFlags (fun a b => aluSub a b false) [] f s

/-- INC (R171). -/
def execInc (f : IncForm) (s : State) : Result :=
  match f with
  | .short o r => execRmw o.width (.reg r) aluInc [] s
  | .rm w e => execRmw w e aluInc [] s

/-- DEC (R172). -/
def execDec (f : IncForm) (s : State) : Result :=
  match f with
  | .short o r => execRmw o.width (.reg r) aluDec [] s
  | .rm w e => execRmw w e aluDec [] s

/-- NEG (R173): `Sub_N(0, dst, 0)`. -/
def execNeg (w : Width) (e : Rm) (s : State) : Result := execRmw w e (fun v => aluSub 0 v false) [] s

end Sys2Proof.Machine
end

