-- ==== Sys2Proof/Machine/Control.lean ====
section
/-! DEFINITION. Jcc JMP INT IRET HLT ESC (`45_control_and_system.md` R340 to R348), and the encodings without an
instruction: invalid (`30_encoding.md` R125) and reserved (R126). -/

namespace Sys2Proof.Machine

open Sys2Proof.Config

/-- Jcc rel8 (R341). -/
def execJcc (c : Cond) (rel : Byte) (s : State) : Result :=
  .next (if condHolds s.flags c then s.jumpRel (rel.signExtend 16) else s.advance)

/-- JMP rel8 (R342). -/
def execJmpRel8 (rel : Byte) (s : State) : Result := .next (s.jumpRel (rel.signExtend 16))

/-- JMP rel16 (R343). -/
def execJmpRel16 (rel : Word) (s : State) : Result := .next (s.jumpRel rel)

/-- INT n (R344): the trap entry with the offset of the next instruction saved. -/
def execInt (n : Byte) (s : State) : Result := takeTrap s n s.nextIp

/-- IRET (R345, R385). -/
def execIret (s : State) : Result := trapReturn s

/-- HLT (R347): `ip` is advanced, then the core halts (D36). -/
def execHlt (s : State) : Result := .next ({ s.advance with run := .halted } : State)

/-- ESC (R348): no operand is accessed, only `ip` moves. -/
def execEsc (_op _reg : BitVec 3) (_e : Rm) (s : State) : Result := .next s.advance

/-- An invalid encoding (R125): InvalidOpcode (R371). -/
def execInvalid (_op _modrm : Byte) (s : State) : Result := raiseInvalidOpcode s

/-- `MOV CS, rm` (R125, R304): InvalidOpcode (R371). -/
def execInvalidMovCs (_modrm : Byte) (s : State) : Result := raiseInvalidOpcode s

/-- A reserved encoding (R126): no meaning is given, `refuse(reserved_encoding)`. -/
def execReserved (_op : Byte) (_modrm : Option Byte) (_s : State) : Result := .refused .reservedEncoding

end Sys2Proof.Machine
end

