-- ==== Sys2Proof/Machine/FlagAccess.lean ====
section
/-! DEFINITION. LAHF SAHF PUSHF POPF and the single-flag instructions (`44_move_and_flag_access.md` R306 to R316). -/

namespace Sys2Proof.Machine

open Sys2Proof.Config

/-- AH is the 8-bit register of number 4 (R23). -/
def State.ah (s : State) : Byte := s.gpr.read .w8 .sp

/-- LAHF (R306). -/
def execLahf (s : State) : Result :=
  .next (({ s with gpr := s.gpr.write .w8 .sp (s.flags.image.extractLsb' 0 8) } : State).advance)

/-- SAHF (R307). -/
def execSahf (s : State) : Result := .next (({ s with flags := s.flags.setLow s.ah } : State).advance)

/-- PUSHF (R308). -/
def execPushf (s : State) : Result := guardMem (s.slotOk (-2)) ((s.push16 s.flags.image).advance)

/-- POPF (R309): all nine flags from the popped word. -/
def execPopf (s : State) : Result :=
  guardMem (s.slotOk 0) (({ s.pop16 with flags := Flags.ofImage s.top16 } : State).advance)

/-- CLC (R310). -/
def execClc (s : State) : Result := .next (({ s with flags := { s.flags with cf := false } } : State).advance)

/-- STC (R311). -/
def execStc (s : State) : Result := .next (({ s with flags := { s.flags with cf := true } } : State).advance)

/-- CMC (R312). -/
def execCmc (s : State) : Result := .next (({ s with flags := { s.flags with cf := !s.flags.cf } } : State).advance)

/-- CLD (R313). -/
def execCld (s : State) : Result := .next (({ s with flags := { s.flags with df := false } } : State).advance)

/-- STD (R314). -/
def execStd (s : State) : Result := .next (({ s with flags := { s.flags with df := true } } : State).advance)

/-- CLI (R315). -/
def execCli (s : State) : Result := .next (({ s with flags := { s.flags with ifl := false } } : State).advance)

/-- STI (R316): no delay before an interrupt can be taken (D30). -/
def execSti (s : State) : Result := .next (({ s with flags := { s.flags with ifl := true } } : State).advance)

end Sys2Proof.Machine
end

