-- ==== Sys2Proof/Machine/Logic.lean ====
section
/-! DEFINITION. AND OR XOR TEST NOT (`41_alu_logic.md` R201 to R205). -/

namespace Sys2Proof.Machine

open Sys2Proof.Config

/-- AND (R201). -/
def execAnd (f : BinForm) (s : State) : Result := execBin aluAnd undefLogic f s

/-- OR (R202). -/
def execOr (f : BinForm) (s : State) : Result := execBin aluOr undefLogic f s

/-- XOR (R203). -/
def execXor (f : BinForm) (s : State) : Result := execBin aluXor undefLogic f s

/-- A TEST form as the two-operand form with the same operands (R204). -/
def testBin : TestForm → BinForm
  | .rmReg w e g => .rmReg w e g
  | .accImm i => .accImm i
  | .rmImm e i => .rmImm e i

/-- TEST (R204): AND with the result discarded. -/
def execTest (f : TestForm) (s : State) : Result := execBinFlags aluAnd undefLogic (testBin f) s

/-- NOT (R205): the complement; no flag is written. -/
def execNot (w : Width) (e : Rm) (s : State) : Result := execRmw w e (fun v => ⟨~~~v, {}⟩) [] s

end Sys2Proof.Machine
end

