-- ==== Sys2Proof/Machine/Move.lean ====
section
/-! DEFINITION. MOV and NOP (`44_move_and_flag_access.md` R300 to R305). No flag is written. -/

namespace Sys2Proof.Machine

open Sys2Proof.Config

/-- MOV `Eb,Gb` `Ev,Gv` (R300). -/
def execMovRmReg (w : Width) (e : Rm) (g : Gpr) (s : State) : Result :=
  guardMem (s.rmOk w e) ((s.writeRm w e (s.gpr.read w g)).advance)

/-- MOV `Gb,Eb` `Gv,Ev` (R300). -/
def execMovRegRm (w : Width) (g : Gpr) (e : Rm) (s : State) : Result :=
  guardMem (s.rmOk w e) (({ s with gpr := s.gpr.write w g (s.readRm w e) } : State).advance)

/-- MOV `Zb,Ib` `Zv,Iv` (R301). -/
def execMovRegImm (g : Gpr) (i : Imm) (s : State) : Result :=
  .next (({ s with gpr := s.gpr.write i.width g (immVal i.width i) } : State).advance)

/-- MOV `Eb,Ib` `Ev,Iv` (R302). -/
def execMovRmImm (e : Rm) (i : Imm) (s : State) : Result :=
  guardMem (s.rmOk i.width e) ((s.writeRm i.width e (immVal i.width i)).advance)

/-- MOV `Ew,Sw` (R303): 16 bits whatever the operand size. -/
def execMovRmSreg (e : Rm) (r : SReg) (s : State) : Result :=
  guardMem (s.rmOk .w16 e) ((s.writeRm .w16 e (s.seg.get r)).advance)

/-- MOV `Sw,Ew` (R304). -/
def execMovSregRm (r : SReg) (e : Rm) (s : State) : Result :=
  guardMem (s.rmOk .w16 e) (({ s with seg := s.seg.set r (s.readRm .w16 e) } : State).advance)

/-- NOP (R305). -/
def execNop (s : State) : Result := .next s.advance

end Sys2Proof.Machine
end

