-- ==== Sys2Proof/Machine/MulDiv.lean ====
section
/-! DEFINITION. MUL, IMUL in its one-, two- and three-operand forms, DIV, IDIV (`42_alu_mul_div.md` R227 to R231). -/

namespace Sys2Proof.Machine

open Sys2Proof.Config

/-- The accumulator of width N: AL, AX, EAX (R227). -/
def State.acc (s : State) (w : Width) : BitVec w.bits := s.gpr.read w .ax

/-- MUL (R227). -/
def execMul (w : Width) (e : Rm) (s : State) : Result :=
  let r := aluMul (s.acc w) (s.readRm w e)
  guardMem (s.rmOk w e) (((s.writeDouble w r.res).writeFlags r.fw undefMul).advance)

/-- IMUL with one operand (R228). -/
def execImul (w : Width) (e : Rm) (s : State) : Result :=
  let r := aluImul (s.acc w) (s.readRm w e)
  guardMem (s.rmOk w e) (((s.writeDouble w r.res).writeFlags r.fw undefMul).advance)

/-- `(res, F) = Imul_N(a, b); dst <- res[N-1:0]` (R229): the high half is discarded. -/
def imulInto (w : Width) (g : Gpr) (e : Rm) (a b : BitVec w.bits) (s : State) : Result :=
  let r := aluImul a b
  guardMem (s.rmOk w e)
    ((({ s with gpr := s.gpr.write w g (r.res.setWidth w.bits) } : State).writeFlags r.fw undefMul).advance)

/-- IMUL `Gv,Ev` (R229): a = dst, b = src. -/
def execImulRegRm (o : OpSize) (g : Gpr) (e : Rm) (s : State) : Result :=
  imulInto o.width g e (s.gpr.read o.width g) (s.readRm o.width e) s

/-- IMUL `Gv,Ev,Iv` (R229): a = src, b = imm. -/
def execImulRegRmImm (g : Gpr) (e : Rm) (i : Imm) (s : State) : Result :=
  imulInto i.width g e (s.readRm i.width e) (immVal i.width i) s

/-- IMUL `Gv,Ev,Ibs` (R229): a = src, b = the byte sign-extended. -/
def execImulRegRmImmS (o : OpSize) (g : Gpr) (e : Rm) (i : Byte) (s : State) : Result :=
  imulInto o.width g e (s.readRm o.width e) (simmVal o.width i) s

/-- DIV (R230). -/
def execDiv (w : Width) (e : Rm) (s : State) : Result := execDivide w e aluDiv s

/-- IDIV (R231). -/
def execIdiv (w : Width) (e : Rm) (s : State) : Result := execDivide w e aluIdiv s

end Sys2Proof.Machine
end

