-- ==== Sys2Proof/Machine/Shift.lean ====
section
/-! DEFINITION. ROL ROR RCL RCR SHL SHR SAR SHLD SHRD (`43_alu_rotate_shift.md` R260 to R266, R271, R272). The
destination is written even when the reduced count is 0 (D18). -/

namespace Sys2Proof.Machine

open Sys2Proof.Config

/-- ROL (R260). -/
def execRol (w : Width) (e : Rm) (c : Count) (s : State) : Result :=
  let k := s.countVal c
  execRmw w e (fun v => aluRol s.cfg.rotLeftOf v k) (undefRotate w.bits k) s

/-- ROR (R261). -/
def execRor (w : Width) (e : Rm) (c : Count) (s : State) : Result :=
  let k := s.countVal c
  execRmw w e (fun v => aluRor v k) (undefRotate w.bits k) s

/-- RCL (R262). -/
def execRcl (w : Width) (e : Rm) (c : Count) (s : State) : Result :=
  let k := s.countVal c
  execRmw w e (fun v => aluRcl s.cfg.rotLeftOf v k s.flags.cf) (undefRotate (w.bits + 1) k) s

/-- RCR (R263). -/
def execRcr (w : Width) (e : Rm) (c : Count) (s : State) : Result :=
  let k := s.countVal c
  execRmw w e (fun v => aluRcr v k s.flags.cf) (undefRotate (w.bits + 1) k) s

/-- SHL (R264). -/
def execShl (w : Width) (e : Rm) (c : Count) (s : State) : Result :=
  let k := s.countVal c
  execRmw w e (fun v => aluShl v k) (undefShift k) s

/-- SHR (R265). -/
def execShr (w : Width) (e : Rm) (c : Count) (s : State) : Result :=
  let k := s.countVal c
  execRmw w e (fun v => aluShr v k) (undefShift k) s

/-- SAR (R266). -/
def execSar (w : Width) (e : Rm) (c : Count) (s : State) : Result :=
  let k := s.countVal c
  execRmw w e (fun v => aluSar v k) (undefAf k) s

/-- SHLD (R271). -/
def execShld (o : OpSize) (e : Rm) (g : Gpr) (c : DCount) (s : State) : Result :=
  let k := s.dcountVal c
  execRmw o.width e (fun d => aluShld d (s.gpr.read o.width g) k) (undefAf k) s

/-- SHRD (R272). -/
def execShrd (o : OpSize) (e : Rm) (g : Gpr) (c : DCount) (s : State) : Result :=
  let k := s.dcountVal c
  execRmw o.width e (fun d => aluShrd d (s.gpr.read o.width g) k) (undefAf k) s

end Sys2Proof.Machine
end

