-- ==== Sys2Proof/Machine/Dispatch.lean ====
section
/-! DEFINITION. The dispatch: one arm per constructor of Instr, one direct call of its meaning. -/

namespace Sys2Proof.Machine

def exec (i : Instr) (s : State) : Host.Outcome State Fault Refusal :=
  match i with
  | .add f => Sys2Proof.Machine.execAdd f s
  | .or f => Sys2Proof.Machine.execOr f s
  | .adc f => Sys2Proof.Machine.execAdc f s
  | .sbb f => Sys2Proof.Machine.execSbb f s
  | .and f => Sys2Proof.Machine.execAnd f s
  | .sub f => Sys2Proof.Machine.execSub f s
  | .xor f => Sys2Proof.Machine.execXor f s
  | .cmp f => Sys2Proof.Machine.execCmp f s
  | .inc f => Sys2Proof.Machine.execInc f s
  | .dec f => Sys2Proof.Machine.execDec f s
  | .neg w e => Sys2Proof.Machine.execNeg w e s
  | .test f => Sys2Proof.Machine.execTest f s
  | .not w e => Sys2Proof.Machine.execNot w e s
  | .mul w e => Sys2Proof.Machine.execMul w e s
  | .imul w e => Sys2Proof.Machine.execImul w e s
  | .imulRegRm o g e => Sys2Proof.Machine.execImulRegRm o g e s
  | .imulRegRmImm g e v => Sys2Proof.Machine.execImulRegRmImm g e v s
  | .imulRegRmImmS o g e v => Sys2Proof.Machine.execImulRegRmImmS o g e v s
  | .div w e => Sys2Proof.Machine.execDiv w e s
  | .idiv w e => Sys2Proof.Machine.execIdiv w e s
  | .rol w e c => Sys2Proof.Machine.execRol w e c s
  | .ror w e c => Sys2Proof.Machine.execRor w e c s
  | .rcl w e c => Sys2Proof.Machine.execRcl w e c s
  | .rcr w e c => Sys2Proof.Machine.execRcr w e c s
  | .shl w e c => Sys2Proof.Machine.execShl w e c s
  | .shr w e c => Sys2Proof.Machine.execShr w e c s
  | .sar w e c => Sys2Proof.Machine.execSar w e c s
  | .shld o e g c => Sys2Proof.Machine.execShld o e g c s
  | .shrd o e g c => Sys2Proof.Machine.execShrd o e g c s
  | .movRmReg w e g => Sys2Proof.Machine.execMovRmReg w e g s
  | .movRegRm w g e => Sys2Proof.Machine.execMovRegRm w g e s
  | .movRegImm g v => Sys2Proof.Machine.execMovRegImm g v s
  | .movRmImm e v => Sys2Proof.Machine.execMovRmImm e v s
  | .movRmSreg e r => Sys2Proof.Machine.execMovRmSreg e r s
  | .movSregRm r e => Sys2Proof.Machine.execMovSregRm r e s
  | .nop => Sys2Proof.Machine.execNop s
  | .lahf => Sys2Proof.Machine.execLahf s
  | .sahf => Sys2Proof.Machine.execSahf s
  | .pushf => Sys2Proof.Machine.execPushf s
  | .popf => Sys2Proof.Machine.execPopf s
  | .clc => Sys2Proof.Machine.execClc s
  | .stc => Sys2Proof.Machine.execStc s
  | .cmc => Sys2Proof.Machine.execCmc s
  | .cld => Sys2Proof.Machine.execCld s
  | .std => Sys2Proof.Machine.execStd s
  | .cli => Sys2Proof.Machine.execCli s
  | .sti => Sys2Proof.Machine.execSti s
  | .jcc c rel => Sys2Proof.Machine.execJcc c rel s
  | .jmpRel8 rel => Sys2Proof.Machine.execJmpRel8 rel s
  | .jmpRel16 rel => Sys2Proof.Machine.execJmpRel16 rel s
  | .int n => Sys2Proof.Machine.execInt n s
  | .iret => Sys2Proof.Machine.execIret s
  | .hlt => Sys2Proof.Machine.execHlt s
  | .esc op reg e => Sys2Proof.Machine.execEsc op reg e s
  | .invalid op m => Sys2Proof.Machine.execInvalid op m s
  | .invalidMovCs m => Sys2Proof.Machine.execInvalidMovCs m s
  | .reserved op m => Sys2Proof.Machine.execReserved op m s

end Sys2Proof.Machine
end

