-- ==== Sys2Proof/Machine/Driver.lean ====
section
/-! DEFINITION. The driver loop around execution: the sampled inputs, reset (`70_reset_and_hazards.md` R420), the
external interrupt (`60_exceptions.md` R375), the order of checks of one step (R376) up to decoding. -/

namespace Sys2Proof.Machine

open Sys2Proof.Config

/-- The pins this step samples; after the last listed sample both lines are low (log 5). -/
def State.pins (s : State) : Pins := s.inputs.headD { reset := false, intr := none }

/-- The state a step works on: one sample consumed, `INTA` low, the decoder's working registers empty (R32). -/
def State.sampled (s : State) : State := { s with inputs := s.inputs.tail, inta := false, dec := .idle }

/-- Reset (R420): every register at its value of R50; memory, the parameters and the inputs still to come are
not touched. -/
def State.resetNow (s : State) : State :=
  { State.reset with
    seg := { State.reset.seg with cs := s.cfg.entryCs }
    ip := s.cfg.entryIp
    mem := s.mem
    inputs := s.inputs
    draws := s.draws
    cfg := s.cfg }

/-- The interrupt vector this step accepts: `INTR` = 1 and IF = 1 (R375). -/
def State.acceptedIntr (s : State) : Option Byte := if s.flags.ifl then s.pins.intr else none

/-- Taking the external interrupt (R375): `INTA`, the trap entry with the offset of the next instruction, run
state `Fetching`. -/
def takeInterrupt (s : State) (n : Byte) : Result :=
  guardMem (s.trapOk n) ({ s.trapped n s.ip with run := .fetching, inta := true } : State)

/-- What a step comes to before execution: it is over, or an instruction runs in a state whose working registers
are those of its decoding. -/
inductive Phase where
  | settled (r : Result)
  | run (i : Instr) (s : State)

/-- Decoding of the bytes at CS:ip (R111, R114, R88). -/
def State.decodePhase (s : State) : Phase :=
  match decode s.fetchBytes with
  | .ok (i, r) => .run i { s with dec := { r with ipStart := s.ip } }
  | .error why => .settled (decodeStopped s.fetchBytes.length why)

/-- Checks (1) to (6) of R376, in that order. -/
def State.front (s : State) : Phase :=
  if s.pins.reset then .settled (.next s.sampled.resetNow)
  else
    match s.run with
    | .stopped _ => .settled (.next s.sampled)
    | .fetching =>
      if s.flags.tf then .settled (.refused .trapFlagSet)
      else
        match s.acceptedIntr with
        | some n => .settled (takeInterrupt s.sampled n)
        | none => s.sampled.decodePhase
    | .halted =>
      if s.flags.tf then .settled (.refused .trapFlagSet)
      else
        match s.acceptedIntr with
        | some n => .settled (takeInterrupt s.sampled n)
        | none => .settled (.next s.sampled)

/-- The read-only snapshot of the host (R44): `G`, `S` and `ip`. -/
def State.currentRegisters (s : State) : Gprs × Segs × Word := (s.gpr, s.seg, s.ip)

/-- The read-only snapshot of the flag latch (R44). -/
def State.currentFlags (s : State) : Flags := s.flags

/-- The flush input of the host (R44, R91): it empties the decoded-instruction cache, which holds nothing a program
can see (R34) and which this model does not keep. -/
def State.invalidate (s : State) (_from _to : Nat) : State := s

/-- What the host's step call returns (R44): whether the machine halted. -/
def State.isHalted (s : State) : Bool := decide (s.run = .halted)

/-- The outputs `HALTED` and `STOPPED` (R43). -/
def State.isStopped (s : State) : Bool :=
  match s.run with
  | .stopped _ => true
  | _ => false

end Sys2Proof.Machine
end

