-- ==== Sys2Proof/Machine/Step.lean ====
section
/-! DEFINITION. One step of the core (`30_encoding.md` R111, `60_exceptions.md` R376), and a table word placed
where the next step fetches. -/

namespace Sys2Proof.Machine

/-- One pass of the driver loop: checks and decoding, then execution. -/
def step (s : State) : Host.Outcome State Fault Refusal :=
  match s.front with
  | .settled r => r
  | .run i t => exec i t

/-- The bytes of a table word stored from `Lin(CS, ip)` on, where the next step fetches (R79). -/
def State.withFetchWord (s : State) (nbits w : Nat) : State :=
  s.loadBytes (lin s.seg.cs s.ip) (tableBytes nbits w)

end Sys2Proof.Machine
end

