-- ==== Sys2Proof/Safety.lean ====
section
/-! DEFINITION. What counts as a safe step and a safe run, the invariant every step keeps, and the words the
statements are written in: which operand, registers and flags an instruction touches by the spec's own lists, and the
flags of a result said by arithmetic, not by the bit formulas the ALU uses. -/

namespace Sys2Proof

open Sys2Proof.Config

/-- A prefix byte of R101. -/
def isPrefixByte (b : Byte) : Bool :=
  decide (b ∈ [0x26, 0x2E, 0x36, 0x3E, 0x64, 0x65, 0x66, 0xF0, 0xF2, 0xF3])

/-- A prefix byte other than REPNE and REP. -/
def isPlainPrefix (b : Byte) : Bool := isPrefixByte b && decide (b ≠ 0xF2 ∧ b ≠ 0xF3)

/-- The segment override in force after a list of prefix bytes: the last one counts (R102). -/
def lastOverride (ps : List Byte) : Option SReg := ps.foldl (fun acc b => (segOverride b).or acc) none

/-- The forms R120 marks "no 66", and the invalid encodings of the same opcodes. -/
def Instr.refuses66 : Instr → Bool
  | .movRmSreg _ _ | .movSregRm _ _ | .pushf | .popf | .jcc _ _ | .jmpRel8 _ | .jmpRel16 _ | .int _ | .iret => true
  | .invalidMovCs _ => true
  | .invalid op _ => decide (op = 0x8C ∨ op = 0x8E)
  | _ => false

/-- The `E` operand an instruction writes, with its width: a register or memory destination (R83, R109). -/
def Instr.dest : Instr → Option (Width × Rm)
  | .add f | .or f | .adc f | .sbb f | .and f | .sub f | .xor f => some (Machine.binWidth f, Machine.binDst f)
  | .inc (.short o r) | .dec (.short o r) => some (o.width, .reg r)
  | .inc (.rm w e) | .dec (.rm w e) | .neg w e | .not w e => some (w, e)
  | .rol w e _ | .ror w e _ | .rcl w e _ | .rcr w e _ | .shl w e _ | .shr w e _ | .sar w e _ => some (w, e)
  | .shld o e _ _ | .shrd o e _ _ => some (o.width, e)
  | .movRmReg w e _ => some (w, e)
  | .movRmImm e i => some (i.width, e)
  | .movRmSreg e _ => some (.w16, e)
  | _ => none

/-- The `E` operand of a two-operand form, with its width, if the form has one (R109). -/
def BinForm.rm : BinForm → Option (Width × Rm)
  | .rmReg w e _ | .regRm w _ e => some (w, e)
  | .accImm _ => none
  | .rmImm e i => some (i.width, e)
  | .rmImmS o e _ => some (o.width, e)

/-- The `E` operand an instruction reads or writes, with its width (R81). ESC and the invalid and reserved encodings
access none. -/
def Instr.access : Instr → Option (Width × Rm)
  | .add f | .or f | .adc f | .sbb f | .and f | .sub f | .xor f | .cmp f => f.rm
  | .inc (.rm w e) | .dec (.rm w e) | .neg w e | .not w e => some (w, e)
  | .test (.rmReg w e _) => some (w, e)
  | .test (.rmImm e i) => some (i.width, e)
  | .mul w e | .imul w e | .div w e | .idiv w e => some (w, e)
  | .imulRegRm o _ e | .imulRegRmImmS o _ e _ => some (o.width, e)
  | .imulRegRmImm _ e i => some (i.width, e)
  | .rol w e _ | .ror w e _ | .rcl w e _ | .rcr w e _ | .shl w e _ | .shr w e _ | .sar w e _ => some (w, e)
  | .shld o e _ _ | .shrd o e _ _ => some (o.width, e)
  | .movRmReg w e _ | .movRegRm w _ e => some (w, e)
  | .movRmImm e i => some (i.width, e)
  | .movRmSreg e _ | .movSregRm _ e => some (.w16, e)
  | _ => none

/-- The cell a view of width N lies in (R21 to R23). -/
def viewCell : Width → Gpr → Gpr
  | .w8, r => (Machine.byteCell r).1
  | .w16, r => r
  | .w32, r => r

/-- The instructions that store nothing to memory whatever their form; of DIV and IDIV, when they do not fault. -/
def Instr.storesNothing : Instr → Bool
  | .cmp _ | .test _ | .mul _ _ | .imul _ _ | .imulRegRm _ _ _ | .imulRegRmImm _ _ _ | .imulRegRmImmS _ _ _ _ => true
  | .div _ _ | .idiv _ _ | .movRegRm _ _ _ | .movRegImm _ _ | .movSregRm _ _ | .nop | .lahf | .sahf | .popf => true
  | .clc | .stc | .cmc | .cld | .std | .cli | .sti | .jcc _ _ | .jmpRel8 _ | .jmpRel16 _ | .iret | .hlt => true
  | .esc _ _ _ => true
  | _ => false

/-- The register cells an instruction that stores nothing may write (R25). -/
def Instr.cellsWritten : Instr → List Gpr
  | .mul w _ | .imul w _ | .div w _ | .idiv w _ => if w = .w8 then [.ax] else [.ax, .dx]
  | .imulRegRm _ g _ | .imulRegRmImm g _ _ | .imulRegRmImmS _ g _ _ => [g]
  | .movRegRm w g _ => [viewCell w g]
  | .movRegImm g i => [viewCell i.width g]
  | .lahf => [.ax]
  | .popf | .iret => [.sp]
  | _ => []

/-- The arithmetic flags an instruction may write: the table of R29. -/
def Instr.flagsWritten : Instr → List FlagName
  | .add _ | .adc _ | .sub _ | .sbb _ | .cmp _ | .neg _ _ => [.cf, .pf, .af, .zf, .sf, .ofl]
  | .inc _ | .dec _ => [.pf, .af, .zf, .sf, .ofl]
  | .and _ | .or _ | .xor _ | .test _ | .mul _ _ => [.cf, .pf, .zf, .sf, .ofl]
  | .imul _ _ | .imulRegRm _ _ _ | .imulRegRmImm _ _ _ | .imulRegRmImmS _ _ _ _ => [.cf, .ofl]
  | .rol _ _ _ | .ror _ _ _ | .rcl _ _ _ | .rcr _ _ _ => [.cf, .ofl]
  | .shl _ _ _ | .shr _ _ _ | .sar _ _ _ | .shld _ _ _ _ | .shrd _ _ _ _ => [.cf, .pf, .zf, .sf, .ofl]
  | .clc | .stc | .cmc => [.cf]
  | .sahf => [.cf, .pf, .af, .zf, .sf]
  | .popf | .iret => [.cf, .pf, .af, .zf, .sf, .ofl]
  | _ => []

/-- The instructions that can enter the trap sequence (R372). -/
def Instr.canTrap : Instr → Bool
  | .int _ | .div _ _ | .idiv _ _ | .invalid _ _ | .invalidMovCs _ => true
  | _ => false

/-- The instructions whose rule writes `ip` itself, or that stop or trap (R30, R340). -/
def Instr.transfers : Instr → Bool
  | .jcc _ _ | .jmpRel8 _ | .jmpRel16 _ | .iret => true
  | i => i.canTrap

/-- Even parity of the low byte of a number, by counting its ones (R161). -/
def evenOnes (x : Nat) : Bool := decide ((List.range 8).countP (fun i => x.testBit i) % 2 = 0)

/-- An integer lies in the signed range of n bits, -2^(n-1) to 2^(n-1) - 1. -/
def fitsSigned (n : Nat) (x : Int) : Bool := decide (-(2 ^ (n - 1) : Int) ≤ x ∧ x ≤ 2 ^ (n - 1) - 1)

/-- The transform sends no two linear addresses from `lo` to below `hi` to one cell. Both named transforms have this
property on every window of at most 2^20 addresses. -/
def Config.Params.injOn (p : Params) (lo hi : Nat) : Prop :=
  ∀ a b, lo ≤ a → a < hi → lo ≤ b → b < hi → p.a20.apply a = p.a20.apply b → a = b

namespace Machine

/-- One flag of the latch by name. -/
def Flags.get (f : Flags) : FlagName → Bool
  | .cf => f.cf
  | .pf => f.pf
  | .af => f.af
  | .zf => f.zf
  | .sf => f.sf
  | .ofl => f.ofl

/-- `ZSP_N(res)` by arithmetic on the value of the result (R160, R161). -/
def Flags.ofResult {n : Nat} (f : Flags) (res : BitVec n) : Flags :=
  { f with zf := decide (res.toNat = 0), sf := decide (2 ^ (n - 1) ≤ res.toNat), pf := evenOnes res.toNat }

/-- The last two steps of R82: the flag latch, and `ip` past the instruction. -/
def State.finish (s : State) (f : Flags) : State := { s with flags := f, ip := s.nextIp }

/-- The core is about to decode an instruction: checks (1) to (5) of R376 find nothing. -/
def State.ready (s : State) : Prop :=
  s.pins.reset = false ∧ s.run = .fetching ∧ s.flags.tf = false ∧ s.acceptedIntr = none

/-- The specified-value policy of R5. -/
def State.specified (s : State) : Prop := s.cfg.undefFlagPolicy = .asSpecified

/-- The step has a next state: no fault and no refusal (R10: a model does not continue past a refusal). -/
def steps (s t : State) : Prop := step s = .next t

/-- A run of k steps without a fault or a refusal, from s to t. -/
def runs : Nat → State → State → Prop
  | 0, s, t => s = t
  | k + 1, s, t => ∃ u, steps s u ∧ runs k u t

/-- The invariant: memory is canonical (strictly rising addresses, no cell that reads as an unlisted one), every
cell lies below `MEM_SIZE` (R74), a decoded instruction has at most 15 bytes (R115), `INTA` is up only after an
interrupt was taken, which cleared IF and TF and opened a context (R375, R377). -/
def Inv (s : State) : Prop :=
  memWf s.mem ∧ (∀ c ∈ s.mem, c.1 < s.cfg.memSize) ∧ s.dec.len ≤ Config.maxInsnLen ∧
  (s.inta = true → s.flags.ifl = false ∧ s.flags.tf = false ∧ 0 < s.depth ∧ s.run = .fetching)

end Machine

end Sys2Proof
end

