-- ==== Sys2Proof/Certificates/Slice0/Obligations.lean ====
section
/-! DEFINITION. The statements about the model, one proposition each. A statement about a result says the new state
whole: the destination written, then `finish` (the flag latch, and `ip` past the instruction), so that everything else
is as before. -/

section

open Sys2Proof Sys2Proof.Config Sys2Proof.Machine

/-! ### Decoding -/

/-- Decoding an encoded well-formed instruction, whatever bytes follow, gives it back with its exact length. -/
def Obligations.DecodeOfEncode : Prop :=
  ∀ (i : Instr) (rest : List Byte), i.wf = true →
    ∃ r, decode (encode i ++ rest) = .ok (i, r) ∧ r.len = (encode i).length

/-- Twelve words written out from the encoding tables decode to the instructions they stand for (R120, R121): `ADD AL, BL`;
`INC AX`; the longest instruction of R115, a 32-bit ADD with LOCK, an override and a displacement; `MOV AL, ES:[BX]`; IMUL
with a byte immediate; SHLD; DIV; `JNE`; INT; HLT; `MOV DS, AX`; `MOV CS, AX`. -/
def Obligations.DecodeWords : Prop :=
  (decode [0x00, 0xD8]).map Prod.fst = .ok (.add (.rmReg .w8 (.reg .ax) .bx)) ∧
  (decode [0x40]).map Prod.fst = .ok (.inc (.short .o16 .ax)) ∧
  (decode [0x66, 0x2E, 0xF0, 0x81, 0x86, 0x34, 0x12, 0x78, 0x56, 0x34, 0x12]).map Prod.fst =
    .ok (.add (.rmImm (.mem ⟨some .cs, .based .bp (.d16 0x1234)⟩) (.i32 0x12345678))) ∧
  (decode [0x26, 0x8A, 0x07]).map Prod.fst = .ok (.movRegRm .w8 .ax (.mem ⟨some .es, .based .bx .none⟩)) ∧
  (decode [0x6B, 0xC3, 0xFE]).map Prod.fst = .ok (.imulRegRmImmS .o16 .ax (.reg .bx) 0xFE) ∧
  (decode [0x0F, 0xA4, 0xD8, 0x04]).map Prod.fst = .ok (.shld .o16 (.reg .ax) .bx (.imm 4)) ∧
  (decode [0xF6, 0xF3]).map Prod.fst = .ok (.div .w8 (.reg .bx)) ∧
  (decode [0x75, 0xFD]).map Prod.fst = .ok (.jcc .ne 0xFD) ∧
  (decode [0xCD, 0x21]).map Prod.fst = .ok (.int 0x21) ∧
  (decode [0xF4]).map Prod.fst = .ok .hlt ∧
  (decode [0x8E, 0xD8]).map Prod.fst = .ok (.movSregRm .ds (.reg .ax)) ∧
  (decode [0x8E, 0xC8]).map Prod.fst = .ok (.invalidMovCs 0xC8)

/-- R113: the length is the number of bytes consumed, the parts are contiguous in the order of R100, and the
decoding depends on those bytes alone. -/
def Obligations.LengthIsBytesConsumed : Prop :=
  ∀ (bs : List Byte) (i : Instr) (r : DecRegs), decode bs = .ok (i, r) →
    bs.take r.len = bs.takeWhile isPrefixByte ++ r.opcode ++ r.modrm.toList ++ r.disp ++ r.imm ∧
    r.len = (bs.takeWhile isPrefixByte).length + r.opcode.length + r.modrm.toList.length + r.disp.length +
      r.imm.length ∧
    (r.opcode.length = 1 ∨ r.opcode.length = 2) ∧
    ∀ rest, decode (bs.take r.len ++ rest) = .ok (i, r)

/-- R101, R102: order and repetition of prefixes and LOCK change no meaning, only the last segment override and the
presence of 0x66 count; REP and REPNE are refused, 0x66 is refused on a "no 66" form, 0x67 is refused (the
spec's own decisions D3, D25). That REP is the reason named where 0x66 would be refused too is the model's choice
(log 10). -/
def Obligations.PrefixEffects : Prop :=
  (∀ ps qs bs : List Byte, ps.all isPlainPrefix = true → qs.all isPlainPrefix = true →
    lastOverride ps = lastOverride qs → ((0x66 : Byte) ∈ ps ↔ (0x66 : Byte) ∈ qs) →
    (decode (ps ++ bs)).map Prod.fst = (decode (qs ++ bs)).map Prod.fst) ∧
  (∀ (ps rest : List Byte) (i : Instr), ps.all isPrefixByte = true → ((0xF2 : Byte) ∈ ps ∨ (0xF3 : Byte) ∈ ps) →
    i.wf = true → i ≠ .reserved 0x82 none → decode (ps ++ encode i ++ rest) = .error .repOnAdmitted) ∧
  (∀ (ps rest : List Byte) (i : Instr), ps.all isPlainPrefix = true → (0x66 : Byte) ∈ ps →
    i.wf = true → i.refuses66 = true → decode (ps ++ encode i ++ rest) = .error .operandSize16Only) ∧
  (∀ ps rest : List Byte, ps.all isPrefixByte = true → decode (ps ++ 0x67 :: rest) = .error .addressSize)

/-- R125: the complete list of invalid encodings, found at the ModRM byte, and InvalidOpcode for each of them
(the spec's own decisions D27, D28, D33). -/
def Obligations.InvalidEncodings : Prop :=
  (∀ (op m : Byte) (rest : List Byte),
    (∃ r, decode (op :: m :: rest) = .ok (.invalid op m, r) ∧ r.len = 2) ↔
      (op = 0x8E ∧ groupIndex m ∈ [6, 7]) ∨ (op = 0x8C ∧ groupIndex m ∈ [6, 7]) ∨
      (op = 0xFE ∧ groupIndex m ∈ [2, 3, 4, 5, 6, 7]) ∨ (op = 0xFF ∧ groupIndex m = 7)) ∧
  (∀ (op m : Byte) (rest : List Byte),
    (∃ r, decode (op :: m :: rest) = .ok (.invalidMovCs m, r) ∧ r.len = 2) ↔ op = 0x8E ∧ groupIndex m = 1) ∧
  ∀ (i : Instr) (s : State), ((∃ op m, i = .invalid op m) ∨ ∃ m, i = .invalidMovCs m) →
    (s.cfg.strictInvalid = false → s.trapOk 6 = true → exec i s = .next (s.trapped 6 s.dec.ipStart)) ∧
    (s.cfg.strictInvalid = true → exec i s = .next { s with run := .stopped .invalidOpcode })

/-- R126: the list of reserved encodings, each refused with no meaning given (the spec's own decision D27). -/
def Obligations.ReservedEncodings : Prop :=
  (∀ (op m : Byte) (rest : List Byte),
    (∃ r, decode (op :: m :: rest) = .ok (.reserved op (some m), r)) ↔
      (op ∈ [0xF6, 0xF7] ∧ groupIndex m = 1) ∨
      (op ∈ [0xC0, 0xC1, 0xD0, 0xD1, 0xD2, 0xD3] ∧ groupIndex m = 6) ∨
      (op ∈ [0xC6, 0xC7] ∧ groupIndex m ≠ 0)) ∧
  (∀ (op : Byte) (rest : List Byte), (∃ r, decode (op :: rest) = .ok (.reserved op none, r)) ↔ op = 0x82) ∧
  ∀ (op : Byte) (m : Option Byte) (s : State), exec (.reserved op m) s = .refused .reservedEncoding

/-- R127: every other opcode byte, every other second byte after 0x0F and group 5 indices 2 to 6 are refused as not
admitted, and no InvalidOpcode is raised for them (the spec's own decision D26). -/
def Obligations.NotAdmitted : Prop :=
  (∀ (op : Byte) (rest : List Byte), isPrefixByte op = false → op ≠ 0x0F → op ≠ 0x67 → op ≠ 0x82 →
    (op.toNat < 0x40 → op.toNat % 8 = 6 ∨ op.toNat % 8 = 7) →
    ¬ (0x40 ≤ op.toNat ∧ op.toNat < 0x50) → ¬ (0x70 ≤ op.toNat ∧ op.toNat < 0x82) →
    ¬ (0xB0 ≤ op.toNat ∧ op.toNat < 0xC2) → ¬ (0xD8 ≤ op.toNat ∧ op.toNat < 0xE0) →
    op ∉ [0x69, 0x6B, 0x83, 0x84, 0x85, 0x88, 0x89, 0x8A, 0x8B, 0x8C, 0x8E, 0x90, 0x9C, 0x9D, 0x9E, 0x9F, 0xA8, 0xA9,
      0xC6, 0xC7, 0xCD, 0xCF, 0xD0, 0xD1, 0xD2, 0xD3, 0xE9, 0xEB, 0xF4, 0xF5, 0xF6, 0xF7, 0xF8, 0xF9, 0xFA, 0xFB, 0xFC,
      0xFD, 0xFE, 0xFF] →
    decode (op :: rest) = .error .notAdmitted) ∧
  (∀ (b : Byte) (rest : List Byte), b ∉ [0xA4, 0xA5, 0xAC, 0xAD, 0xAF] →
    decode (0x0F :: b :: rest) = .error .notAdmitted) ∧
  (∀ (m : Byte) (rest : List Byte), groupIndex m ∈ [2, 3, 4, 5, 6] → decode (0xFF :: m :: rest) = .error .notAdmitted) ∧
  ∀ s : State, s.ready → decode s.fetchBytes = .error .notAdmitted → step s = .refused .notAdmitted

/-- R115: an instruction that would need a sixteenth byte is refused (the spec's own decision D25). -/
def Obligations.TooLongRefused : Prop :=
  ∀ (s : State) (i : Instr) (r : DecRegs) (more : List Byte), s.ready → s.fetchBytes.length = 15 →
    decode (s.fetchBytes ++ more) = .ok (i, r) → 15 < r.len → step s = .refused .instructionTooLong

/-! ### Steps -/

/-- A step runs the instruction decoded at CS:ip, in a state that has consumed one sample of the pins (the model's
form, log 5) and holds the decoder's working registers (log 12). -/
def Obligations.StepRunsDecoded : Prop :=
  ∀ (s : State) (i : Instr) (r : DecRegs), s.ready → decode s.fetchBytes = .ok (i, r) →
    step s = exec i { s with inputs := s.inputs.tail, inta := false, dec := { r with ipStart := s.ip } }

/-- R79, R88: an instruction's bytes standing in memory at CS:ip, at consecutive linear addresses (the spec's own decision
D6), are fetched and run, in a state that has consumed one sample of the pins (log 5), has `INTA` low (log 15) and holds
the decoder's working registers (log 12). -/
def Obligations.StepRunsStoredBytes : Prop :=
  ∀ (s : State) (i : Instr), s.ready → i.wf = true →
    s.inMem (lin s.seg.cs s.ip) (encode i).length = true →
    (∀ k b, (encode i)[k]? = some b → s.byteAt (s.phys (lin s.seg.cs s.ip + k)) = b) →
    ∃ r : DecRegs, r.len = (encode i).length ∧ r.ipStart = s.ip ∧
      step s = exec i { s with inputs := s.inputs.tail, inta := false, dec := r }

/-- The order of the checks of one step (R376, the spec's own decisions D30, D31; the pins' samples: log 5). -/
def Obligations.OrderOfChecks : Prop :=
  ∀ s : State,
    (s.pins.reset = true → step s = .next s.sampled.resetNow) ∧
    (s.pins.reset = false → (∃ y, s.run = .stopped y) → step s = .next s.sampled) ∧
    (s.pins.reset = false → (s.run = .fetching ∨ s.run = .halted) → s.flags.tf = true →
      step s = .refused .trapFlagSet) ∧
    (∀ n, s.pins.reset = false → (s.run = .fetching ∨ s.run = .halted) → s.flags.tf = false →
      s.acceptedIntr = some n → step s = takeInterrupt s.sampled n) ∧
    (s.pins.reset = false → s.run = .halted → s.flags.tf = false → s.acceptedIntr = none → step s = .next s.sampled)

/-- R50, R420: reset, asserted in any run state, and the state right after reset (the values are the spec's own
decisions D9 and D10; what else is kept: log 19). -/
def Obligations.ResetSetsEveryRegister : Prop :=
  (∀ s : State, s.pins.reset = true → ∃ t, step s = .next t ∧
    t.gpr = ⟨0, 0, 0, 0, 0, 0, 0, 0⟩ ∧ t.seg = ⟨0, s.cfg.entryCs, 0, 0, 0, 0⟩ ∧ t.ip = s.cfg.entryIp ∧
    (∀ n, t.flags.get n = false) ∧ t.flags.tf = false ∧ t.flags.ifl = false ∧ t.flags.df = false ∧
    t.flags.image = 0x0002 ∧ t.run = .fetching ∧ t.depth = 0 ∧ t.mem = s.mem ∧ t.cfg = s.cfg) ∧
  State.reset.gpr = ⟨0, 0, 0, 0, 0, 0, 0, 0⟩ ∧
  State.reset.seg = ⟨0, State.reset.cfg.entryCs, 0, 0, 0, 0⟩ ∧ State.reset.ip = State.reset.cfg.entryIp ∧
  State.reset.flags.image = 0x0002 ∧ State.reset.run = .fetching ∧ State.reset.depth = 0

/-- R375: an accepted interrupt enters the trap sequence with the offset of the next instruction, also out of
`Halted`, and asserts `INTA`; handlers start with interrupts masked (the spec's own decision D30; the pins' samples:
log 5; `INTA`: log 15). -/
def Obligations.InterruptTaken : Prop :=
  ∀ (s : State) (n : Byte), s.pins.reset = false → (s.run = .fetching ∨ s.run = .halted) → s.flags.tf = false →
    s.flags.ifl = true → s.pins.intr = some n → s.trapOk n = true →
    ∃ t, step s = .next t ∧ t.inta = true ∧ t.run = .fetching ∧ t.flags.ifl = false ∧ t.depth = s.depth + 1 ∧
      t.inputs = s.inputs.tail ∧ takeTrap s.sampled n s.ip = .next { t with inta := false, run := s.run }

/-- R375, R347: with IF = 0 the request line changes nothing: a running core decodes as if it were low, a halted core
stays halted: one sample of the pins is consumed (log 5), `INTA` is low (log 15), the decoder's working registers are empty
(log 12), and nothing else changes (the spec's own decisions D30, D43). -/
def Obligations.InterruptMasked : Prop :=
  ∀ (s : State) (p : Pins), s.inputs.head? = some p → s.flags.ifl = false →
    step s = step { s with inputs := { p with intr := none } :: s.inputs.tail } ∧
    (p.reset = false → s.run = .halted → s.flags.tf = false →
      step s = .next { s with inputs := s.inputs.tail, inta := false, dec := .idle })

/-- R386: for as long as `RESET` stays low, a stopped core steps and changes no state, whatever the request line
(the pins' samples: log 5). -/
def Obligations.StoppedStays : Prop :=
  ∀ (k : Nat) (s : State) (y : FatalReason), s.run = .stopped y → (∀ p ∈ s.inputs.take k, p.reset = false) →
    ∃ t, runs k s t ∧ t.run = .stopped y ∧ t.gpr = s.gpr ∧ t.seg = s.seg ∧ t.ip = s.ip ∧ t.flags = s.flags ∧
      t.depth = s.depth ∧ t.mem = s.mem ∧ t.draws = s.draws ∧ t.cfg = s.cfg ∧ t.fatalReport = s.fatalReport

/-- The invariant is kept by every step from every state that has it (its memory form: log 3). -/
def Obligations.InvKept : Prop := ∀ s t : State, Machine.Inv s → step s = .next t → Machine.Inv t

/-- The invariant holds right after reset. -/
def Obligations.InvAtReset : Prop := Machine.Inv State.reset

/-! ### Whole-machine rules -/

/-- R26: a segment register other than CS changes only by `MOV Sreg` to it, CS only by IRET and trap entry; no instruction
changes the parameters, the pins' samples (log 5), `INTA` (log 15) or the decoder's working registers (log 12). For every
encodable instruction: `MOV CS, rm` is the constructor `invalidMovCs`. -/
def Obligations.SegmentWriters : Prop :=
  ∀ (i : Instr) (s t : State) (r : SReg), i.wf = true → exec i s = .next t →
    (t.seg.get r ≠ s.seg.get r →
      (r ≠ .cs ∧ ∃ e, i = .movSregRm r e) ∨ (r = .cs ∧ (i = .iret ∨ i.canTrap = true))) ∧
    t.cfg = s.cfg ∧ t.inputs = s.inputs ∧ t.inta = s.inta ∧ t.dec = s.dec

/-- R29: the writers of each flag; IF, DF and TF under either policy, the other six under `as_specified` (the
spec's own decisions D12, D14, D15, D19, D22, D23). -/
def Obligations.FlagWriters : Prop :=
  ∀ (i : Instr) (s t : State), exec i s = .next t →
    (t.flags.ifl ≠ s.flags.ifl → i = .cli ∨ i = .sti ∨ i = .popf ∨ i = .iret ∨ i.canTrap = true) ∧
    (t.flags.df ≠ s.flags.df → i = .cld ∨ i = .std ∨ i = .popf ∨ i = .iret) ∧
    (t.flags.tf ≠ s.flags.tf → i = .popf ∨ i = .iret ∨ i.canTrap = true) ∧
    (t.flags.tf = true → s.flags.tf = false → i = .popf ∨ i = .iret) ∧
    (s.specified → ∀ n, n ∉ i.flagsWritten → t.flags.get n = s.flags.get n)

/-- R33: the depth goes up by one exactly on a trap entry, down by one only on IRET, and an instruction that changes
it has moved CS:ip through a vector or a frame. -/
def Obligations.DepthRule : Prop :=
  ∀ (i : Instr) (s t : State), exec i s = .next t →
    (t.depth = s.depth ∨ (i.canTrap = true ∧ t.depth = s.depth + 1 ∧ ∃ n ip', takeTrap s n ip' = .next t) ∨
      (i = .iret ∧ s.depth = t.depth + 1)) ∧
    (∀ n ip', takeTrap s n ip' = .next t → t.depth = s.depth + 1)

/-- R30, R31: an instruction that is no control transfer and does not trap advances `ip` by its length modulo 2^16;
only HLT halts, and only IRET at depth 0 and an invalid encoding in strict mode stop (the spec's own decisions D8, D33,
D36). -/
def Obligations.IpAdvances : Prop :=
  ∀ (i : Instr) (s t : State), exec i s = .next t →
    (i.transfers = false → t.ip = BitVec.ofNat 16 (s.dec.ipStart.toNat + s.dec.len)) ∧
    (∀ w e, (i = .div w e ∨ i = .idiv w e) → t.depth = s.depth →
      t.ip = BitVec.ofNat 16 (s.dec.ipStart.toNat + s.dec.len)) ∧
    (t.run ≠ s.run → (i = .hlt ∧ t.run = .halted) ∨
      (i = .iret ∧ s.depth = 0 ∧ t.run = .stopped .contextUnderflow) ∨
      (s.cfg.strictInvalid = true ∧ t.run = .stopped .invalidOpcode ∧
        ((∃ op m, i = .invalid op m) ∨ ∃ m, i = .invalidMovCs m)))

/-! ### Registers, flags image, memory -/

/-- R21, R22, R23: reading a view, and what a write of a view does to each bit of each cell. Registers 4 to 7 at
width 8 are bits 15:8 of cells 0 to 3. That a narrow write keeps the other bits is the spec's own decision D38. -/
def Obligations.RegisterViews : Prop :=
  ∀ (g : Gprs) (r q : Gpr) (k : Nat),
    (∀ v : DWord, ((g.write .w32 r v).cell q).getLsbD k = if q = r then v.getLsbD k else (g.cell q).getLsbD k) ∧
    (∀ v : Word, ((g.write .w16 r v).cell q).getLsbD k =
      if q = r ∧ k < 16 then v.getLsbD k else (g.cell q).getLsbD k) ∧
    (∀ v : Byte, r ∈ [.ax, .cx, .dx, .bx] → ((g.write .w8 r v).cell q).getLsbD k =
      if q = r ∧ k < 8 then v.getLsbD k else (g.cell q).getLsbD k) ∧
    (∀ v : Byte, ∀ p ∈ [(Gpr.sp, Gpr.ax), (.bp, .cx), (.si, .dx), (.di, .bx)], ((g.write .w8 p.1 v).cell q).getLsbD k =
      if q = p.2 ∧ 8 ≤ k ∧ k < 16 then v.getLsbD (k - 8) else (g.cell q).getLsbD k) ∧
    (∀ w, k < w.bits → (g.read w r).getLsbD k =
      (g.cell (viewCell w r)).getLsbD (if w = .w8 ∧ r ∈ [Gpr.sp, .bp, .si, .di] then k + 8 else k)) ∧
    (∀ (w : Width) (v : BitVec w.bits), (g.write w r v).read w r = v)

/-- R28: the packed image bit by bit, and what writing an image, or its low byte, copies and ignores (the
spec's own decision D11). -/
def Obligations.FlagsImage : Prop :=
  (∀ (f : Flags) (k : Nat), f.image.getLsbD k =
    (if k = 0 then f.cf else if k = 1 then true else if k = 2 then f.pf else if k = 4 then f.af else
     if k = 6 then f.zf else if k = 7 then f.sf else if k = 8 then f.tf else if k = 9 then f.ifl else
     if k = 10 then f.df else if k = 11 then f.ofl else false)) ∧
  (∀ f : Flags, Flags.ofImage f.image = f) ∧
  (∀ v : Word, (Flags.ofImage v).image = (v &&& 0x0FD5) ||| 0x0002) ∧
  (∀ (f : Flags) (b : Byte), (f.setLow b).image = (f.image &&& 0xFF00) ||| ((b &&& 0xD5) ||| 0x02).setWidth 16)

/-- R161: parity is even parity of the low byte at every width, and the nibble table composed gives it (the table
is the spec's own derivation). -/
def Obligations.ParityOfLowByte : Prop :=
  (∀ (n : Nat) (res : BitVec n), evenParity res = evenOnes res.toNat) ∧
  (∀ b : Byte, parityByTable b = evenOnes b.toNat) ∧
  parityTable.length = 16 ∧ ∀ i, i < 16 → parityTable.getD i false = evenOnes i

/-- R77, R78: a store is read back byte by byte, lowest address least significant; every byte outside it reads as
before; a load of 1, 2 or 4 bytes is the sum of its bytes; the canonical form of memory is kept (the spec's own decisions D4, D6; the form:
log 3). -/
def Obligations.StoreThenLoad : Prop :=
  ∀ (s : State) (a : Nat) (w : Width) (v : BitVec w.bits), memWf s.mem → s.cfg.injOn a (a + 4) →
    (s.store a w v).load a w = v ∧
    (∀ k, k < w.bytes → (s.store a w v).byteAt (s.phys (a + k)) = BitVec.ofNat 8 (v.toNat / 2 ^ (8 * k))) ∧
    (∀ p, (∀ k, k < w.bytes → p ≠ s.phys (a + k)) → (s.store a w v).byteAt p = s.byteAt p) ∧
    (s.load a w).toNat = ((List.range w.bytes).map (fun k => (s.byteAt (s.phys (a + k))).toNat * 2 ^ (8 * k))).sum ∧
    memWf (s.store a w v).mem

/-- R72, R105, R106, R107: the linear address of a memory operand (16-bit addressing only: the spec's own decision
D3). -/
def Obligations.EffectiveAddress : Prop :=
  ∀ (s : State) (o : Option SReg) (b : Base) (d : Disp) (disp : Word),
    let bx := (s.gpr.read .w16 .bx).toNat
    let bp := (s.gpr.read .w16 .bp).toNat
    let si := (s.gpr.read .w16 .si).toNat
    let di := (s.gpr.read .w16 .di).toNat
    let dv : Nat := match d with
      | .none => 0
      | .d8 x => if x.toNat < 128 then x.toNat else x.toNat + 0xFF00
      | .d16 x => x.toNat
    let rv : Nat := match b with
      | .bxsi => bx + si
      | .bxdi => bx + di
      | .bpsi => bp + si
      | .bpdi => bp + di
      | .si => si
      | .di => di
      | .bp => bp
      | .bx => bx
    s.linOf ⟨o, .based b d⟩ =
      (s.seg.get (o.getD (if b ∈ [.bpsi, .bpdi, .bp] then .ss else .ds))).toNat * 16 + (rv + dv) % 2 ^ 16 ∧
    s.linOf ⟨o, .direct disp⟩ = (s.seg.get (o.getD .ds)).toNat * 16 + disp.toNat ∧
    s.linOf ⟨o, .based b d⟩ ≤ 0x10FFEF

/-- R74: an access that is not wholly inside memory stops the machine, with no next state, whatever makes it: the fetch of
an instruction (R79; its bytes are read up to the first one outside), a memory operand, the stack of PUSHF, POPF and IRET,
and the stack or the vector of a trap entry, be it by INT n, DivisionFault, InvalidOpcode or the external interrupt. The
first three clauses say which requests those checks are about (the spec's own decisions D6, D7; the fault's form: log 8; a trap entry's requests checked together: log 20). -/
def Obligations.OutOfMemoryStops : Prop :=
  (∀ (s : State) (d : Word),
    s.slotOk d = true ↔ ∀ k, k < 2 → s.phys (lin s.seg.ss (s.sp + d) + k) < s.cfg.memSize) ∧
  (∀ (s : State) (n : Byte), s.trapOk n = true ↔
    (∀ d ∈ [(2 : Word), 4, 6], ∀ k, k < 2 → s.phys (lin s.seg.ss (s.sp - d) + k) < s.cfg.memSize) ∧
    ∀ k, k < 4 → s.phys (4 * n.toNat + k) < s.cfg.memSize) ∧
  (∀ s : State, s.iretOk = true ↔
    ∀ d ∈ [(0 : Word), 2, 4], ∀ k, k < 2 → s.phys (lin s.seg.ss (s.sp + d) + k) < s.cfg.memSize) ∧
  (∀ (s : State) (i : Instr) (k : Nat), s.ready → i.wf = true → k < (encode i).length →
    (∀ j b, j < k → (encode i)[j]? = some b → s.phys (lin s.seg.cs s.ip + j) < s.cfg.memSize ∧
      s.byteAt (s.phys (lin s.seg.cs s.ip + j)) = b) →
    s.cfg.memSize ≤ s.phys (lin s.seg.cs s.ip + k) → step s = .fault .outOfMemory) ∧
  (∀ s : State, s.ready → decode s.fetchBytes = .error .truncated →
    s.cfg.memSize ≤ s.phys (lin s.seg.cs s.ip + s.fetchBytes.length) → s.fetchBytes.length < 15 →
    step s = .fault .outOfMemory) ∧
  (∀ (i : Instr) (s : State) (w : Width) (m : MemRef) (k : Nat), i.access = some (w, .mem m) → k < w.bytes →
    s.cfg.memSize ≤ s.phys (s.linOf m + k) → exec i s = .fault .outOfMemory) ∧
  (∀ s : State, s.slotOk (-2) = false → exec .pushf s = .fault .outOfMemory) ∧
  (∀ s : State, s.slotOk 0 = false → exec .popf s = .fault .outOfMemory) ∧
  (∀ s : State, s.depth ≠ 0 → s.iretOk = false → exec .iret s = .fault .outOfMemory) ∧
  (∀ (s : State) (n : Byte), s.trapOk n = false → exec (.int n) s = .fault .outOfMemory) ∧
  (∀ (s : State) (w : Width) (e : Rm), s.trapOk 0 = false → s.rmOk w e = true →
    ((s.readRm w e).toNat = 0 ∨ 2 ^ w.bits ≤ (s.dividend w).toNat / (s.readRm w e).toNat →
      exec (.div w e) s = .fault .outOfMemory) ∧
    ((s.readRm w e).toNat = 0 ∨ fitsSigned w.bits ((s.dividend w).toInt.tdiv (s.readRm w e).toInt) = false →
      exec (.idiv w e) s = .fault .outOfMemory)) ∧
  (∀ (s : State) (i : Instr), s.trapOk 6 = false → s.cfg.strictInvalid = false →
    ((∃ op m, i = .invalid op m) ∨ ∃ m, i = .invalidMovCs m) → exec i s = .fault .outOfMemory) ∧
  (∀ (s : State) (n : Byte), s.pins.reset = false → (s.run = .fetching ∨ s.run = .halted) → s.flags.tf = false →
    s.acceptedIntr = some n → s.trapOk n = false → step s = .fault .outOfMemory)

/-- R108, R109, R110: what the words of the result statements stand for. Reading, writing and checking an `E` operand, a
register or memory at its effective address (R107); the width, destination and source value of each two-operand form and
of TEST, whose accumulator is AL, AX or EAX and whose short immediate is sign-extended; the count of each shift form, the
immediate byte as it is, 1, or the whole of CL. -/
def Obligations.OperandForms : Prop :=
  ∀ s : State,
    (∀ (w : Width) (r : Gpr) (v : BitVec w.bits), s.readRm w (.reg r) = s.gpr.read w r ∧
      s.writeRm w (.reg r) v = { s with gpr := s.gpr.write w r v } ∧ s.rmOk w (.reg r) = true) ∧
    (∀ (w : Width) (m : MemRef) (v : BitVec w.bits), s.readRm w (.mem m) = s.load (s.linOf m) w ∧
      s.writeRm w (.mem m) v = s.store (s.linOf m) w v ∧
      (s.rmOk w (.mem m) = true ↔ ∀ k, k < w.bytes → s.phys (s.linOf m + k) < s.cfg.memSize)) ∧
    (∀ (w : Width) (e : Rm) (g : Gpr), binWidth (.rmReg w e g) = w ∧ binDst (.rmReg w e g) = e ∧
      s.binSrc (.rmReg w e g) = s.gpr.read w g ∧ s.binOk (.rmReg w e g) = s.rmOk w e) ∧
    (∀ (w : Width) (g : Gpr) (e : Rm), binWidth (.regRm w g e) = w ∧ binDst (.regRm w g e) = .reg g ∧
      s.binSrc (.regRm w g e) = s.readRm w e ∧ s.binOk (.regRm w g e) = s.rmOk w e) ∧
    (∀ i : Imm, binDst (.accImm i) = .reg .ax ∧ s.binOk (.accImm i) = true) ∧
    (∀ (e : Rm) (i : Imm), binDst (.rmImm e i) = e ∧ s.binOk (.rmImm e i) = s.rmOk (binWidth (.rmImm e i)) e) ∧
    (∀ (e : Rm) (v : Byte), binWidth (.accImm (.i8 v)) = .w8 ∧ (s.binSrc (.accImm (.i8 v))).toNat = v.toNat ∧
      binWidth (.rmImm e (.i8 v)) = .w8 ∧ (s.binSrc (.rmImm e (.i8 v))).toNat = v.toNat) ∧
    (∀ (e : Rm) (v : Word), binWidth (.accImm (.i16 v)) = .w16 ∧ (s.binSrc (.accImm (.i16 v))).toNat = v.toNat ∧
      binWidth (.rmImm e (.i16 v)) = .w16 ∧ (s.binSrc (.rmImm e (.i16 v))).toNat = v.toNat) ∧
    (∀ (e : Rm) (v : DWord), binWidth (.accImm (.i32 v)) = .w32 ∧ (s.binSrc (.accImm (.i32 v))).toNat = v.toNat ∧
      binWidth (.rmImm e (.i32 v)) = .w32 ∧ (s.binSrc (.rmImm e (.i32 v))).toNat = v.toNat) ∧
    (∀ (o : OpSize) (e : Rm) (v : Byte), binWidth (.rmImmS o e v) = o.width ∧ binDst (.rmImmS o e v) = e ∧
      (s.binSrc (.rmImmS o e v)).toInt = v.toInt ∧ s.binOk (.rmImmS o e v) = s.rmOk o.width e) ∧
    OpSize.o16.width = .w16 ∧ OpSize.o32.width = .w32 ∧
    (∀ (w : Width) (e : Rm) (g : Gpr), testBin (.rmReg w e g) = .rmReg w e g) ∧
    (∀ i : Imm, testBin (.accImm i) = .accImm i) ∧ (∀ (e : Rm) (i : Imm), testBin (.rmImm e i) = .rmImm e i) ∧
    (∀ c : Byte, s.countVal (.imm c) = c ∧ s.dcountVal (.imm c) = c) ∧ s.countVal .one = 1 ∧
    (s.countVal .cl).toNat = (s.gpr.cell .cx).toNat % 2 ^ 8 ∧ (s.dcountVal .cl).toNat = (s.gpr.cell .cx).toNat % 2 ^ 8

/-! ### Add and subtract -/

/-- R160, R162: ADD and ADC, result and all six flags by arithmetic, in every form (the spec's own decision D24 and the
readings it derives). -/
def Obligations.AddAdcResult : Prop :=
  ∀ (f : BinForm) (s : State), s.binOk f = true →
    let n := (binWidth f).bits
    let a := s.readRm (binWidth f) (binDst f)
    let b := s.binSrc f
    let outcome (c : Bool) : State :=
      let sum := a.toNat + b.toNat + c.toNat
      let res := BitVec.ofNat n sum
      (s.writeRm (binWidth f) (binDst f) res).finish
        { s.flags.ofResult res with
          cf := decide (2 ^ n ≤ sum)
          af := decide (15 < a.toNat % 16 + b.toNat % 16 + c.toNat)
          ofl := !fitsSigned n (a.toInt + b.toInt + c.toNat) }
    exec (.add f) s = .next (outcome false) ∧ exec (.adc f) s = .next (outcome s.flags.cf)

/-- R160, R163: SUB and SBB, result and all six flags by arithmetic, in every form (the spec's own decision D24 and the
readings it derives). -/
def Obligations.SubSbbResult : Prop :=
  ∀ (f : BinForm) (s : State), s.binOk f = true →
    let n := (binWidth f).bits
    let a := s.readRm (binWidth f) (binDst f)
    let b := s.binSrc f
    let outcome (c : Bool) : State :=
      let res := BitVec.ofInt n ((a.toNat : Int) - b.toNat - c.toNat)
      (s.writeRm (binWidth f) (binDst f) res).finish
        { s.flags.ofResult res with
          cf := decide (a.toNat < b.toNat + c.toNat)
          af := decide (a.toNat % 16 < b.toNat % 16 + c.toNat)
          ofl := !fitsSigned n (a.toInt - b.toInt - c.toNat) }
    exec (.sub f) s = .next (outcome false) ∧ exec (.sbb f) s = .next (outcome s.flags.cf)

/-- R170, R173: CMP writes the flags of the subtraction and nothing else; NEG subtracts from 0 (the spec's own decision
D41). -/
def Obligations.CmpNegResult : Prop :=
  (∀ (f : BinForm) (s : State), s.binOk f = true →
    let n := (binWidth f).bits
    let a := s.readRm (binWidth f) (binDst f)
    let b := s.binSrc f
    exec (.cmp f) s = .next (s.finish
      { s.flags.ofResult (BitVec.ofInt n ((a.toNat : Int) - b.toNat)) with
        cf := decide (a.toNat < b.toNat)
        af := decide (a.toNat % 16 < b.toNat % 16)
        ofl := !fitsSigned n (a.toInt - b.toInt) })) ∧
  (∀ (w : Width) (e : Rm) (s : State), s.rmOk w e = true →
    let a := s.readRm w e
    let res := BitVec.ofInt w.bits (-(a.toNat : Int))
    exec (.neg w e) s = .next ((s.writeRm w e res).finish
      { s.flags.ofResult res with
        cf := decide (a.toNat ≠ 0)
        af := decide (a.toNat % 16 ≠ 0)
        ofl := decide (a.toNat = 2 ^ (w.bits - 1)) }))

/-- R164, R165: INC and DEC in the short and the r/m forms; Carry is unchanged (the spec's own decision D13). -/
def Obligations.IncDecResult : Prop :=
  ∀ (f : IncForm) (w : Width) (e : Rm) (s : State),
    (f = .rm w e ∨ ∃ o r, f = .short o r ∧ w = o.width ∧ e = .reg r) → s.rmOk w e = true →
    let a := s.readRm w e
    let up := BitVec.ofNat w.bits (a.toNat + 1)
    let down := BitVec.ofInt w.bits ((a.toNat : Int) - 1)
    exec (.inc f) s = .next ((s.writeRm w e up).finish
      { s.flags.ofResult up with
        af := decide (a.toNat % 16 = 15)
        ofl := decide (a.toNat = 2 ^ (w.bits - 1) - 1) }) ∧
    exec (.dec f) s = .next ((s.writeRm w e down).finish
      { s.flags.ofResult down with
        af := decide (a.toNat % 16 = 0)
        ofl := decide (a.toNat = 2 ^ (w.bits - 1)) })

/-! ### Logic -/

/-- R200: AND, OR, XOR bit by bit; Carry and Overflow cleared, ZF SF PF from the result, Auxiliary unchanged under
`as_specified` and free under `draw` (U4; the spec's own decision D12; the draw: log 6). -/
def Obligations.AndOrXorResult : Prop :=
  ∀ (f : BinForm) (s : State), s.binOk f = true →
    let a := s.readRm (binWidth f) (binDst f)
    let b := s.binSrc f
    ∀ p ∈ [(Instr.and f, a &&& b), (Instr.or f, a ||| b), (Instr.xor f, a ^^^ b)],
      ∃ (x : Bool) (k : Nat), (s.specified → x = s.flags.af ∧ k = s.draws) ∧
        exec p.1 s = .next { (s.writeRm (binWidth f) (binDst f) p.2).finish
          { s.flags.ofResult p.2 with cf := false, ofl := false, af := x } with draws := k }

/-- R204, R205: TEST writes the flags of AND and no operand; NOT complements and writes no flag (the spec's own
decision D41; the draw: log 6). -/
def Obligations.TestNotResult : Prop :=
  (∀ (f : TestForm) (s : State), s.binOk (testBin f) = true →
    let res := s.readRm (binWidth (testBin f)) (binDst (testBin f)) &&& s.binSrc (testBin f)
    ∃ (x : Bool) (k : Nat), (s.specified → x = s.flags.af ∧ k = s.draws) ∧
      exec (.test f) s = .next { s.finish
        { s.flags.ofResult res with cf := false, ofl := false, af := x } with draws := k }) ∧
  (∀ (w : Width) (e : Rm) (s : State), s.rmOk w e = true →
    exec (.not w e) s =
      .next ((s.writeRm w e (BitVec.ofNat w.bits (2 ^ w.bits - 1 - (s.readRm w e).toNat))).finish s.flags))

/-! ### Multiply and divide -/

/-- R220, R227: MUL. The product by arithmetic in AX, DX:AX or EDX:EAX; ZF and SF from the low byte only at width 8,
else from the whole product (the spec's own decisions D14, D17; the draw: log 6). -/
def Obligations.MulResult : Prop :=
  ∀ (w : Width) (e : Rm) (s : State), s.rmOk w e = true →
    let p := (s.gpr.read w .ax).toNat * (s.readRm w e).toNat
    let full : Flags := match w with
      | .w8 => s.flags.ofResult (BitVec.ofNat 8 p)
      | .w16 => s.flags.ofResult (BitVec.ofNat 32 p)
      | .w32 => s.flags.ofResult (BitVec.ofNat 64 p)
    let g : Gprs := match w with
      | .w8 => s.gpr.write .w16 .ax (BitVec.ofNat 16 p)
      | .w16 => (s.gpr.write .w16 .ax (BitVec.ofNat 16 p)).write .w16 .dx (BitVec.ofNat 16 (p / 2 ^ 16))
      | .w32 => (s.gpr.write .w32 .ax (BitVec.ofNat 32 p)).write .w32 .dx (BitVec.ofNat 32 (p / 2 ^ 32))
    ∃ (fl : Flags) (k : Nat), exec (.mul w e) s = .next { ({ s with gpr := g } : State).finish fl with draws := k } ∧
      fl.cf = decide (2 ^ w.bits ≤ p) ∧ fl.ofl = decide (2 ^ w.bits ≤ p) ∧
      fl.ifl = s.flags.ifl ∧ fl.df = s.flags.df ∧ fl.tf = s.flags.tf ∧
      (s.specified → fl.zf = full.zf ∧ fl.sf = full.sf ∧ fl.pf = full.pf ∧ fl.af = s.flags.af ∧ k = s.draws)

/-- R221, R228: IMUL with one operand: the exact signed product; CF and OF say that it does not fit N bits (the
spec's own decision D14; the draw: log 6). -/
def Obligations.ImulOneOperandResult : Prop :=
  ∀ (w : Width) (e : Rm) (s : State), s.rmOk w e = true →
    let p : Int := (s.gpr.read w .ax).toInt * (s.readRm w e).toInt
    let g : Gprs := match w with
      | .w8 => s.gpr.write .w16 .ax (BitVec.ofInt 16 p)
      | .w16 => (s.gpr.write .w16 .ax (BitVec.ofInt 16 p)).write .w16 .dx (BitVec.ofInt 16 (p / 2 ^ 16))
      | .w32 => (s.gpr.write .w32 .ax (BitVec.ofInt 32 p)).write .w32 .dx (BitVec.ofInt 32 (p / 2 ^ 32))
    ∃ (fl : Flags) (k : Nat), exec (.imul w e) s = .next { ({ s with gpr := g } : State).finish fl with draws := k } ∧
      fl.cf = !fitsSigned w.bits p ∧ fl.ofl = !fitsSigned w.bits p ∧
      fl.ifl = s.flags.ifl ∧ fl.df = s.flags.df ∧ fl.tf = s.flags.tf ∧
      (s.specified → fl = { s.flags with cf := fl.cf, ofl := fl.ofl } ∧ k = s.draws)

/-- R229: IMUL with two and three operands: the low N bits of the signed product into the register (the spec's
own decision D14; the draw: log 6). -/
def Obligations.ImulIntoRegisterResult : Prop :=
  ∀ (o : OpSize) (w : Width) (g : Gpr) (e : Rm) (s : State), s.rmOk w e = true →
    let outcome (i : Instr) (a b : Int) : Prop :=
      ∃ (fl : Flags) (k : Nat),
        exec i s = .next { ({ s with gpr := s.gpr.write w g (BitVec.ofInt w.bits (a * b)) } : State).finish fl with
          draws := k } ∧
        fl.cf = !fitsSigned w.bits (a * b) ∧ fl.ofl = !fitsSigned w.bits (a * b) ∧
        fl.ifl = s.flags.ifl ∧ fl.df = s.flags.df ∧ fl.tf = s.flags.tf ∧
        (s.specified → fl = { s.flags with cf := fl.cf, ofl := fl.ofl } ∧ k = s.draws)
    (w = o.width → outcome (.imulRegRm o g e) (s.gpr.read w g).toInt (s.readRm w e).toInt) ∧
    (∀ v : Word, w = .w16 → outcome (.imulRegRmImm g e (.i16 v)) (s.readRm w e).toInt v.toInt) ∧
    (∀ v : DWord, w = .w32 → outcome (.imulRegRmImm g e (.i32 v)) (s.readRm w e).toInt v.toInt) ∧
    (∀ v : Byte, w = o.width → outcome (.imulRegRmImmS o g e v) (s.readRm w e).toInt v.toInt)

/-- R222, R224, R230: DIV. Quotient and remainder of unsigned division when it does not fault; DivisionFault, with
nothing written before the trap entry with vector 0 and the offset of the DIV itself, exactly when the divisor is 0
or the quotient needs more than N bits (the spec's own decisions D15, D28; the draw: log 6). -/
def Obligations.DivResult : Prop :=
  ∀ (w : Width) (e : Rm) (s : State), s.rmOk w e = true →
    let a : Nat := match w with
      | .w8 => (s.gpr.read .w16 .ax).toNat
      | .w16 => (s.gpr.read .w16 .dx).toNat * 2 ^ 16 + (s.gpr.read .w16 .ax).toNat
      | .w32 => (s.gpr.read .w32 .dx).toNat * 2 ^ 32 + (s.gpr.read .w32 .ax).toNat
    let b := (s.readRm w e).toNat
    let q := BitVec.ofNat w.bits (a / b)
    let r := BitVec.ofNat w.bits (a % b)
    let g := (s.gpr.write w .ax q).write w (if w = .w8 then .sp else .dx) r
    (b ≠ 0 → a / b < 2 ^ w.bits → ∃ (fl : Flags) (k : Nat),
      exec (.div w e) s = .next { ({ s with gpr := g } : State).finish fl with draws := k } ∧
      fl.ifl = s.flags.ifl ∧ fl.df = s.flags.df ∧ fl.tf = s.flags.tf ∧
      (s.specified → fl = s.flags ∧ k = s.draws)) ∧
    ((b = 0 ∨ 2 ^ w.bits ≤ a / b) → exec (.div w e) s = takeTrap s 0 s.dec.ipStart)

/-- R223, R224, R231: IDIV. Division truncated toward zero, the remainder with the sign of the dividend;
DivisionFault exactly when the divisor is 0 or the quotient leaves the signed range (the spec's own decisions
D15, D16, D28; the draw: log 6). -/
def Obligations.IdivResult : Prop :=
  ∀ (w : Width) (e : Rm) (s : State), s.rmOk w e = true →
    let a : Int := match w with
      | .w8 => (s.gpr.read .w16 .ax).toInt
      | .w16 => (s.gpr.read .w16 .dx).toInt * 2 ^ 16 + (s.gpr.read .w16 .ax).toNat
      | .w32 => (s.gpr.read .w32 .dx).toInt * 2 ^ 32 + (s.gpr.read .w32 .ax).toNat
    let b := (s.readRm w e).toInt
    let q := BitVec.ofInt w.bits (a.tdiv b)
    let r := BitVec.ofInt w.bits (a.tmod b)
    let g := (s.gpr.write w .ax q).write w (if w = .w8 then .sp else .dx) r
    (b ≠ 0 → fitsSigned w.bits (a.tdiv b) = true → ∃ (fl : Flags) (k : Nat),
      exec (.idiv w e) s = .next { ({ s with gpr := g } : State).finish fl with draws := k } ∧
      fl.ifl = s.flags.ifl ∧ fl.df = s.flags.df ∧ fl.tf = s.flags.tf ∧
      (s.specified → fl = s.flags ∧ k = s.draws)) ∧
    ((b = 0 ∨ fitsSigned w.bits (a.tdiv b) = false) → exec (.idiv w e) s = takeTrap s 0 s.dec.ipStart)

/-! ### Rotates and shifts -/

/-- R250, R251, R252: ROL and ROR by the count masked to 5 bits and reduced modulo N, when that is not 0 (the
spec's own decisions D21, D22; the draw: log 6). -/
def Obligations.RolRorResult : Prop :=
  ∀ (w : Width) (e : Rm) (k : Count) (s : State), s.rmOk w e = true →
    let n := w.bits
    let c := (s.countVal k).toNat % 32 % n
    let v := s.readRm w e
    let left := v.rotateLeft c
    let right := v.rotateRight c
    c ≠ 0 →
    (∃ (x : Bool) (d : Nat),
      (s.specified ∨ c = 1 → x = (match s.cfg.rotLeftOf with
        | .top2 => left.getLsbD (n - 1) ^^ left.getLsbD (n - 2)
        | .msbXorCf => left.getLsbD (n - 1) ^^ left.getLsbD 0) ∧ d = s.draws) ∧
      exec (.rol w e k) s = .next { (s.writeRm w e left).finish
        { s.flags with cf := left.getLsbD 0, ofl := x } with draws := d }) ∧
    (∃ (x : Bool) (d : Nat),
      (s.specified ∨ c = 1 → x = (right.getLsbD (n - 1) ^^ right.getLsbD (n - 2)) ∧ d = s.draws) ∧
      exec (.ror w e k) s = .next { (s.writeRm w e right).finish
        { s.flags with cf := right.getLsbD (n - 1), ofl := x } with draws := d })

/-- R250, R253, R254: RCL and RCR rotate the (N+1)-bit value of Carry and operand by the count reduced modulo N+1 (the
spec's own decisions D21, D22; the draw: log 6). -/
def Obligations.RclRcrResult : Prop :=
  ∀ (w : Width) (e : Rm) (k : Count) (s : State), s.rmOk w e = true →
    let n := w.bits
    let c := (s.countVal k).toNat % 32 % (n + 1)
    let x0 := BitVec.cons s.flags.cf (s.readRm w e)
    let left := x0.rotateLeft c
    let right := x0.rotateRight c
    c ≠ 0 →
    (∃ (x : Bool) (d : Nat),
      (s.specified ∨ c = 1 → x = (match s.cfg.rotLeftOf with
        | .top2 => left.getLsbD (n - 1) ^^ left.getLsbD (n - 2)
        | .msbXorCf => left.getLsbD (n - 1) ^^ left.getLsbD n) ∧ d = s.draws) ∧
      exec (.rcl w e k) s = .next { (s.writeRm w e (left.setWidth n)).finish
        { s.flags with cf := left.getLsbD n, ofl := x } with draws := d }) ∧
    (∃ (x : Bool) (d : Nat),
      (s.specified ∨ c = 1 → x = (right.getLsbD (n - 1) ^^ right.getLsbD (n - 2)) ∧ d = s.draws) ∧
      exec (.rcr w e k) s = .next { (s.writeRm w e (right.setWidth n)).finish
        { s.flags with cf := right.getLsbD n, ofl := x } with draws := d })

/-- R255, R256, R257: SHL and SHR by the count masked to 5 bits, when that is not 0; counts from N to 31 shift every
bit out (the spec's own decisions D18, D19, D20; the draw: log 6). -/
def Obligations.ShlShrResult : Prop :=
  ∀ (w : Width) (e : Rm) (k : Count) (s : State), s.rmOk w e = true →
    let n := w.bits
    let c := (s.countVal k).toNat % 32
    let v := s.readRm w e
    let left := BitVec.ofNat n (v.toNat * 2 ^ c)
    let right := BitVec.ofNat n (v.toNat / 2 ^ c)
    let out : Bool := decide (c ≤ n) && v.getLsbD (n - c)
    c ≠ 0 →
    (∃ (x y : Bool) (d : Nat),
      (s.specified → x = s.flags.af ∧ d = s.draws) ∧ (s.specified ∨ c = 1 → y = (out ^^ left.getLsbD (n - 1))) ∧
      exec (.shl w e k) s = .next { (s.writeRm w e left).finish
        { s.flags.ofResult left with cf := out, ofl := y, af := x } with draws := d }) ∧
    (∃ (x y : Bool) (d : Nat),
      (s.specified → x = s.flags.af ∧ d = s.draws) ∧ (s.specified ∨ c = 1 → y = v.getLsbD (n - 1)) ∧
      exec (.shr w e k) s = .next { (s.writeRm w e right).finish
        { s.flags.ofResult right with cf := v.getLsbD (c - 1), ofl := y, af := x } with draws := d })

/-- R255, R258: SAR divides the signed operand by 2^c rounding down; Overflow is false; Carry is bit c-1 of the
sign-extended operand (the spec's own decisions D18, D19, D20; the draw: log 6). -/
def Obligations.SarResult : Prop :=
  ∀ (w : Width) (e : Rm) (k : Count) (s : State), s.rmOk w e = true →
    let n := w.bits
    let c := (s.countVal k).toNat % 32
    let v := s.readRm w e
    let res := BitVec.ofInt n (v.toInt.fdiv (2 ^ c))
    c ≠ 0 →
    ∃ (x : Bool) (d : Nat), (s.specified → x = s.flags.af ∧ d = s.draws) ∧
      exec (.sar w e k) s = .next { (s.writeRm w e res).finish
        { s.flags.ofResult res with
          cf := if c ≤ n then v.getLsbD (c - 1) else v.getLsbD (n - 1)
          ofl := false
          af := x } with draws := d }

/-- R259, R270: SHLD and SHRD, for counts up to N the destination filled from the source, for larger counts (16-bit
forms only) the source shifted in a second time (the spec's own decision D23; the draw: log 6). -/
def Obligations.ShldShrdResult : Prop :=
  ∀ (o : OpSize) (e : Rm) (g : Gpr) (k : DCount) (s : State), s.rmOk o.width e = true →
    let n := o.width.bits
    let c := (s.dcountVal k).toNat % 32
    let d := s.readRm o.width e
    let v := s.gpr.read o.width g
    let left := if c ≤ n then (d <<< c) ||| (v >>> (n - c)) else (v <<< (c - n)) ||| (v >>> (2 * n - c))
    let right := if c ≤ n then (d >>> c) ||| (v <<< (n - c)) else (v >>> (c - n)) ||| (v <<< (2 * n - c))
    c ≠ 0 →
    (∃ (x : Bool) (q : Nat), (s.specified → x = s.flags.af ∧ q = s.draws) ∧
      exec (.shld o e g k) s = .next { (s.writeRm o.width e left).finish
        { s.flags.ofResult left with
          cf := if c ≤ n then d.getLsbD (n - c) else v.getLsbD (2 * n - c)
          ofl := left.getLsbD (n - 1) ^^ d.getLsbD (n - 1)
          af := x } with draws := q }) ∧
    (∃ (x : Bool) (q : Nat), (s.specified → x = s.flags.af ∧ q = s.draws) ∧
      exec (.shrd o e g k) s = .next { (s.writeRm o.width e right).finish
        { s.flags.ofResult right with
          cf := if c ≤ n then d.getLsbD (c - 1) else v.getLsbD (c - n - 1)
          ofl := right.getLsbD (n - 1) ^^ d.getLsbD (n - 1)
          af := x } with draws := q })

/-- R250, R255: a reduced count of 0 writes the operand back unchanged and leaves every flag untouched, under either
policy (log 9); that the operand is written back is the spec's own decision D18. -/
def Obligations.ReducedCountZero : Prop :=
  (∀ (w : Width) (e : Rm) (k : Count) (s : State), s.rmOk w e = true →
    let m := (s.countVal k).toNat % 32
    let same : Result := .next ((s.writeRm w e (s.readRm w e)).finish s.flags)
    (m % w.bits = 0 → exec (.rol w e k) s = same ∧ exec (.ror w e k) s = same) ∧
    (m % (w.bits + 1) = 0 → exec (.rcl w e k) s = same ∧ exec (.rcr w e k) s = same) ∧
    (m = 0 → exec (.shl w e k) s = same ∧ exec (.shr w e k) s = same ∧ exec (.sar w e k) s = same)) ∧
  (∀ (o : OpSize) (e : Rm) (g : Gpr) (k : DCount) (s : State), s.rmOk o.width e = true →
    (s.dcountVal k).toNat % 32 = 0 →
    let same : Result := .next ((s.writeRm o.width e (s.readRm o.width e)).finish s.flags)
    exec (.shld o e g k) s = same ∧ exec (.shrd o e g k) s = same)

/-! ### Moves and flag access -/

/-- R300, R301, R302: MOV between registers, memory and immediates writes the destination and no flag. -/
def Obligations.MovResult : Prop :=
  (∀ (w : Width) (e : Rm) (g : Gpr) (s : State), s.rmOk w e = true →
    exec (.movRmReg w e g) s = .next ((s.writeRm w e (s.gpr.read w g)).finish s.flags) ∧
    exec (.movRegRm w g e) s = .next (({ s with gpr := s.gpr.write w g (s.readRm w e) } : State).finish s.flags)) ∧
  (∀ (g : Gpr) (v : Byte) (s : State),
    exec (.movRegImm g (.i8 v)) s = .next (({ s with gpr := s.gpr.write .w8 g v } : State).finish s.flags)) ∧
  (∀ (g : Gpr) (v : Word) (s : State),
    exec (.movRegImm g (.i16 v)) s = .next (({ s with gpr := s.gpr.write .w16 g v } : State).finish s.flags)) ∧
  (∀ (g : Gpr) (v : DWord) (s : State),
    exec (.movRegImm g (.i32 v)) s = .next (({ s with gpr := s.gpr.write .w32 g v } : State).finish s.flags)) ∧
  (∀ (e : Rm) (v : Byte) (s : State), s.rmOk .w8 e = true →
    exec (.movRmImm e (.i8 v)) s = .next ((s.writeRm .w8 e v).finish s.flags)) ∧
  (∀ (e : Rm) (v : Word) (s : State), s.rmOk .w16 e = true →
    exec (.movRmImm e (.i16 v)) s = .next ((s.writeRm .w16 e v).finish s.flags)) ∧
  (∀ (e : Rm) (v : DWord) (s : State), s.rmOk .w32 e = true →
    exec (.movRmImm e (.i32 v)) s = .next ((s.writeRm .w32 e v).finish s.flags))

/-- R303, R304, R82: MOV from a segment register, whichever of the six, completes with its 16 bits in the operand; MOV to a
segment register other than CS completes with the operand's 16 bits in that register alone; both move `ip` past the
instruction and change nothing else. `MOV CS, rm` raises InvalidOpcode (InvalidEncodings). -/
def Obligations.MovSegmentResult : Prop :=
  (∀ (r : SReg) (e : Rm) (s : State), s.rmOk .w16 e = true →
    exec (.movRmSreg e r) s = .next ((s.writeRm .w16 e (s.seg.get r)).finish s.flags)) ∧
  (∀ (r : SReg) (e : Rm) (s : State), r ≠ .cs → s.rmOk .w16 e = true →
    ∃ t, exec (.movSregRm r e) s = .next t ∧ t = ({ s with seg := t.seg } : State).finish s.flags ∧
      t.seg.get r = s.readRm .w16 e ∧ ∀ q, q ≠ r → t.seg.get q = s.seg.get q)

/-- R305, R347, R348: NOP and ESC only advance `ip`; HLT advances `ip` and halts; the ESC operand is not accessed,
so nothing about it is assumed (the spec's own decisions D36, D39). -/
def Obligations.NopEscHltResult : Prop :=
  ∀ s : State,
    exec .nop s = .next { s with ip := BitVec.ofNat 16 (s.dec.ipStart.toNat + s.dec.len) } ∧
    (∀ op reg e, exec (.esc op reg e) s = .next { s with ip := BitVec.ofNat 16 (s.dec.ipStart.toNat + s.dec.len) }) ∧
    exec .hlt s = .next { s with ip := BitVec.ofNat 16 (s.dec.ipStart.toNat + s.dec.len), run := .halted }

/-- R306, R307: LAHF (0x9F) loads AH with the low byte of the image, SAHF (0x9E) copies five flags from AH and leaves
four. -/
def Obligations.LahfSahfResult : Prop :=
  (∀ rest, (decode (0x9F :: rest)).map Prod.fst = .ok .lahf ∧ (decode (0x9E :: rest)).map Prod.fst = .ok .sahf) ∧
  ∀ s : State,
    (∃ t, exec .lahf s = .next t ∧ t = ({ s with gpr := t.gpr } : State).finish s.flags ∧
      (∀ k, k < 8 → (t.gpr.read .w8 .sp).getLsbD k = s.flags.image.getLsbD k) ∧
      t.gpr = s.gpr.write .w8 .sp (t.gpr.read .w8 .sp)) ∧
    exec .sahf s = .next (s.finish { s.flags with
      sf := (s.gpr.cell .ax).getLsbD 15, zf := (s.gpr.cell .ax).getLsbD 14, af := (s.gpr.cell .ax).getLsbD 12,
      pf := (s.gpr.cell .ax).getLsbD 10, cf := (s.gpr.cell .ax).getLsbD 8 })

/-- R308, R309, R378: PUSHF stores the image at SS:SP-2, POPF takes all nine flags from the word at SS:SP; SP moves by
2 modulo 2^16 and the upper half of ESP is kept; no byte of memory outside the pushed word changes
(the spec's own decisions D6, D11, D45). -/
def Obligations.PushfPopfResult : Prop :=
  ∀ s : State, memWf s.mem → s.cfg.injOn (s.seg.ss.toNat * 16) (s.seg.ss.toNat * 16 + 0x10001) →
    (s.slotOk (-2) = true → ∃ t, exec .pushf s = .next t ∧ t = ({ s with gpr := t.gpr, mem := t.mem } : State).finish s.flags ∧
      t.gpr = s.gpr.write .w16 .sp (s.sp - 2) ∧ t.load (lin s.seg.ss (s.sp - 2)) .w16 = s.flags.image ∧
      ∀ p, (∀ k, k < 2 → p ≠ s.phys (lin s.seg.ss (s.sp - 2) + k)) → t.byteAt p = s.byteAt p) ∧
    (s.slotOk 0 = true → ∃ t, exec .popf s = .next t ∧
      t = ({ s with gpr := s.gpr.write .w16 .sp (s.sp + 2) } : State).finish t.flags ∧
      t.flags.image = (s.load (lin s.seg.ss s.sp) .w16 &&& 0x0FD5) ||| 0x0002)

/-- R310 to R316: each single-flag instruction, by its byte, writes its flag and no other flag (that STI leaves no
one-instruction shadow, nothing held for the next step, is the spec's own decision D30). -/
def Obligations.SingleFlagResult : Prop :=
  (∀ p ∈ [((0xF8 : Byte), Instr.clc), (0xF9, .stc), (0xF5, .cmc), (0xFC, .cld), (0xFD, .std), (0xFA, .cli), (0xFB, .sti)],
    ∀ rest, (decode (p.1 :: rest)).map Prod.fst = .ok p.2) ∧
  ∀ s : State,
    exec .clc s = .next (s.finish { s.flags with cf := false }) ∧
    exec .stc s = .next (s.finish { s.flags with cf := true }) ∧
    exec .cmc s = .next (s.finish { s.flags with cf := s.flags.cf ^^ true }) ∧
    exec .cld s = .next (s.finish { s.flags with df := false }) ∧
    exec .std s = .next (s.finish { s.flags with df := true }) ∧
    exec .cli s = .next (s.finish { s.flags with ifl := false }) ∧
    exec .sti s = .next (s.finish { s.flags with ifl := true })

/-! ### Control transfer and exceptions -/

/-- R341 to R343: Jcc by the sixteen conditions, JMP rel8 and rel16, by their bytes; the target is relative to the byte
after the instruction, modulo 2^16 (R340; the spec's own decision D8); nothing but `ip` changes. -/
def Obligations.JumpResult : Prop :=
  (∀ p ∈ [((0x70 : Byte), Cond.o), (0x71, .no), (0x72, .b), (0x73, .ae), (0x74, .e), (0x75, .ne), (0x76, .be), (0x77, .a),
      (0x78, .s), (0x79, .ns), (0x7A, .p), (0x7B, .np), (0x7C, .l), (0x7D, .ge), (0x7E, .le), (0x7F, .g)],
    ∀ rel rest, ∃ r, decode (p.1 :: rel :: rest) = .ok (.jcc p.2 rel, r) ∧ r.len = 2) ∧
  (∀ rel rest, (decode (0xEB :: rel :: rest)).map Prod.fst = .ok (.jmpRel8 rel)) ∧
  (∀ lo hi rest, (decode (0xE9 :: lo :: hi :: rest)).map Prod.fst = .ok (.jmpRel16 (hi ++ lo))) ∧
  ∀ s : State,
    let after : Int := s.dec.ipStart.toNat + s.dec.len
    let go (t : Int) : Result := .next { s with ip := BitVec.ofInt 16 t }
    let f := s.flags
    (∀ rel : Byte, exec (.jmpRel8 rel) s = go (after + rel.toInt)) ∧
    (∀ rel : Word, exec (.jmpRel16 rel) s = go (after + rel.toInt)) ∧
    (∀ p ∈ [(Cond.o, decide (f.ofl = true)), (.no, decide (f.ofl = false)), (.b, decide (f.cf = true)),
        (.ae, decide (f.cf = false)), (.e, decide (f.zf = true)), (.ne, decide (f.zf = false)),
        (.be, decide (f.cf = true ∨ f.zf = true)), (.a, decide (f.cf = false ∧ f.zf = false)),
        (.s, decide (f.sf = true)), (.ns, decide (f.sf = false)), (.p, decide (f.pf = true)),
        (.np, decide (f.pf = false)), (.l, decide (f.sf ≠ f.ofl)), (.ge, decide (f.sf = f.ofl)),
        (.le, decide (f.zf = true ∨ f.sf ≠ f.ofl)), (.g, decide (f.zf = false ∧ f.sf = f.ofl))],
      ∀ rel : Byte, exec (.jcc p.1 rel) s = if p.2 then go (after + rel.toInt) else go after)

/-- R377, R378, R379: what trap entry saves, where it goes and what it leaves: the frame word by word, CS:ip from the
vector at 4n as memory holds it after the pushes, IF and TF cleared, SP down by 6, the depth up by one (the
spec's own decisions D29, D44, D45). -/
def Obligations.TrapEntry : Prop :=
  ∀ (s : State) (n : Byte) (saved : Word), s.trapOk n = true → memWf s.mem →
    s.cfg.injOn (s.seg.ss.toNat * 16) (s.seg.ss.toNat * 16 + 0x10001) →
    ∃ t, takeTrap s n saved = .next t ∧
      t.load (lin s.seg.ss (s.sp - 2)) .w16 = s.flags.image ∧
      t.load (lin s.seg.ss (s.sp - 4)) .w16 = s.seg.cs ∧
      t.load (lin s.seg.ss (s.sp - 6)) .w16 = saved ∧
      (∀ p, (∀ d ∈ [(2 : Word), 4, 6], ∀ k, k < 2 → p ≠ s.phys (lin s.seg.ss (s.sp - d) + k)) →
        t.byteAt p = s.byteAt p) ∧
      t.ip = t.load (4 * n.toNat) .w16 ∧ t.seg = { s.seg with cs := t.load (4 * n.toNat + 2) .w16 } ∧
      t.flags = { s.flags with ifl := false, tf := false } ∧ t.depth = s.depth + 1 ∧
      t.gpr.read .w16 .sp = s.sp - 6 ∧ (t.gpr.cell .sp).toNat / 2 ^ 16 = (s.gpr.cell .sp).toNat / 2 ^ 16 ∧
      (∀ r, r ≠ .sp → t.gpr.cell r = s.gpr.cell r) ∧
      t = { s with gpr := t.gpr, seg := t.seg, ip := t.ip, flags := t.flags, depth := t.depth, mem := t.mem }

/-- R344: INT n is the trap entry with the offset of the next instruction saved; it completes wherever the stack and
the vector lie inside memory. -/
def Obligations.IntEntersTrap : Prop :=
  ∀ (n : Byte) (s : State), s.trapOk n = true →
    ∃ t, exec (.int n) s = .next t ∧
      takeTrap s n (BitVec.ofNat 16 (s.dec.ipStart.toNat + s.dec.len)) = .next t ∧
      t.depth = s.depth + 1 ∧ t.flags = { s.flags with ifl := false, tf := false } ∧ t.sp = s.sp - 6

/-- R345: IRET (0xCF) pops ip, CS and the flags and closes a context; at depth 0 it stops the core, before any pop (R385, the
spec's own decision D32), with the report of R43 (computed from the state: log 16). -/
def Obligations.IretResult : Prop :=
  (∀ rest, (decode (0xCF :: rest)).map Prod.fst = .ok .iret) ∧
  ∀ s : State,
    (s.depth ≠ 0 → s.iretOk = true →
      exec .iret s = .next { s with
        gpr := s.gpr.write .w16 .sp (s.sp + 6)
        ip := s.load (lin s.seg.ss s.sp) .w16
        seg := { s.seg with cs := s.load (lin s.seg.ss (s.sp + 2)) .w16 }
        flags := Flags.ofImage (s.load (lin s.seg.ss (s.sp + 4)) .w16)
        depth := s.depth - 1 }) ∧
    (s.depth = 0 → exec .iret s = .next { s with run := .stopped .contextUnderflow }) ∧
    (s.depth = 0 → ∀ t, exec .iret s = .next t → t.fatalReport = some (.contextUnderflow, s.seg.cs, s.ip, 0))

/-- R344, R345, R381: an INT n and the IRET that ends its handler, with the stack segment, SP, the frame and the depth
as the INT left them, restore CS:ip, the flags, SP and the depth; the IRET changes no memory and no other general register. -/
def Obligations.IntThenIret : Prop :=
  ∀ (s t u : State) (n : Byte), memWf s.mem →
    s.cfg.injOn (s.seg.ss.toNat * 16) (s.seg.ss.toNat * 16 + 0x10001) → exec (.int n) s = .next t →
    u.cfg = s.cfg → u.seg.ss = t.seg.ss → u.sp = t.sp → u.depth = t.depth →
    (∀ d ∈ [(2 : Word), 4, 6], ∀ k, k < 2 → u.byteAt (s.phys (lin s.seg.ss (s.sp - d) + k)) =
      t.byteAt (s.phys (lin s.seg.ss (s.sp - d) + k))) →
    ∃ v, exec .iret u = .next v ∧ v.ip = s.nextIp ∧ v.seg.cs = s.seg.cs ∧ v.flags = s.flags ∧ v.sp = s.sp ∧
      v.depth = s.depth ∧ v.mem = u.mem ∧ ∀ r, r ≠ .sp → v.gpr.cell r = u.gpr.cell r

/-! ### Frames -/

/-- Frame of every instruction whose destination is an `E` operand: a register destination changes that view alone and
no byte of memory; a memory destination changes no register and no byte outside the operand's bytes at its effective
address. -/
def Obligations.DestinationFrame : Prop :=
  ∀ (i : Instr) (w : Width) (e : Rm) (s t : State), i.dest = some (w, e) → memWf s.mem → exec i s = .next t →
    t.seg = s.seg ∧ t.run = s.run ∧ t.depth = s.depth ∧
    t.flags.ifl = s.flags.ifl ∧ t.flags.df = s.flags.df ∧ t.flags.tf = s.flags.tf ∧
    (∀ r, e = .reg r → (∃ v, t.gpr = s.gpr.write w r v) ∧ ∀ p, t.byteAt p = s.byteAt p) ∧
    (∀ m, e = .mem m → t.gpr = s.gpr ∧
      ∀ p, (∀ k, k < w.bytes → p ≠ s.phys (s.linOf m + k)) → t.byteAt p = s.byteAt p)

/-- Frame of every instruction that stores nothing: every byte of memory reads as before, and every register cell but
those it writes is unchanged. For DIV and IDIV: where they do not fault. -/
def Obligations.NoStoreFrame : Prop :=
  ∀ (i : Instr) (s t : State), i.storesNothing = true → exec i s = .next t → t.depth ≤ s.depth →
    (∀ p, t.byteAt p = s.byteAt p) ∧ ∀ r, r ∉ i.cellsWritten → t.gpr.cell r = s.gpr.cell r

/-- R45: the ALU reads the Carry only for Adc, Sbb, Rcl and Rcr, and raises its fault output only for Div and Idiv. -/
def Obligations.AluPortReads : Prop :=
  ∀ (mode : RotLeftOf) (op : AluSel) (w : Width) (i : AluIn) (c : Bool),
    (op ∉ [.adc, .sbb, .rcl, .rcr] → aluPort mode op w { i with carryIn := c } = aluPort mode op w i) ∧
    ((aluPort mode op w i).fault = true → op = .div ∨ op = .idiv) ∧
    ((aluPort mode .div w i).fault = true ↔
      i.value2.toNat % 2 ^ w.bits = 0 ∨
      2 ^ w.bits ≤ i.value1.toNat % 2 ^ (2 * w.bits) / (i.value2.toNat % 2 ^ w.bits))

end
end

