-- ==== Sys2Proof/Laws/Alu.lean ====
section
/-! SUPPORT. What the ALU functions compute, said by arithmetic: one lemma per function, so that a proof about an
instruction never meets the bit formulas (`40_alu_add_sub.md` to `43_alu_rotate_shift.md`). -/

namespace Sys2Proof.Machine

open Sys2Proof.Config

/-- The XOR of eight bits says whether an odd number of them is set. -/
theorem evenParity_eq {n : Nat} (res : BitVec n) : evenParity res = evenOnes res.toNat := by
  have h : ∀ a b c d e f g h : Bool, (!(a ^^ b ^^ c ^^ d ^^ e ^^ f ^^ g ^^ h)) =
      decide (([a, b, c, d, e, f, g, h].countP id) % 2 = 0) := by decide
  have e : (List.range 8).countP (fun i => res.toNat.testBit i) =
      ((List.range 8).map fun i => res.getLsbD i).countP id := by
    rw [List.countP_map]
    rfl
  unfold evenParity evenOnes
  rw [e, h]
  rfl

/-- The flags of a write set that has `ZSP_N(res)` (R160). -/
theorem zsp_apply {n : Nat} (res : BitVec n) (w : FlagWrites) (f : Flags) :
    (FlagWrites.zsp res w).apply f =
      { f.ofResult res with cf := w.cf.getD f.cf, af := w.af.getD f.af, ofl := w.ofl.getD f.ofl } := by
  have hz : (res == 0#n) = decide (res.toNat = 0) := by
    rw [beq_eq_decide]
    exact decide_eq_decide.mpr ⟨fun h => by simp [h], fun h => BitVec.eq_of_toNat_eq (by simpa using h)⟩
  simp only [FlagWrites.zsp, FlagWrites.apply, Flags.ofResult, Option.getD_some, hz, evenParity_eq, BitVec.msb_eq_decide]

theorem two_pow_pred {n : Nat} (hn : 0 < n) : (2 : Nat) ^ n = 2 * 2 ^ (n - 1) := by
  rw [← Nat.pow_succ', Nat.succ_eq_add_one, Nat.sub_add_cancel hn]

/-- Sign bit, signed value and unsigned value of a bit vector. -/
theorem sign_cases {n : Nat} (hn : 0 < n) (x : BitVec n) :
    (x.msb = false ∧ x.toInt = x.toNat ∧ x.toNat < 2 ^ (n - 1)) ∨
    (x.msb = true ∧ x.toInt = x.toNat - 2 * ((2 ^ (n - 1) : Nat) : Int) ∧ 2 ^ (n - 1) ≤ x.toNat) := by
  have h2 := two_pow_pred hn
  rw [BitVec.toInt_eq_msb_cond]
  by_cases h : 2 ^ (n - 1) ≤ x.toNat
  · refine .inr ?_
    have hm : x.msb = true := by rw [BitVec.msb_eq_decide]; simpa using h
    refine ⟨hm, ?_, h⟩
    rw [hm, if_pos rfl, h2]
    push_cast
    rfl
  · refine .inl ?_
    have hm : x.msb = false := by rw [BitVec.msb_eq_decide]; simpa using h
    refine ⟨hm, ?_, by omega⟩
    rw [hm]
    rfl

theorem fitsSigned_eq (n : Nat) (x : Int) :
    fitsSigned n x = decide (-((2 ^ (n - 1) : Nat) : Int) ≤ x ∧ x ≤ ((2 ^ (n - 1) : Nat) : Int) - 1) := by
  simp only [fitsSigned, Nat.cast_pow, Nat.cast_ofNat]

theorem addRes {n : Nat} (a b : BitVec n) (c : Bool) :
    a + b + (BitVec.ofBool c).setWidth n = BitVec.ofNat n (a.toNat + b.toNat + c.toNat) := by
  apply BitVec.eq_of_toNat_eq
  simp [BitVec.toNat_add]

theorem addCarry {n : Nat} (a b : BitVec n) (c : Bool) (i : Nat) (hi : i < n) :
    let res := a + b + (BitVec.ofBool c).setWidth n
    let ovf := (a ^^^ res) &&& ~~~(a ^^^ b)
    ((a ^^^ b ^^^ res) ^^^ ovf).getLsbD i = BitVec.carry (i + 1) a b c := by
  simp only [BitVec.getLsbD_xor, BitVec.getLsbD_and, BitVec.getLsbD_not, BitVec.getLsbD_add_add_bool hi, BitVec.carry_succ, hi,
    decide_true, Bool.true_and]
  cases a.getLsbD i <;> cases b.getLsbD i <;> cases BitVec.carry i a b c <;> rfl

theorem addOvf {n : Nat} (hn : 0 < n) (a b : BitVec n) (c : Bool) :
    ((a ^^^ (a + b + (BitVec.ofBool c).setWidth n)) &&& ~~~(a ^^^ b)).msb =
      !fitsSigned n (a.toInt + b.toInt + c.toNat) := by
  have h2 := two_pow_pred hn
  have ha := a.isLt
  have hb := b.isLt
  have hc : c.toNat ≤ 1 := by cases c <;> decide
  have hr := BitVec.toNat_ofNat (a.toNat + b.toNat + c.toNat) n
  rw [addRes, BitVec.msb_and, BitVec.msb_not, BitVec.msb_xor, BitVec.msb_xor, fitsSigned_eq]
  rw [Nat.mod_def, Nat.div_eq_of_lt_le (k := if a.toNat + b.toNat + c.toNat < 2 ^ n then 0 else 1) (by split <;> omega) (by split <;> omega)] at hr
  simp only [hn, decide_true, Bool.true_and]
  rcases sign_cases hn a with ⟨ma, ia, la⟩ | ⟨ma, ia, la⟩ <;>
  rcases sign_cases hn b with ⟨mb, ib, lb⟩ | ⟨mb, ib, lb⟩ <;>
  rcases sign_cases hn (BitVec.ofNat n (a.toNat + b.toNat + c.toNat)) with ⟨mr, -, lr⟩ | ⟨mr, -, lr⟩ <;>
  rw [ma, mb, mr, ia, ib] <;> generalize (2 ^ (n - 1) : Nat) = P at * <;> split at hr <;>
  simp <;> omega

theorem aluAdd_eq {n : Nat} (hn : 3 < n) (a b : BitVec n) (c : Bool) :
    aluAdd a b c = ⟨BitVec.ofNat n (a.toNat + b.toNat + c.toNat), .zsp (BitVec.ofNat n (a.toNat + b.toNat + c.toNat))
      { cf := some (decide (2 ^ n ≤ a.toNat + b.toNat + c.toNat))
        af := some (decide (15 < a.toNat % 16 + b.toNat % 16 + c.toNat))
        ofl := some (!fitsSigned n (a.toInt + b.toInt + c.toNat)) }⟩ := by
  have h1 := addCarry a b c (n - 1) (by omega)
  have h2 := addCarry a b c 3 hn
  have h3 := addOvf (by omega) a b c
  have e1 : BitVec.carry n a b c = decide (2 ^ n ≤ a.toNat + b.toNat + c.toNat) := by
    simp [BitVec.carry, Nat.mod_eq_of_lt a.isLt, Nat.mod_eq_of_lt b.isLt]
  have e2 : BitVec.carry 4 a b c = decide (15 < a.toNat % 16 + b.toNat % 16 + c.toNat) := by
    simp [BitVec.carry]; omega
  rw [show n - 1 + 1 = n by omega, e1] at h1
  rw [e2] at h2
  unfold aluAdd
  simp only [] at h1 h2 ⊢
  rw [BitVec.msb_eq_getLsbD_last (x := (a ^^^ b ^^^ _ ^^^ _)), h1, h2, h3, addRes]

/-- Subtraction with borrow is addition of the complement. -/
theorem subRes {n : Nat} (a b : BitVec n) (c : Bool) :
    a - b - (BitVec.ofBool c).setWidth n = a + ~~~b + (BitVec.ofBool (!c)).setWidth n := by
  rw [BitVec.sub_eq_add_neg, BitVec.sub_eq_add_neg, BitVec.neg_eq_not_add b]
  have e1 : (1#1).setWidth n = 1#n := by apply BitVec.eq_of_toNat_eq; simp
  cases c
  · simp [BitVec.add_assoc, e1]
  · rw [BitVec.ofBool_true, Bool.not_true, BitVec.ofBool_false, ← BitVec.add_assoc]
    change a + ~~~b + 1#n + -(1#1).setWidth n = a + ~~~b + (0#1).setWidth n
    rw [e1, ← BitVec.sub_eq_add_neg, BitVec.add_sub_cancel]
    simp

theorem toInt_compl {n : Nat} (hn : 0 < n) (b : BitVec n) : (~~~b).toInt = -b.toInt - 1 := by
  have h2 := two_pow_pred hn
  have hb := b.isLt
  have ht : (~~~b).toNat = 2 ^ n - 1 - b.toNat := BitVec.toNat_not
  rcases sign_cases hn b with ⟨-, ib, lb⟩ | ⟨-, ib, lb⟩ <;>
  rcases sign_cases hn (~~~b) with ⟨-, ic, lc⟩ | ⟨-, ic, lc⟩ <;> rw [ib, ic] <;> omega

theorem aluSub_eq {n : Nat} (hn : 3 < n) (a b : BitVec n) (c : Bool) :
    aluSub a b c = ⟨BitVec.ofInt n ((a.toNat : Int) - b.toNat - c.toNat),
      .zsp (BitVec.ofInt n ((a.toNat : Int) - b.toNat - c.toNat))
      { cf := some (decide (a.toNat < b.toNat + c.toNat))
        af := some (decide (a.toNat % 16 < b.toNat % 16 + c.toNat))
        ofl := some (!fitsSigned n (a.toInt - b.toInt - c.toNat)) }⟩ := by
  have hr : a - b - (BitVec.ofBool c).setWidth n = BitVec.ofInt n ((a.toNat : Int) - b.toNat - c.toNat) := by
    rw [Int.sub_eq_add_neg, Int.sub_eq_add_neg, BitVec.ofInt_add, BitVec.ofInt_add, BitVec.sub_eq_add_neg,
      BitVec.sub_eq_add_neg, BitVec.ofInt_neg, BitVec.ofInt_neg]
    have e1 : (1#1).setWidth n = 1#n := by apply BitVec.eq_of_toNat_eq; simp
    cases c <;> simp [e1]
  have ho : (a ^^^ (a - b - (BitVec.ofBool c).setWidth n)) &&& (a ^^^ b) =
      (a ^^^ (a + ~~~b + (BitVec.ofBool (!c)).setWidth n)) &&& ~~~(a ^^^ ~~~b) := by
    rw [subRes]
    congr 1
    ext i hi
    simp
  have hb : (a ^^^ b ^^^ (a - b - (BitVec.ofBool c).setWidth n)) =
      ~~~(a ^^^ ~~~b ^^^ (a + ~~~b + (BitVec.ofBool (!c)).setWidth n)) := by
    rw [subRes]
    ext i hi
    simp
  have h1 := addCarry a (~~~b) (!c) (n - 1) (by omega)
  have h2 := addCarry a (~~~b) (!c) 3 hn
  have h3 := addOvf (by omega) a (~~~b) (!c)
  have hbl := b.isLt
  have hnb : (~~~b).toNat = 2 ^ n - 1 - b.toNat := BitVec.toNat_not
  have hc : c.toNat = 0 ∧ (!c).toNat = 1 ∨ c.toNat = 1 ∧ (!c).toNat = 0 := by cases c <;> simp
  have e1 : BitVec.carry n a (~~~b) (!c) = !decide (a.toNat < b.toNat + c.toNat) := by
    rw [BitVec.carry, Nat.mod_eq_of_lt a.isLt, Nat.mod_eq_of_lt (~~~b).isLt, hnb, ← decide_not]
    apply decide_eq_decide.mpr
    omega
  have e2 : BitVec.carry 4 a (~~~b) (!c) = !decide (a.toNat % 16 < b.toNat % 16 + c.toNat) := by
    rw [BitVec.carry, hnb, ← decide_not]
    apply decide_eq_decide.mpr
    have : 2 ^ n = 16 * 2 ^ (n - 4) := by rw [show (16:Nat) = 2 ^ 4 from rfl, ← Nat.pow_add]; congr 1; omega
    omega
  have h4 : (a.toInt + (~~~b).toInt + (!c).toNat) = a.toInt - b.toInt - c.toNat := by
    rw [toInt_compl (by omega)]
    omega
  rw [show n - 1 + 1 = n by omega, e1] at h1
  rw [e2] at h2
  rw [h4] at h3
  have k : ∀ i, i < n → ((a ^^^ b ^^^ (a - b - (BitVec.ofBool c).setWidth n)) ^^^
      ((a ^^^ (a - b - (BitVec.ofBool c).setWidth n)) &&& (a ^^^ b))).getLsbD i =
      !((a ^^^ ~~~b ^^^ (a + ~~~b + (BitVec.ofBool (!c)).setWidth n)) ^^^
        ((a ^^^ (a + ~~~b + (BitVec.ofBool (!c)).setWidth n)) &&& ~~~(a ^^^ ~~~b))).getLsbD i := by
    intro i hi
    rw [hb, ho, BitVec.getLsbD_xor, BitVec.getLsbD_not]
    simp [hi, -BitVec.getLsbD_not]
  unfold aluSub
  simp only [] at h1 h2 ⊢
  rw [BitVec.msb_eq_getLsbD_last (x := (a ^^^ b ^^^ _ ^^^ _)), k _ (by omega), k _ hn, h1, h2, ho, h3, hr, Bool.not_not, Bool.not_not]
/-- The 5-bit mask as a remainder (R250, R255). -/
theorem count5_eq (k : Byte) : count5 k = k.toNat % 32 := by
  rw [count5, BitVec.toNat_and]
  exact Nat.and_two_pow_sub_one_eq_mod k.toNat 5

theorem shiftRight_lt {n x : Nat} (h : x < 2 ^ n) (c : Nat) : x >>> c < 2 ^ n :=
  Nat.lt_of_le_of_lt (Nat.shiftRight_le x c) h

theorem rotl_toNat {n : Nat} (v : BitVec n) (c : Nat) (hc : c < n) :
    ((v.toNat <<< c) ||| (v.toNat >>> (n - c))) % 2 ^ n = (v.rotateLeft c).toNat := by
  rw [BitVec.rotateLeft_def, Nat.mod_eq_of_lt hc]
  simp [Nat.or_mod_two_pow, Nat.mod_eq_of_lt (shiftRight_lt v.isLt _)]

theorem rotr_toNat {n : Nat} (v : BitVec n) (c : Nat) (hc : c < n) :
    ((v.toNat >>> c) ||| (v.toNat <<< (n - c))) % 2 ^ n = (v.rotateRight c).toNat := by
  rw [BitVec.rotateRight_def, Nat.mod_eq_of_lt hc]
  simp [Nat.or_mod_two_pow, Nat.mod_eq_of_lt (shiftRight_lt v.isLt _)]

theorem ofNat_of_mod {n x : Nat} {v : BitVec n} (h : x % 2 ^ n = v.toNat) : BitVec.ofNat n x = v :=
  BitVec.eq_of_toNat_eq (by rw [BitVec.toNat_ofNat, h])

theorem withCarry_eq {n : Nat} (v : BitVec n) (c : Bool) : withCarry v c = (BitVec.cons c v).toNat := by
  rw [withCarry, BitVec.toNat_cons, ← Nat.shiftLeft_eq, Nat.shiftLeft_add_eq_or_of_lt v.isLt]

theorem aluRol_eq {n : Nat} (hn : 0 < n) (mode : RotLeftOf) (v : BitVec n) (k : Byte)
    (h : k.toNat % 32 % n ≠ 0) :
    let res := v.rotateLeft (k.toNat % 32 % n)
    aluRol mode v k = ⟨res, { cf := some (res.getLsbD 0), ofl := some (leftOverflow mode res (res.getLsbD 0)) }⟩ := by
  simp only [aluRol, count5_eq, h, if_false, ofNat_of_mod (rotl_toNat v _ (Nat.mod_lt _ hn))]

theorem aluRor_eq {n : Nat} (hn : 0 < n) (v : BitVec n) (k : Byte) (h : k.toNat % 32 % n ≠ 0) :
    let res := v.rotateRight (k.toNat % 32 % n)
    aluRor v k = ⟨res, { cf := some (res.getLsbD (n - 1)), ofl := some (topTwo res) }⟩ := by
  simp only [aluRor, count5_eq, h, if_false, ofNat_of_mod (rotr_toNat v _ (Nat.mod_lt _ hn))]

theorem aluRcl_eq {n : Nat} (mode : RotLeftOf) (v : BitVec n) (k : Byte) (cin : Bool)
    (h : k.toNat % 32 % (n + 1) ≠ 0) :
    let y := (BitVec.cons cin v).rotateLeft (k.toNat % 32 % (n + 1))
    aluRcl mode v k cin =
      ⟨y.setWidth n, { cf := some (y.getLsbD n), ofl := some (leftOverflow mode (y.setWidth n) (y.getLsbD n)) }⟩ := by
  simp only [aluRcl, count5_eq, h, if_false, withCarry_eq, rotl_toNat (BitVec.cons cin v) _ (Nat.mod_lt _ n.succ_pos),
    BitVec.ofNat_toNat, BitVec.testBit_toNat]

theorem aluRcr_eq {n : Nat} (v : BitVec n) (k : Byte) (cin : Bool) (h : k.toNat % 32 % (n + 1) ≠ 0) :
    let y := (BitVec.cons cin v).rotateRight (k.toNat % 32 % (n + 1))
    aluRcr v k cin = ⟨y.setWidth n, { cf := some (y.getLsbD n), ofl := some (topTwo (y.setWidth n)) }⟩ := by
  simp only [aluRcr, count5_eq, h, if_false, withCarry_eq, rotr_toNat (BitVec.cons cin v) _ (Nat.mod_lt _ n.succ_pos),
    BitVec.ofNat_toNat, BitVec.testBit_toNat]

theorem aluShl_eq {n : Nat} (v : BitVec n) (k : Byte) (h : k.toNat % 32 ≠ 0) :
    let c := k.toNat % 32
    let res := BitVec.ofNat n (v.toNat * 2 ^ c)
    let out := decide (c ≤ n) && v.getLsbD (n - c)
    aluShl v k = ⟨res, .zsp res { cf := some out, ofl := some (out ^^ res.getLsbD (n - 1)) }⟩ := by
  have e : (if k.toNat % 32 ≤ n then (v.toNat >>> (n - k.toNat % 32)).testBit 0 else false) =
      (decide (k.toNat % 32 ≤ n) && v.getLsbD (n - k.toNat % 32)) := by
    split
    · simp [*, BitVec.testBit_toNat]
    · simp [*]
  simp only [aluShl, count5_eq, h, if_false, Nat.shiftLeft_eq, e]

theorem aluShr_eq {n : Nat} (v : BitVec n) (k : Byte) (h : k.toNat % 32 ≠ 0) :
    let c := k.toNat % 32
    let res := BitVec.ofNat n (v.toNat / 2 ^ c)
    aluShr v k = ⟨res, .zsp res { cf := some (v.getLsbD (c - 1)), ofl := some (v.getLsbD (n - 1)) }⟩ := by
  simp only [aluShr, count5_eq, h, if_false, Nat.shiftRight_eq_div_pow v.toNat (k.toNat % 32)]
  simp [BitVec.testBit_toNat, -BitVec.toNat_ushiftRight]

theorem odd_toInt {n : Nat} (hn : 0 < n) (x : BitVec n) : decide (x.toInt % 2 = 1) = x.getLsbD 0 := by
  rw [← BitVec.testBit_toNat, Nat.testBit_zero]
  apply decide_eq_decide.mpr
  rcases sign_cases hn x with ⟨-, e, -⟩ | ⟨-, e, -⟩ <;> rw [e] <;> omega

theorem aluSar_eq {n : Nat} (hn : 0 < n) (v : BitVec n) (k : Byte) (h : k.toNat % 32 ≠ 0) :
    let c := k.toNat % 32
    let res := BitVec.ofInt n (v.toInt.fdiv (2 ^ c))
    aluSar v k = ⟨res, .zsp res
      { cf := some (if c ≤ n then v.getLsbD (c - 1) else v.getLsbD (n - 1)), ofl := some false }⟩ := by
  have e : decide (v.toInt >>> (k.toNat % 32 - 1) % 2 = 1) =
      if k.toNat % 32 ≤ n then v.getLsbD (k.toNat % 32 - 1) else v.getLsbD (n - 1) := by
    rw [← BitVec.toInt_sshiftRight, odd_toInt hn, BitVec.getLsbD_sshiftRight]
    have h0 : ¬ n ≤ 0 := by omega
    by_cases hc : k.toNat % 32 ≤ n
    · have : k.toNat % 32 - 1 + 0 < n := by omega
      simp [hc, h0]
      omega
    · have : ¬ k.toNat % 32 - 1 + 0 < n := by omega
      simp [hc, h0, BitVec.msb_eq_getLsbD_last]
      omega
  have e2 : v.toInt >>> (k.toNat % 32) = v.toInt.fdiv (2 ^ (k.toNat % 32)) := by
    rw [Int.shiftRight_eq_div_pow, Int.fdiv_eq_ediv_of_nonneg]
    · norm_cast
    · positivity
  simp only [aluSar, count5_eq, h, if_false, e, e2]

/-- Bit j of the 3N-bit value `{a, b, c}`. -/
theorem triple_testBit {n : Nat} (a b c : BitVec n) (j : Nat) :
    (a.toNat * 2 ^ (2 * n) + b.toNat * 2 ^ n + c.toNat).testBit j =
      if j < n then c.getLsbD j else if j < 2 * n then b.getLsbD (j - n) else a.getLsbD (j - 2 * n) := by
  have e : a.toNat * 2 ^ (2 * n) + b.toNat * 2 ^ n + c.toNat = (a ++ b ++ c).toNat := by
    have hb := b.isLt
    have hc := c.isLt
    rw [BitVec.toNat_append, BitVec.toNat_append, ← Nat.shiftLeft_add_eq_or_of_lt hc, ← Nat.shiftLeft_add_eq_or_of_lt hb,
      Nat.shiftLeft_eq, Nat.shiftLeft_eq, Nat.add_mul, Nat.mul_assoc, ← Nat.pow_add, Nat.two_mul]
  rw [e, BitVec.testBit_toNat, BitVec.getLsbD_append, BitVec.getLsbD_append]
  split
  · rfl
  · split <;> split <;> first | rfl | omega | (congr 1; omega)

theorem aluShld_eq {n : Nat} (d s : BitVec n) (k : Byte) (h : k.toNat % 32 ≠ 0) (hn : 16 ≤ n) :
    let c := k.toNat % 32
    let res := if c ≤ n then (d <<< c) ||| (s >>> (n - c)) else (s <<< (c - n)) ||| (s >>> (2 * n - c))
    aluShld d s k = ⟨res, .zsp res
      { cf := some (if c ≤ n then d.getLsbD (n - c) else s.getLsbD (2 * n - c))
        ofl := some (res.getLsbD (n - 1) ^^ d.getLsbD (n - 1)) }⟩ := by
  have hc : k.toNat % 32 < 32 := Nat.mod_lt _ (by decide)
  have e1 : BitVec.ofNat n (((d.toNat * 2 ^ (2 * n) + s.toNat * 2 ^ n + s.toNat) <<< (k.toNat % 32)) >>> (2 * n)) =
      if k.toNat % 32 ≤ n then (d <<< (k.toNat % 32)) ||| (s >>> (n - k.toNat % 32))
      else (s <<< (k.toNat % 32 - n)) ||| (s >>> (2 * n - k.toNat % 32)) := by
    apply BitVec.eq_of_getLsbD_eq
    intro i hi
    rw [BitVec.getLsbD_ofNat, Nat.testBit_shiftRight, Nat.testBit_shiftLeft, triple_testBit]
    generalize k.toNat % 32 = c at *
    have h1 : c ≤ 2 * n + i := by omega
    simp only [hi, ge_iff_le, h1, decide_true, Bool.true_and]
    by_cases hcn : c ≤ n
    · simp only [hcn, if_true, BitVec.getLsbD_or, BitVec.getLsbD_shiftLeft, BitVec.getLsbD_ushiftRight, hi, decide_true,
        Bool.true_and, show ¬ 2 * n + i - c < n by omega, if_false]
      by_cases hic : i < c
      · simp only [hic, show 2 * n + i - c < 2 * n by omega, if_true, decide_true, Bool.not_true, Bool.false_and,
          Bool.false_or]
        congr 1
        omega
      · simp only [hic, show ¬ 2 * n + i - c < 2 * n by omega, if_false, decide_false, Bool.not_false, Bool.true_and]
        rw [BitVec.getLsbD_of_ge s _ (show n ≤ n - c + i by omega), Bool.or_false]
        congr 1
        omega
    · simp only [hcn, if_false, BitVec.getLsbD_or, BitVec.getLsbD_shiftLeft, BitVec.getLsbD_ushiftRight, hi, decide_true,
        Bool.true_and, show 2 * n + i - c < 2 * n by omega, if_true]
      by_cases hic : i < c - n
      · simp only [hic, show 2 * n + i - c < n by omega, if_true, decide_true, Bool.not_true, Bool.false_and,
          Bool.false_or]
        congr 1
        omega
      · simp only [hic, show ¬ 2 * n + i - c < n by omega, if_false, decide_false, Bool.not_false, Bool.true_and]
        rw [BitVec.getLsbD_of_ge s _ (show n ≤ 2 * n - c + i by omega), Bool.or_false]
        congr 1
        omega
  have e2 : (d.toNat * 2 ^ (2 * n) + s.toNat * 2 ^ n + s.toNat).testBit (3 * n - k.toNat % 32) =
      if k.toNat % 32 ≤ n then d.getLsbD (n - k.toNat % 32) else s.getLsbD (2 * n - k.toNat % 32) := by
    rw [triple_testBit]
    split_ifs <;> first | omega | (congr 1; omega)
  simp only [aluShld, count5_eq, h, if_false, e1, e2]

theorem aluShrd_eq {n : Nat} (d s : BitVec n) (k : Byte) (h : k.toNat % 32 ≠ 0) (hn : 16 ≤ n) :
    let c := k.toNat % 32
    let res := if c ≤ n then (d >>> c) ||| (s <<< (n - c)) else (s >>> (c - n)) ||| (s <<< (2 * n - c))
    aluShrd d s k = ⟨res, .zsp res
      { cf := some (if c ≤ n then d.getLsbD (c - 1) else s.getLsbD (c - n - 1))
        ofl := some (res.getLsbD (n - 1) ^^ d.getLsbD (n - 1)) }⟩ := by
  have hc : k.toNat % 32 < 32 := Nat.mod_lt _ (by decide)
  have e1 : BitVec.ofNat n ((s.toNat * 2 ^ (2 * n) + s.toNat * 2 ^ n + d.toNat) >>> (k.toNat % 32)) =
      if k.toNat % 32 ≤ n then (d >>> (k.toNat % 32)) ||| (s <<< (n - k.toNat % 32))
      else (s >>> (k.toNat % 32 - n)) ||| (s <<< (2 * n - k.toNat % 32)) := by
    apply BitVec.eq_of_getLsbD_eq
    intro i hi
    rw [BitVec.getLsbD_ofNat, Nat.testBit_shiftRight, triple_testBit]
    generalize k.toNat % 32 = c at *
    simp only [hi, decide_true, Bool.true_and]
    by_cases hcn : c ≤ n
    · simp only [hcn, if_true, BitVec.getLsbD_or, BitVec.getLsbD_shiftLeft, BitVec.getLsbD_ushiftRight, hi, decide_true,
        Bool.true_and]
      by_cases hic : c + i < n
      · simp [hic, show i < n - c by omega]
      · rw [BitVec.getLsbD_of_ge d _ (show n ≤ c + i by omega)]
        simp only [hic, if_false, show c + i < 2 * n by omega, if_true, show ¬ i < n - c by omega, decide_false,
          Bool.not_false, Bool.true_and, Bool.false_or]
        congr 1
        omega
    · simp only [hcn, if_false, BitVec.getLsbD_or, BitVec.getLsbD_shiftLeft, BitVec.getLsbD_ushiftRight, hi, decide_true,
        Bool.true_and, show ¬ c + i < n by omega]
      by_cases hic : c + i < 2 * n
      · simp only [hic, if_true, show i < 2 * n - c by omega, decide_true, Bool.not_true, Bool.false_and, Bool.or_false]
        congr 1
        omega
      · rw [BitVec.getLsbD_of_ge s (c - n + i) (by omega)]
        simp only [hic, if_false, show ¬ i < 2 * n - c by omega, decide_false, Bool.not_false, Bool.true_and,
          Bool.false_or]
        congr 1
        omega
  have e2 : (s.toNat * 2 ^ (2 * n) + s.toNat * 2 ^ n + d.toNat).testBit (k.toNat % 32 - 1) =
      if k.toNat % 32 ≤ n then d.getLsbD (k.toNat % 32 - 1) else s.getLsbD (k.toNat % 32 - n - 1) := by
    rw [triple_testBit]
    split_ifs <;> first | rfl | omega | (congr 1; omega)
  simp only [aluShrd, count5_eq, h, if_false, e1, e2]

/-- A reduced count of 0 changes nothing (R250, R255). -/
theorem alu_count_zero {n : Nat} (mode : RotLeftOf) (v s : BitVec n) (k : Byte) (cin : Bool) :
    (k.toNat % 32 % n = 0 → aluRol mode v k = ⟨v, {}⟩ ∧ aluRor v k = ⟨v, {}⟩) ∧
    (k.toNat % 32 % (n + 1) = 0 → aluRcl mode v k cin = ⟨v, {}⟩ ∧ aluRcr v k cin = ⟨v, {}⟩) ∧
    (k.toNat % 32 = 0 → aluShl v k = ⟨v, {}⟩ ∧ aluShr v k = ⟨v, {}⟩ ∧ aluSar v k = ⟨v, {}⟩ ∧
      aluShld v s k = ⟨v, {}⟩ ∧ aluShrd v s k = ⟨v, {}⟩) := by
  refine ⟨fun h => ?_, fun h => ?_, fun h => ?_⟩
  · simp [aluRol, aluRor, count5_eq, h]
  · simp [aluRcl, aluRcr, count5_eq, h]
  · simp [aluShl, aluShr, aluSar, aluShld, aluShrd, count5_eq, h]

/-- The sign-and-magnitude quotient is division truncated toward zero (R223). -/
theorem quot_eq_tdiv (a b : Int) : a.sign * b.sign * ((a.natAbs / b.natAbs : Nat) : Int) = a.tdiv b := by
  have hs : ∀ x : Nat, (x : Int).sign = if x = 0 then 0 else 1 := by
    intro x
    cases x with
    | zero => rfl
    | succ x => rfl
  obtain ⟨x, rfl | rfl⟩ := a.eq_nat_or_neg <;> obtain ⟨y, rfl | rfl⟩ := b.eq_nat_or_neg <;>
    simp only [Int.sign_neg, Int.natAbs_neg, Int.natAbs_natCast, hs, Int.neg_tdiv, Int.tdiv_neg, ← Int.ofNat_tdiv] <;>
    split_ifs <;> simp_all

theorem aluDiv_eq {n : Nat} (a : BitVec (2 * n)) (b : BitVec n) :
    aluDiv a b = if b.toNat ≠ 0 ∧ a.toNat / b.toNat < 2 ^ n
      then some ⟨BitVec.ofNat n (a.toNat / b.toNat), BitVec.ofNat n (a.toNat % b.toNat)⟩ else none := by
  have : 0 < 2 ^ n := by positivity
  unfold aluDiv
  simp only []
  by_cases h : b.toNat = 0
  · simp [h]
  · by_cases hq : a.toNat / b.toNat < 2 ^ n
    · have : ¬ a.toNat / b.toNat > 2 ^ n - 1 := by omega
      simp [h, hq, this]
    · have : a.toNat / b.toNat > 2 ^ n - 1 := by omega
      simp [h, hq, this]

theorem aluIdiv_eq {n : Nat} (a : BitVec (2 * n)) (b : BitVec n) :
    aluIdiv a b = if b.toInt ≠ 0 ∧ fitsSigned n (a.toInt.tdiv b.toInt) = true
      then some ⟨BitVec.ofInt n (a.toInt.tdiv b.toInt), BitVec.ofInt n (a.toInt.tmod b.toInt)⟩ else none := by
  have hr : a.toInt - a.toInt.tdiv b.toInt * b.toInt = a.toInt.tmod b.toInt := by
    rw [Int.tmod_def, Int.mul_comm]
  unfold aluIdiv
  simp only [quot_eq_tdiv, hr, fitsSigned, decide_eq_true_eq]
  by_cases h : b.toInt = 0
  · simp [h]
  · by_cases hq : a.toInt.tdiv b.toInt > 2 ^ (n - 1) - 1 ∨ a.toInt.tdiv b.toInt < -(2 ^ (n - 1) : Int)
    · have : ¬ (-(2 ^ (n - 1) : Int) ≤ a.toInt.tdiv b.toInt ∧ a.toInt.tdiv b.toInt ≤ 2 ^ (n - 1) - 1) := by omega
      simp only [h, hq, this, if_true, if_false, and_false]
    · have : (-(2 ^ (n - 1) : Int) ≤ a.toInt.tdiv b.toInt ∧ a.toInt.tdiv b.toInt ≤ 2 ^ (n - 1) - 1) := by omega
      simp only [h, hq, this, if_false, ne_eq, not_false_eq_true, and_self, if_true]

end Sys2Proof.Machine
end

