-- ==== Sys2Proof/Laws/Decode.lean ====
section
/-! SUPPORT. The decoder as a machine: what one transition can do, runs over concatenated bytes, the fields of a ModRM
byte, and what reading a prefix, an `E` operand or an immediate leaves in the working registers. -/

namespace Sys2Proof

open Sys2Proof.Config

/-! ### Field numbers -/

@[simp] theorem Gpr.ofNum_num (r : Gpr) : Gpr.ofNum r.num = r := by cases r <;> rfl
@[simp] theorem Base.ofNum_num (b : Base) : Base.ofNum b.num = b := by cases b <;> rfl
@[simp] theorem Cond.ofNum_num (c : Cond) : Cond.ofNum c.num = c := by cases c <;> rfl
@[simp] theorem AluOp.ofNum_num (k : AluOp) : AluOp.ofNum k.num = k := by cases k <;> rfl
@[simp] theorem SReg.ofNum_num (r : SReg) : SReg.ofNum r.num = some r := by cases r <;> rfl

/-- Only number 6 stands for BP alone (R106). -/
theorem Base.num_eq_six (b : Base) : b.num.toNat = 6 ↔ b = .bp := by cases b <;> decide

@[simp] theorem modField_modrmByte (md : BitVec 2) (reg rm : BitVec 3) : modField (modrmByte md reg rm) = md := by
  revert md reg rm; decide

@[simp] theorem regField_modrmByte (md : BitVec 2) (reg rm : BitVec 3) : regField (modrmByte md reg rm) = reg := by
  revert md reg rm; decide

@[simp] theorem rmField_modrmByte (md : BitVec 2) (reg rm : BitVec 3) : rmField (modrmByte md reg rm) = rm := by
  revert md reg rm; decide

@[simp] theorem groupIndex_eq (m : Byte) : groupIndex m = (regField m).toNat := by
  simp only [groupIndex, regField, BitVec.extractLsb'_toNat, Nat.shiftRight_eq_div_pow]

@[simp] theorem word16_bytes16 (v : Word) : word16 (bytes16 v) = v := by
  apply BitVec.eq_of_toNat_eq
  have := v.isLt
  simp only [word16, bytes16, BitVec.toNat_append, BitVec.extractLsb'_toNat, Nat.shiftRight_eq_div_pow]
  rw [Nat.shiftLeft_eq, Nat.mul_comm, ← Nat.two_pow_add_eq_or_of_lt (Nat.mod_lt _ (by decide))]
  omega

@[simp] theorem word32_bytes32 (v : DWord) : word32 (bytes32 v) = v := by
  apply BitVec.eq_of_getLsbD_eq
  intro i hi
  simp only [word32, bytes32, BitVec.getLsbD_append, BitVec.getLsbD_extractLsb']
  by_cases h1 : i < 8
  · simp [h1]
  · by_cases h2 : i - 8 < 8
    · simp only [h1, h2, if_true, if_false, decide_true, Bool.true_and]
      congr 1
      omega
    · by_cases h3 : i - 8 - 8 < 8
      · simp only [h1, h2, h3, if_true, if_false, decide_true, Bool.true_and]
        congr 1
        omega
      · simp only [h1, h2, h3, if_false, show i - 8 - 8 - 8 < 8 by omega, decide_true, Bool.true_and]
        congr 1
        omega

/-- An immediate's bytes give it back (R110). -/
@[simp] theorem immOf_bytes (i : Imm) : immOf i.width i.bytes = i := by
  cases i <;> simp [immOf, Imm.bytes, byte0]

theorem Imm.bytes_length (i : Imm) : i.bytes.length = i.width.bytes := by cases i <;> rfl

/-! ### One transition and a run -/

@[simp] theorem DecRegs.eat_len (r : DecRegs) : r.eat.len = r.len + 1 := rfl

theorem toImm_cases (f : OpForm) (r : DecRegs) :
    (toImm f r = .done (f.build r) r ∧ f.immLen r.opSize (regField r.m) = 0) ∨
    ∃ n, toImm f r = .more (.dImm f n) r ∧ f.immLen r.opSize (regField r.m) = n + 1 := by
  unfold toImm
  cases h : f.immLen r.opSize (regField r.m) with
  | zero => exact .inl ⟨rfl, rfl⟩
  | succ n => exact .inr ⟨n, rfl, rfl⟩

/-- Wherever a transition goes on or ends, one byte was consumed. -/
def DNext.lenIs (n : Nat) : DNext → Prop
  | .more _ r => r.len = n
  | .done _ r => r.len = n
  | .refused _ => True

theorem toImm_lenIs (f : OpForm) (r : DecRegs) : (toImm f r).lenIs r.len := by
  rcases toImm_cases f r with ⟨e, -⟩ | ⟨n, e, -⟩ <;> rw [e] <;> rfl

theorem afterLookup_lenIs (l : Lookup) (r : DecRegs) : (afterLookup l r).lenIs r.len := by
  cases l with
  | notAdmitted => trivial
  | reserved => rfl
  | form f =>
    simp only [afterLookup]
    split
    · trivial
    · split
      · trivial
      · split
        · rfl
        · exact toImm_lenIs f r

theorem atModrm_lenIs (f : OpForm) (r : DecRegs) (m : Byte) : (atModrm f r m).lenIs (r.len + 1) := by
  unfold atModrm
  cases f.check (regField m) with
  | ok =>
    simp only []
    split
    · exact toImm_lenIs _ _
    · rfl
  | notAdmitted => trivial
  | invalid => rfl
  | invalidMovCs => rfl
  | reserved => rfl

theorem atPrefix_lenIs (r : DecRegs) (b : Byte) : (atPrefix r b).lenIs (r.len + 1) := by
  unfold atPrefix
  split
  · rfl
  · split
    · rfl
    · rfl
    · rfl
    · rfl
    · trivial
    · unfold atOpcode
      simp only []
      split
      · rfl
      · exact afterLookup_lenIs _ _

/-- R112: each consumed byte adds 1 to `len`. -/
theorem dStep_lenIs (st : DState) (r : DecRegs) (b : Byte) : (dStep st r b).lenIs (r.len + 1) := by
  cases st with
  | dPrefix => exact atPrefix_lenIs r b
  | dOpcode2 => exact afterLookup_lenIs _ _
  | dModrm f => exact atModrm_lenIs f r b
  | dDisp f n =>
    cases n with
    | zero => exact toImm_lenIs _ _
    | succ n => rfl
  | dImm f n => cases n <;> rfl

theorem dRun_more {st st' : DState} {r r' : DecRegs} {b : Byte} (h : dStep st r b = .more st' r') (bs : List Byte) :
    dRun st r (b :: bs) = dRun st' r' bs := by simp only [dRun, h]

theorem dRun_done {st : DState} {r r' : DecRegs} {b : Byte} {i : Instr} (h : dStep st r b = .done i r')
    (bs : List Byte) : dRun st r (b :: bs) = .ok (i, r') := by simp only [dRun, h]

theorem dRun_refused {st : DState} {r : DecRegs} {b : Byte} {y : DecodeStop} (h : dStep st r b = .refused y)
    (bs : List Byte) : dRun st r (b :: bs) = .error y := by simp only [dRun, h]

/-- What is decoded does not depend on the bytes after it, and the bytes consumed are those counted. -/
theorem dRun_append (bs rest : List Byte) (st : DState) (r r' : DecRegs) (i : Instr)
    (h : dRun st r bs = .ok (i, r')) :
    dRun st r (bs ++ rest) = .ok (i, r') ∧ r.len < r'.len ∧ r'.len ≤ r.len + bs.length := by
  induction bs generalizing st r with
  | nil => cases h
  | cons b bs ih =>
    have hl := dStep_lenIs st r b
    cases hs : dStep st r b with
    | more st' r1 =>
      rw [dRun_more hs] at h
      obtain ⟨h1, h2, h3⟩ := ih st' r1 h
      rw [hs] at hl
      simp only [DNext.lenIs] at hl
      refine ⟨by rw [List.cons_append, dRun_more hs, h1], by omega, ?_⟩
      simp only [List.length_cons]
      omega
    | done j r1 =>
      rw [dRun_done hs] at h
      rw [hs] at hl
      simp only [DNext.lenIs] at hl
      cases h
      refine ⟨by rw [List.cons_append, dRun_done hs], by omega, ?_⟩
      simp only [List.length_cons]
      omega
    | refused y =>
      rw [dRun_refused hs] at h
      cases h

/-- The consumed bytes alone decode to the same. -/
theorem dRun_take (bs : List Byte) (st : DState) (r r' : DecRegs) (i : Instr) (h : dRun st r bs = .ok (i, r')) :
    dRun st r (bs.take (r'.len - r.len)) = .ok (i, r') := by
  induction bs generalizing st r with
  | nil => cases h
  | cons b bs ih =>
    have hl := dStep_lenIs st r b
    obtain ⟨-, h0, -⟩ := dRun_append (b :: bs) [] st r r' i h
    have e : r'.len - r.len = r'.len - r.len - 1 + 1 := by omega
    rw [e, List.take_succ_cons]
    cases hs : dStep st r b with
    | more st' r1 =>
      rw [dRun_more hs] at h ⊢
      rw [hs] at hl
      simp only [DNext.lenIs] at hl
      have := ih st' r1 h
      rwa [hl, Nat.sub_add_eq] at this
    | done j r1 =>
      rw [dRun_done hs] at h ⊢
      exact h
    | refused y =>
      rw [dRun_refused hs] at h
      cases h

/-- Fewer bytes than the instruction has run out. -/
theorem dRun_truncated (bs more : List Byte) (st : DState) (r r' : DecRegs) (i : Instr)
    (h : dRun st r (bs ++ more) = .ok (i, r')) (hl : r.len + bs.length < r'.len) :
    dRun st r bs = .error .truncated := by
  induction bs generalizing st r with
  | nil => rfl
  | cons b bs ih =>
    have hl' := dStep_lenIs st r b
    rw [List.cons_append] at h
    simp only [List.length_cons] at hl
    cases hs : dStep st r b with
    | more st' r1 =>
      rw [dRun_more hs] at h ⊢
      rw [hs] at hl'
      simp only [DNext.lenIs] at hl'
      exact ih st' r1 h (by omega)
    | done j r1 =>
      rw [dRun_done hs] at h
      rw [hs] at hl'
      simp only [DNext.lenIs] at hl'
      cases h
      omega
    | refused y =>
      rw [dRun_refused hs] at h
      cases h

/-- A refusal does not depend on the bytes after it. -/
theorem dRun_error_append (bs rest : List Byte) (st : DState) (r : DecRegs) (y : DecodeStop)
    (h : dRun st r bs = .error y) (hy : y ≠ .truncated) : dRun st r (bs ++ rest) = .error y := by
  induction bs generalizing st r with
  | nil =>
    simp only [dRun, Except.error.injEq] at h
    exact absurd h.symm hy
  | cons b bs ih =>
    rw [List.cons_append]
    cases hs : dStep st r b with
    | more st' r1 =>
      rw [dRun_more hs] at h ⊢
      exact ih st' r1 h
    | done j r1 =>
      rw [dRun_done hs] at h
      cases h
    | refused y' =>
      rw [dRun_refused hs] at h ⊢
      exact h

/-! ### Parts of an instruction -/

/-- The operand-size prefix of a width (R101). -/
theorem dRun_widthPrefix (w : Width) (r : DecRegs) (bs : List Byte) :
    dRun .dPrefix r (w.prefixBytes ++ bs) =
      dRun .dPrefix { r with len := r.len + w.prefixBytes.length, opSize := r.opSize || decide (w = .w32) } bs := by
  cases w <;> simp [Width.prefixBytes, dRun, dStep, atPrefix, segOverride, DecRegs.eat]

/-- The segment-override byte (R101). -/
theorem dRun_override (g : SReg) (r : DecRegs) (bs : List Byte) :
    dRun .dPrefix r (g.overrideByte :: bs) = dRun .dPrefix { r with len := r.len + 1, seg := some g } bs := by
  cases g <;> rfl

/-- The override in force for an `E` operand. -/
def Rm.seg : Rm → Option SReg
  | .reg _ => none
  | .mem m => m.seg

/-- The override prefix of an `E` operand (R107). -/
theorem dRun_overrideBytes (e : Rm) (r : DecRegs) (bs : List Byte) (h : r.seg = none) :
    dRun .dPrefix r (e.overrideBytes ++ bs) =
      dRun .dPrefix { r with len := r.len + e.overrideBytes.length, seg := e.seg } bs := by
  cases e with
  | reg _ => simp [Rm.overrideBytes, Rm.seg, ← h]
  | mem m =>
    cases m with
    | mk seg addr =>
      cases seg with
      | none => simp [Rm.overrideBytes, Rm.seg, ← h]
      | some g => exact dRun_override g r bs

/-- The displacement bytes of an `E` operand (R105). -/
def Rm.dispBytes : Rm → List Byte
  | .reg _ => []
  | .mem ⟨_, .direct d⟩ => bytes16 d
  | .mem ⟨_, .based _ .none⟩ => []
  | .mem ⟨_, .based _ (.d8 d)⟩ => [d]
  | .mem ⟨_, .based _ (.d16 d)⟩ => bytes16 d

/-- The ModRM byte of an `E` operand. -/
def Rm.modrm (reg : BitVec 3) : Rm → Byte
  | .reg r => modrmByte 3 reg r.num
  | .mem ⟨_, .direct _⟩ => modrmByte 0 reg 6
  | .mem ⟨_, .based b .none⟩ => modrmByte 0 reg b.num
  | .mem ⟨_, .based b (.d8 _)⟩ => modrmByte 1 reg b.num
  | .mem ⟨_, .based b (.d16 _)⟩ => modrmByte 2 reg b.num

theorem Rm.bytes_eq (reg : BitVec 3) (e : Rm) : e.bytes reg = e.modrm reg :: e.dispBytes := by
  rcases e with r | ⟨o, d | ⟨b, d | d | d⟩⟩ <;> rfl

@[simp] theorem Rm.regField_modrm (reg : BitVec 3) (e : Rm) : regField (e.modrm reg) = reg := by
  rcases e with r | ⟨o, d | ⟨b, d | d | d⟩⟩ <;> simp [Rm.modrm]

/-- The operand read back from its ModRM byte, displacement and override (R105 to R107). -/
theorem rmOf_modrm (reg : BitVec 3) (e : Rm) (h : e.wf = true) : rmOf e.seg (e.modrm reg) e.dispBytes = e := by
  rcases e with r | ⟨o, d | ⟨b, d | d | d⟩⟩
  · simp [rmOf, Rm.modrm]
  · simp [rmOf, Rm.modrm, Rm.dispBytes, Rm.seg]
  · have hb : b ≠ .bp := by
      rintro rfl
      cases h
    have : ¬ b.num.toNat = 6 := fun e => hb ((Base.num_eq_six b).mp e)
    simp [rmOf, Rm.modrm, Rm.seg, this]
  · simp [rmOf, Rm.modrm, Rm.dispBytes, Rm.seg, byte0]
  · simp [rmOf, Rm.modrm, Rm.dispBytes, Rm.seg]

theorem dispLen_modrm (reg : BitVec 3) (e : Rm) (h : e.wf = true) :
    dispLen (e.modrm reg) = e.dispBytes.length := by
  rcases e with r | ⟨o, d | ⟨b, d | d | d⟩⟩
  · simp [dispLen, Rm.modrm, Rm.dispBytes]
  · simp [dispLen, Rm.modrm, Rm.dispBytes, bytes16]
  · have hb : b ≠ .bp := by
      rintro rfl
      cases h
    have : ¬ b.num.toNat = 6 := fun e => hb ((Base.num_eq_six b).mp e)
    simp [dispLen, Rm.modrm, Rm.dispBytes, this]
  · simp [dispLen, Rm.modrm, Rm.dispBytes]
  · simp [dispLen, Rm.modrm, Rm.dispBytes, bytes16]

/-- What a transition comes to once the bytes after it are given. -/
def DNext.run (bs : List Byte) : DNext → Except DecodeStop (Instr × DecRegs)
  | .more st r => dRun st r bs
  | .done i r => .ok (i, r)
  | .refused y => .error y

theorem dRun_cons (st : DState) (r : DecRegs) (b : Byte) (bs : List Byte) :
    dRun st r (b :: bs) = (dStep st r b).run bs := by
  cases h : dStep st r b <;> simp [dRun, DNext.run, h]

/-- The displacement bytes. -/
theorem dRun_disp (f : OpForm) (ds : List Byte) (n : Nat) (hn : ds.length = n + 1) (r : DecRegs) (bs : List Byte) :
    dRun (.dDisp f n) r (ds ++ bs) =
      (toImm f { r with len := r.len + ds.length, disp := r.disp ++ ds }).run bs := by
  induction n generalizing ds r with
  | zero =>
    match ds, hn with
    | [d], _ => exact dRun_cons _ _ _ _
  | succ n ih =>
    match ds, hn with
    | d :: ds, hn =>
      have := ih ds (by simpa using hn) { r.eat with disp := r.disp ++ [d] }
      rw [List.cons_append, dRun_cons]
      refine this.trans ?_
      simp [DecRegs.eat, Nat.add_assoc, Nat.add_comm 1]

/-- The ModRM byte and displacement of an `E` operand that the group check admits (R104, R105). -/
theorem dRun_rm (f : OpForm) (reg : BitVec 3) (e : Rm) (h : e.wf = true) (r : DecRegs) (hd : r.disp = [])
    (hc : f.check reg = .ok) (bs : List Byte) :
    dRun (.dModrm f) r (e.bytes reg ++ bs) =
      (toImm f { r with
        len := r.len + (e.bytes reg).length, modrm := some (e.modrm reg), disp := e.dispBytes }).run bs := by
  rw [Rm.bytes_eq, List.cons_append, dRun_cons]
  simp only [dStep, atModrm, Rm.regField_modrm, hc, dispLen_modrm reg e h]
  cases hl : e.dispBytes.length with
  | zero =>
    have hn : e.dispBytes = [] := List.eq_nil_of_length_eq_zero hl
    simp only [hn, DecRegs.eat, hd, List.nil_append, List.length_cons, List.length_nil, Nat.zero_add]
  | succ n =>
    simp only [DNext.run]
    rw [dRun_disp f _ n hl]
    simp [DecRegs.eat, hd, Nat.add_assoc, Nat.add_comm 1]
    rfl

/-- The immediate bytes, and the end of the instruction. -/
theorem dRun_imm (f : OpForm) (is : List Byte) (n : Nat) (hn : is.length = n + 1) (r : DecRegs) (bs : List Byte) :
    dRun (.dImm f n) r (is ++ bs) =
      .ok (f.build { r with len := r.len + is.length, imm := r.imm ++ is },
        { r with len := r.len + is.length, imm := r.imm ++ is }) := by
  induction n generalizing is r with
  | zero =>
    match is, hn with
    | [d], _ => rfl
  | succ n ih =>
    match is, hn with
    | d :: is, hn =>
      have := ih is (by simpa using hn) { r.eat with imm := r.imm ++ [d] }
      rw [List.cons_append, dRun_cons]
      refine this.trans ?_
      simp [DecRegs.eat, Nat.add_assoc, Nat.add_comm 1]

/-- From the last byte before the immediate on. -/
theorem toImm_run (f : OpForm) (r : DecRegs) (hi : r.imm = []) (is bs : List Byte)
    (hn : is.length = f.immLen r.opSize (regField r.m)) :
    (toImm f r).run (is ++ bs) =
      .ok (f.build { r with len := r.len + is.length, imm := is }, { r with len := r.len + is.length, imm := is }) := by
  rcases toImm_cases f r with ⟨e, h0⟩ | ⟨n, e, h0⟩
  · have : is = [] := List.eq_nil_of_length_eq_zero (hn.trans h0)
    have hr : ({ r with len := r.len + is.length, imm := is } : DecRegs) = r := by
      cases r
      simp only [this, List.length_nil, Nat.add_zero] at hi ⊢
      rw [hi]
    rw [e, hr]
    rfl
  · rw [e]
    simp only [DNext.run]
    rw [dRun_imm f is n (hn.trans h0), hi, List.nil_append]

/-- A byte that is no prefix is the opcode (R112). -/
theorem atPrefix_opcode (r : DecRegs) (b : Byte) (h : isPrefixByte b = false) (h67 : b ≠ 0x67) :
    atPrefix r b = atOpcode r b := by
  have hs : ∀ b : Byte, isPrefixByte b = false → b ≠ 0x67 →
      segOverride b = none ∧ b.toNat ≠ 0x66 ∧ b.toNat ≠ 0xF0 ∧ b.toNat ≠ 0xF2 ∧ b.toNat ≠ 0xF3 ∧ b.toNat ≠ 0x67 := by
    decide
  obtain ⟨h0, h1, h2, h3, h4, h5⟩ := hs b h h67
  simp only [atPrefix, h0]

theorem dRun_opcode1 (r : DecRegs) (b : Byte) (h : isPrefixByte b = false) (h67 : b ≠ 0x67) (h0F : b ≠ 0x0F)
    (bs : List Byte) :
    dRun .dPrefix r (b :: bs) = (afterLookup (lookup1 b) { r.eat with opcode := [b] }).run bs := by
  rw [dRun_cons]
  simp only [dStep, atPrefix_opcode r b h h67, atOpcode, h0F, if_false]

theorem dRun_opcode2 (r : DecRegs) (b : Byte) (bs : List Byte) :
    dRun .dPrefix r (0x0F :: b :: bs) =
      (afterLookup (lookup2 b) { r.eat.eat with opcode := [0x0F, b] }).run bs := by
  rw [dRun_more (st' := .dOpcode2) (r' := { r.eat with opcode := [0x0F] }) rfl, dRun_cons]
  rfl

/-- The opcode bytes stand for a row of the opcode map (R120). -/
def opcodeIs (op : List Byte) (f : OpForm) : Prop :=
  (∃ b, op = [b] ∧ isPrefixByte b = false ∧ b ≠ 0x67 ∧ b ≠ 0x0F ∧ lookup1 b = .form f) ∨
  (∃ b, op = [0x0F, b] ∧ lookup2 b = .form f)

theorem dRun_opcode (op : List Byte) (f : OpForm) (h : opcodeIs op f) (r : DecRegs) (bs : List Byte) :
    dRun .dPrefix r (op ++ bs) =
      (afterLookup (.form f) { r with len := r.len + op.length, opcode := op }).run bs := by
  rcases h with ⟨b, rfl, h1, h2, h3, h4⟩ | ⟨b, rfl, h4⟩
  · rw [← h4]
    exact dRun_opcode1 r b h1 h2 h3 bs
  · rw [← h4]
    exact dRun_opcode2 r b bs

/-- The working registers after an instruction with an `E` operand. -/
def rmRegs (w : Width) (op : List Byte) (reg : BitVec 3) (e : Rm) (imm : List Byte) : DecRegs :=
  { ipStart := 0
    len := (encodeRm w op reg e imm).length
    seg := e.seg
    opSize := decide (w = .w32)
    lock := false
    rep := none
    opcode := op
    modrm := some (e.modrm reg)
    disp := e.dispBytes
    imm := imm }

@[simp] theorem rmRegs_e (w : Width) (op : List Byte) (reg : BitVec 3) (e : Rm) (imm : List Byte) (h : e.wf = true) :
    (rmRegs w op reg e imm).e = e := rmOf_modrm reg e h

@[simp] theorem rmRegs_regField (w : Width) (op : List Byte) (reg : BitVec 3) (e : Rm) (imm : List Byte) :
    regField (rmRegs w op reg e imm).m = reg := Rm.regField_modrm reg e

@[simp] theorem rmRegs_g (w : Width) (op : List Byte) (reg : BitVec 3) (e : Rm) (imm : List Byte) :
    (rmRegs w op reg e imm).g = Gpr.ofNum reg := by simp [DecRegs.g]

/-- Decoding the bytes of an instruction with an `E` operand builds the row's instruction from those registers. -/
theorem decode_encodeRm (w : Width) (op : List Byte) (reg : BitVec 3) (e : Rm) (imm rest : List Byte) (f : OpForm)
    (he : e.wf = true) (hop : opcodeIs op f) (hm : f.hasModrm = true) (hc : f.check reg = .ok)
    (h66 : w = .w32 → f.no66 = false) (hi : imm.length = f.immLen (decide (w = .w32)) reg) :
    decode (encodeRm w op reg e imm ++ rest) =
      .ok (f.build (rmRegs w op reg e imm), rmRegs w op reg e imm) := by
  unfold decode encodeRm
  simp only [List.append_assoc]
  rw [dRun_widthPrefix, dRun_overrideBytes _ _ _ rfl, dRun_opcode op f hop]
  have h6 : (decide (w = .w32) && f.no66) = false := by
    by_cases hw : w = .w32
    · simp [hw, h66 hw]
    · simp [hw]
  simp only [afterLookup, DecRegs.idle, Option.isSome_none, Bool.false_or, h6, hm, if_true, DNext.run, Bool.false_eq_true,
    if_false]
  rw [dRun_rm f reg e he _ rfl hc, toImm_run f _ rfl]
  · simp [rmRegs, encodeRm, Nat.add_assoc]
  · simp only [DecRegs.m, Option.getD_some, Rm.regField_modrm]
    exact hi

/-- The working registers after an instruction without a ModRM byte. -/
def opRegs (w : Width) (op imm : List Byte) : DecRegs :=
  { ipStart := 0, len := (w.prefixBytes ++ op ++ imm).length, seg := none, opSize := decide (w = .w32), lock := false,
    rep := none, opcode := op, modrm := none, disp := [], imm := imm }

/-- Decoding the bytes of an instruction without a ModRM byte. -/
theorem decode_opImm (w : Width) (op imm rest : List Byte) (f : OpForm) (hop : opcodeIs op f)
    (hm : f.hasModrm = false) (h66 : w = .w32 → f.no66 = false)
    (hi : imm.length = f.immLen (decide (w = .w32)) (regField 0)) :
    decode (w.prefixBytes ++ op ++ imm ++ rest) = .ok (f.build (opRegs w op imm), opRegs w op imm) := by
  unfold decode
  simp only [List.append_assoc]
  rw [dRun_widthPrefix, dRun_opcode op f hop]
  have h6 : (decide (w = .w32) && f.no66) = false := by
    by_cases hw : w = .w32
    · simp [hw, h66 hw]
    · simp [hw]
  simp only [afterLookup, DecRegs.idle, Option.isSome_none, Bool.false_or, h6, hm, Bool.false_eq_true, if_false]
  rw [toImm_run f _ rfl imm rest (by simpa [DecRegs.m] using hi)]
  simp [opRegs, Nat.add_assoc]

end Sys2Proof
end

