-- ==== Sys2Proof/Laws/Memory.lean ====
section
/-! SUPPORT. Laws of the memory operations: read after write, writes elsewhere, the canonical form, and the keys a
write can add. -/

namespace Sys2Proof.Machine

open Sys2Proof.Config

theorem memGet_of_keys_gt (a : Nat) (m : List Host.Cell) (h : ∀ c ∈ m, a < c.1) : memGet a m = unlisted := by
  induction m with
  | nil => rfl
  | cons c rest ih =>
    have h1 : a < c.1 := h c (by simp)
    have h2 : ¬ c.1 = a := by omega
    simp only [memGet, h2, if_false]
    exact ih fun d hd => h d (by simp [hd])

/-- A read after a write to the same cell gives the value written. -/
theorem memGet_memSet_same (a : Nat) (v : Byte) (m : List Host.Cell) (h : memWf m) : memGet a (memSet a v m) = v := by
  induction m with
  | nil => by_cases hv : v = unlisted <;> simp [memSet, memGet, hv]
  | cons c rest ih =>
    obtain ⟨hs, hn⟩ := h
    have hs' := List.pairwise_cons.mp hs
    by_cases h1 : a < c.1
    · have hk : ∀ d ∈ c :: rest, a < d.1 := by
        intro d hd
        rcases List.mem_cons.mp hd with rfl | hd
        · exact h1
        · exact Nat.lt_trans h1 (hs'.1 d hd)
      by_cases hv : v = unlisted
      · simp only [memSet, h1, if_true, hv]
        exact memGet_of_keys_gt a _ hk
      · simp [memSet, h1, hv, memGet]
    · by_cases h2 : a = c.1
      · by_cases hv : v = unlisted
        · simp only [memSet, h2, Nat.lt_irrefl, if_false, if_true, hv]
          exact memGet_of_keys_gt _ _ hs'.1
        · simp [memSet, h2, hv, memGet]
      · have h3 : ¬ c.1 = a := fun e => h2 e.symm
        simp only [memSet, h1, h2, if_false, memGet, h3]
        exact ih ⟨hs'.2, fun d hd => hn d (by simp [hd])⟩

/-- A write leaves every other cell alone. -/
theorem memGet_memSet_other (a b : Nat) (v : Byte) (m : List Host.Cell) (h : memWf m) (hab : b ≠ a) :
    memGet b (memSet a v m) = memGet b m := by
  induction m with
  | nil =>
    by_cases hv : v = unlisted
    · simp [memSet, memGet, hv]
    · simp [memSet, memGet, hv, Ne.symm hab]
  | cons c rest ih =>
    obtain ⟨hs, hn⟩ := h
    have hs' := List.pairwise_cons.mp hs
    by_cases h1 : a < c.1
    · by_cases hv : v = unlisted
      · simp [memSet, h1, hv]
      · simp [memSet, h1, hv, memGet, Ne.symm hab]
    · by_cases h2 : a = c.1
      · have h3 : ¬ c.1 = b := fun e => hab (by omega)
        by_cases hv : v = unlisted
        · simp [memSet, h2, hv, memGet, h3]
        · simp [memSet, h2, hv, memGet, Ne.symm (h2 ▸ hab)]
      · simp only [memSet, h1, h2, if_false, memGet]
        rw [ih ⟨hs'.2, fun d hd => hn d (by simp [hd])⟩]

/-- The cells after a write are cells that stood there before, and the one written. -/
theorem mem_memSet (a : Nat) (v : Byte) (m : List Host.Cell) (c : Host.Cell) (h : c ∈ memSet a v m) :
    c ∈ m ∨ (c = (a, v) ∧ v ≠ unlisted) := by
  induction m with
  | nil =>
    by_cases hv : v = unlisted
    · simp [memSet, hv] at h
    · simp only [memSet, hv, if_false, List.mem_singleton] at h
      exact .inr ⟨h, hv⟩
  | cons d rest ih =>
    by_cases h1 : a < d.1
    · by_cases hv : v = unlisted
      · simp only [memSet, h1, if_true, hv] at h
        exact .inl h
      · simp only [memSet, h1, if_true, hv, if_false] at h
        rcases List.mem_cons.mp h with h | h
        · exact .inr ⟨h, hv⟩
        · exact .inl h
    · by_cases h2 : a = d.1
      · by_cases hv : v = unlisted
        · simp only [memSet, h2, Nat.lt_irrefl, if_false, if_true, hv] at h
          exact .inl (by simp [h])
        · simp only [memSet, h2, Nat.lt_irrefl, if_false, if_true, hv] at h
          rcases List.mem_cons.mp h with h | h
          · exact .inr ⟨by rw [h, h2], hv⟩
          · exact .inl (by simp [h])
      · simp only [memSet, h1, h2, if_false] at h
        rcases List.mem_cons.mp h with h | h
        · exact .inl (by simp [h])
        · rcases ih h with h | h
          · exact .inl (by simp [h])
          · exact .inr h

/-- A write keeps the canonical form. -/
theorem memSet_wf (a : Nat) (v : Byte) (m : List Host.Cell) (h : memWf m) : memWf (memSet a v m) := by
  induction m with
  | nil => by_cases hv : v = unlisted <;> simp [memSet, memWf, hv]
  | cons c rest ih =>
    obtain ⟨hs, hn⟩ := h
    have hs' := List.pairwise_cons.mp hs
    have hr : memWf rest := ⟨hs'.2, fun d hd => hn d (by simp [hd])⟩
    by_cases h1 : a < c.1
    · by_cases hv : v = unlisted
      · simp only [memSet, h1, if_true, hv]
        exact ⟨hs, hn⟩
      · simp only [memSet, h1, if_true, hv, if_false]
        refine ⟨List.pairwise_cons.mpr ⟨fun d hd => ?_, hs⟩, fun d hd => ?_⟩
        · rcases List.mem_cons.mp hd with rfl | hd
          · exact h1
          · exact Nat.lt_trans h1 (hs'.1 d hd)
        · rcases List.mem_cons.mp hd with rfl | hd
          · exact hv
          · exact hn d hd
    · by_cases h2 : a = c.1
      · by_cases hv : v = unlisted
        · simp only [memSet, h2, Nat.lt_irrefl, if_false, if_true, hv]
          exact hr
        · simp only [memSet, h2, Nat.lt_irrefl, if_false, if_true, hv]
          refine ⟨List.pairwise_cons.mpr ⟨hs'.1, hs'.2⟩, fun d hd => ?_⟩
          rcases List.mem_cons.mp hd with rfl | hd
          · exact hv
          · exact hr.2 d hd
      · simp only [memSet, h1, h2, if_false]
        obtain ⟨ih1, ih2⟩ := ih hr
        refine ⟨List.pairwise_cons.mpr ⟨fun d hd => ?_, ih1⟩, fun d hd => ?_⟩
        · rcases mem_memSet a v rest d hd with hd | ⟨rfl, _⟩
          · exact hs'.1 d hd
          · simp only
            omega
        · rcases List.mem_cons.mp hd with e | hd
          · exact hn d (by simp [e])
          · exact ih2 d hd

/-- A wide write keeps the canonical form. -/
theorem storeCells_wf (cfg : Params) (n a v : Nat) (m : List Host.Cell) (h : memWf m) :
    memWf (storeCells cfg a n v m) := by
  induction n generalizing a v m with
  | zero => exact h
  | succ n ih => exact ih _ _ _ (memSet_wf _ _ _ h)

/-- A wide write leaves every cell outside its bytes alone. -/
theorem memGet_storeCells_other (cfg : Params) (n a v p : Nat) (m : List Host.Cell) (h : memWf m)
    (hp : ∀ k, k < n → p ≠ cfg.a20.apply (a + k)) : memGet p (storeCells cfg a n v m) = memGet p m := by
  induction n generalizing a v m with
  | zero => rfl
  | succ n ih =>
    have h0 := hp 0 (by omega)
    simp only [storeCells]
    rw [ih _ _ _ (memSet_wf _ _ _ h) (fun k hk => by
      have := hp (k + 1) (by omega)
      rwa [show a + 1 + k = a + (k + 1) by omega])]
    exact memGet_memSet_other _ _ _ _ h h0

/-- The cells after a wide write lie at old places or at its bytes. -/
theorem mem_storeCells (cfg : Params) (n a v : Nat) (m : List Host.Cell) (c : Host.Cell)
    (h : c ∈ storeCells cfg a n v m) : c ∈ m ∨ ∃ k, k < n ∧ c.1 = cfg.a20.apply (a + k) := by
  induction n generalizing a v m with
  | zero => exact .inl h
  | succ n ih =>
    rcases ih _ _ _ h with h | ⟨k, hk, e⟩
    · rcases mem_memSet _ _ _ _ h with h | ⟨e, _⟩
      · exact .inl h
      · exact .inr ⟨0, by omega, by simp [e]⟩
    · exact .inr ⟨k + 1, by omega, by rw [e, show a + 1 + k = a + (k + 1) by omega]⟩

/-- A wide write is read back byte by byte, when the transform keeps its bytes apart. -/
theorem memGet_storeCells_byte (cfg : Params) (n a v : Nat) (m : List Host.Cell) (h : memWf m) (k : Nat) (hk : k < n)
    (inj : ∀ i j, i < n → j < n → cfg.a20.apply (a + i) = cfg.a20.apply (a + j) → i = j) :
    memGet (cfg.a20.apply (a + k)) (storeCells cfg a n v m) = BitVec.ofNat 8 (v / 256 ^ k) := by
  induction n generalizing a v m k with
  | zero => omega
  | succ n ih =>
    simp only [storeCells]
    rcases k with _ | k
    · rw [memGet_storeCells_other _ _ _ _ _ _ (memSet_wf _ _ _ h) (fun k hk e => by
        have := inj 0 (k + 1) (by omega) (by omega) (by rw [Nat.add_zero, ← Nat.add_assoc, Nat.add_right_comm]; exact e)
        omega)]
      simp only [Nat.add_zero, Nat.pow_zero, Nat.div_one]
      exact memGet_memSet_same _ _ _ h
    · have := ih (a + 1) (v / 256) _ (memSet_wf (cfg.a20.apply a) (BitVec.ofNat 8 v) m h) k (by omega)
        (fun i j hi hj e => by
          have := inj (i + 1) (j + 1) (by omega) (by omega)
            (by rwa [show a + (i + 1) = a + 1 + i by omega, show a + (j + 1) = a + 1 + j by omega])
          omega)
      rw [show a + (k + 1) = a + 1 + k by omega, this, Nat.pow_succ, Nat.mul_comm, Nat.div_div_eq_div_mul]

/-- `inMem` says of each byte that it lies inside memory (R74). -/
theorem inMem_iff (s : State) (a n : Nat) : s.inMem a n = true ↔ ∀ k, k < n → s.phys (a + k) < s.cfg.memSize := by
  induction n generalizing a with
  | zero => simp [State.inMem]
  | succ n ih =>
    simp only [State.inMem, Bool.and_eq_true, decide_eq_true_eq, ih]
    constructor
    · rintro ⟨h0, h1⟩ k hk
      rcases k with _ | k
      · exact h0
      · have := h1 k (by omega)
        rwa [show a + 1 + k = a + (k + 1) by omega] at this
    · intro h
      refine ⟨h 0 (by omega), fun k hk => ?_⟩
      have := h (k + 1) (by omega)
      rwa [show a + (k + 1) = a + 1 + k by omega] at this

/-- A load's number fits its bytes. -/
theorem loadNat_lt (s : State) (a n : Nat) : s.loadNat a n < 2 ^ (8 * n) := by
  induction n generalizing a with
  | zero => simp [State.loadNat]
  | succ n ih =>
    have := ih (a + 1)
    have h := (s.byteAt (s.phys a)).isLt
    simp only [State.loadNat]
    rw [show 8 * (n + 1) = 8 * n + 8 by omega, Nat.pow_add]
    omega

/-- No bit of a load is cut off. -/
theorem load_toNat (s : State) (a : Nat) (w : Width) : (s.load a w).toNat = s.loadNat a w.bytes := by
  have h := loadNat_lt s a w.bytes
  rw [State.load, BitVec.toNat_ofNat, Nat.mod_eq_of_lt]
  cases w <;> exact h

/-- Where the parameters cover the core's address space, every access lies inside memory. -/
theorem inMem_of_covers (s : State) (hc : s.cfg.covers) (a n : Nat) (h : a + n ≤ 0x110000) : s.inMem a n = true :=
  (inMem_iff s a n).mpr fun k hk => hc (a + k) (by omega)

/-- `Lin(seg, off)` is at most 0x10FFEF (R72). -/
theorem lin_le (seg off : Word) : lin seg off ≤ 0x10FFEF := by
  have h1 := seg.isLt
  have h2 := off.isLt
  unfold lin
  omega

end Sys2Proof.Machine
end

