-- ==== Sys2Proof/Laws/Registers.lean ====
section
/-! SUPPORT. Laws of the register file: a cell read after a write of a cell, a view read after a write of the same
view, and the bits a narrow write leaves (`10_state.md` R20 to R26). -/

namespace Sys2Proof.Machine

@[simp] theorem Gprs.cell_setCell_same (g : Gprs) (r : Gpr) (v : DWord) : (g.setCell r v).cell r = v := by
  cases r <;> rfl

theorem Gprs.cell_setCell_other (g : Gprs) (r q : Gpr) (v : DWord) (h : q ≠ r) : (g.setCell r v).cell q = g.cell q := by
  cases r <;> cases q <;> first | rfl | exact absurd rfl h

/-- A write of a view changes no other cell. -/
theorem Gprs.cell_write_other (g : Gprs) (w : Width) (r q : Gpr) (v : BitVec w.bits) (h : q ≠ viewCell w r) :
    (g.write w r v).cell q = g.cell q := by
  cases w <;> exact Gprs.cell_setCell_other g _ q _ h

/-- A 32-bit write replaces the cell (R21). -/
@[simp] theorem Gprs.cell_write32 (g : Gprs) (r : Gpr) (v : DWord) : (g.write .w32 r v).cell r = v :=
  Gprs.cell_setCell_same g r v

/-- A 16-bit write keeps bits 31:16 (R22). -/
@[simp] theorem Gprs.cell_write16 (g : Gprs) (r : Gpr) (v : Word) :
    (g.write .w16 r v).cell r = withWord0 (g.cell r) v := Gprs.cell_setCell_same g r _

/-- An 8-bit write of AL, CL, DL, BL keeps bits 31:8, one of AH, CH, DH, BH all but bits 15:8 (R23). -/
theorem Gprs.cell_write8 (g : Gprs) (r : Gpr) (v : Byte) :
    (g.write .w8 r v).cell (byteCell r).1 =
      if (byteCell r).2 then withByte1 (g.cell (byteCell r).1) v else withByte0 (g.cell (byteCell r).1) v :=
  Gprs.cell_setCell_same g _ _

theorem withWord0_low (c : DWord) (v : Word) : (withWord0 c v).extractLsb' 0 16 = v := by
  ext i hi
  simp only [BitVec.getElem_extractLsb', Nat.zero_add]
  exact BitVec.getLsbD_append.trans (by simp [hi])

theorem withByte0_low (c : DWord) (v : Byte) : (withByte0 c v).extractLsb' 0 8 = v := by
  ext i hi
  simp only [BitVec.getElem_extractLsb', Nat.zero_add]
  exact BitVec.getLsbD_append.trans (by simp [hi])

theorem withByte1_high (c : DWord) (v : Byte) : (withByte1 c v).extractLsb' 8 8 = v := by
  ext i hi
  simp only [BitVec.getElem_extractLsb']
  refine BitVec.getLsbD_append.trans ?_
  have h : ¬ 8 + i < 8 := by omega
  simp only [h, if_false, Nat.add_sub_cancel_left]
  exact BitVec.getLsbD_append.trans (by simp [hi])

/-- A view read after a write of that view gives the value written (R21 to R23). -/
@[simp] theorem Gprs.read_write_same (g : Gprs) (w : Width) (r : Gpr) (v : BitVec w.bits) :
    (g.write w r v).read w r = v := by
  cases w with
  | w8 =>
    simp only [Gprs.read, Gprs.cell_write8]
    by_cases h : (byteCell r).2 = true
    · simpa [h] using withByte1_high _ v
    · simpa [h] using withByte0_low _ v
  | w16 =>
    simp only [Gprs.read, Gprs.cell_write16]
    exact withWord0_low _ v
  | w32 => exact Gprs.cell_write32 g r v

/-- A write of a view changes no view of another cell. -/
theorem Gprs.read_write_other (g : Gprs) (w x : Width) (r q : Gpr) (v : BitVec w.bits) (h : viewCell x q ≠ viewCell w r) :
    (g.write w r v).read x q = g.read x q := by
  cases x with
  | w8 => simp only [Gprs.read]; rw [Gprs.cell_write_other g w r (byteCell q).1 v h]
  | w16 => simp only [Gprs.read]; rw [Gprs.cell_write_other g w r q v h]
  | w32 => simp only [Gprs.read]; rw [Gprs.cell_write_other g w r q v h]

@[simp] theorem Segs.get_set_same (g : Segs) (r : SReg) (v : Word) : (g.set r v).get r = v := by cases r <;> rfl

theorem Segs.get_set_other (g : Segs) (r q : SReg) (v : Word) (h : q ≠ r) : (g.set r v).get q = g.get q := by
  cases r <;> cases q <;> first | rfl | exact absurd rfl h

/-- Two register files with the same cells are the same. -/
theorem Gprs.ext_cell (g h : Gprs) (e : ∀ r, g.cell r = h.cell r) : g = h := by
  have h0 := e .ax
  have h1 := e .cx
  have h2 := e .dx
  have h3 := e .bx
  have h4 := e .sp
  have h5 := e .bp
  have h6 := e .si
  have h7 := e .di
  cases g
  cases h
  simp only [Gprs.cell] at h0 h1 h2 h3 h4 h5 h6 h7
  simp [h0, h1, h2, h3, h4, h5, h6, h7]

end Sys2Proof.Machine
end

