-- ==== Sys2Proof/Laws/State.lean ====
section
/-! SUPPORT. One lemma per field per update of State: what an update leaves, and what it writes, so that no proof
unfolds a record update. -/

namespace Sys2Proof.Machine

open Sys2Proof.Config

/-! ### `setSp` -/
@[simp] theorem State.setSp_gpr (s : State) (v : Word) : (s.setSp v).gpr = s.gpr.write .w16 .sp v := rfl
@[simp] theorem State.setSp_seg (s : State) (v : Word) : (s.setSp v).seg = s.seg := rfl
@[simp] theorem State.setSp_ip (s : State) (v : Word) : (s.setSp v).ip = s.ip := rfl
@[simp] theorem State.setSp_flags (s : State) (v : Word) : (s.setSp v).flags = s.flags := rfl
@[simp] theorem State.setSp_run (s : State) (v : Word) : (s.setSp v).run = s.run := rfl
@[simp] theorem State.setSp_depth (s : State) (v : Word) : (s.setSp v).depth = s.depth := rfl
@[simp] theorem State.setSp_mem (s : State) (v : Word) : (s.setSp v).mem = s.mem := rfl
@[simp] theorem State.setSp_dec (s : State) (v : Word) : (s.setSp v).dec = s.dec := rfl
@[simp] theorem State.setSp_inputs (s : State) (v : Word) : (s.setSp v).inputs = s.inputs := rfl
@[simp] theorem State.setSp_inta (s : State) (v : Word) : (s.setSp v).inta = s.inta := rfl
@[simp] theorem State.setSp_draws (s : State) (v : Word) : (s.setSp v).draws = s.draws := rfl
@[simp] theorem State.setSp_cfg (s : State) (v : Word) : (s.setSp v).cfg = s.cfg := rfl

/-! ### `advance` -/
@[simp] theorem State.advance_gpr (s : State) : (s.advance).gpr = s.gpr := rfl
@[simp] theorem State.advance_seg (s : State) : (s.advance).seg = s.seg := rfl
@[simp] theorem State.advance_ip (s : State) : (s.advance).ip = s.nextIp := rfl
@[simp] theorem State.advance_flags (s : State) : (s.advance).flags = s.flags := rfl
@[simp] theorem State.advance_run (s : State) : (s.advance).run = s.run := rfl
@[simp] theorem State.advance_depth (s : State) : (s.advance).depth = s.depth := rfl
@[simp] theorem State.advance_mem (s : State) : (s.advance).mem = s.mem := rfl
@[simp] theorem State.advance_dec (s : State) : (s.advance).dec = s.dec := rfl
@[simp] theorem State.advance_inputs (s : State) : (s.advance).inputs = s.inputs := rfl
@[simp] theorem State.advance_inta (s : State) : (s.advance).inta = s.inta := rfl
@[simp] theorem State.advance_draws (s : State) : (s.advance).draws = s.draws := rfl
@[simp] theorem State.advance_cfg (s : State) : (s.advance).cfg = s.cfg := rfl

/-! ### `jumpRel` -/
@[simp] theorem State.jumpRel_gpr (s : State) (r : Word) : (s.jumpRel r).gpr = s.gpr := rfl
@[simp] theorem State.jumpRel_seg (s : State) (r : Word) : (s.jumpRel r).seg = s.seg := rfl
@[simp] theorem State.jumpRel_ip (s : State) (r : Word) : (s.jumpRel r).ip = s.nextIp + r := rfl
@[simp] theorem State.jumpRel_flags (s : State) (r : Word) : (s.jumpRel r).flags = s.flags := rfl
@[simp] theorem State.jumpRel_run (s : State) (r : Word) : (s.jumpRel r).run = s.run := rfl
@[simp] theorem State.jumpRel_depth (s : State) (r : Word) : (s.jumpRel r).depth = s.depth := rfl
@[simp] theorem State.jumpRel_mem (s : State) (r : Word) : (s.jumpRel r).mem = s.mem := rfl
@[simp] theorem State.jumpRel_dec (s : State) (r : Word) : (s.jumpRel r).dec = s.dec := rfl
@[simp] theorem State.jumpRel_inputs (s : State) (r : Word) : (s.jumpRel r).inputs = s.inputs := rfl
@[simp] theorem State.jumpRel_inta (s : State) (r : Word) : (s.jumpRel r).inta = s.inta := rfl
@[simp] theorem State.jumpRel_draws (s : State) (r : Word) : (s.jumpRel r).draws = s.draws := rfl
@[simp] theorem State.jumpRel_cfg (s : State) (r : Word) : (s.jumpRel r).cfg = s.cfg := rfl

/-! ### `store` -/
@[simp] theorem State.store_gpr (s : State) (a : Nat) (w : Width) (v : BitVec w.bits) :
    (s.store a w v).gpr = s.gpr := rfl
@[simp] theorem State.store_seg (s : State) (a : Nat) (w : Width) (v : BitVec w.bits) :
    (s.store a w v).seg = s.seg := rfl
@[simp] theorem State.store_ip (s : State) (a : Nat) (w : Width) (v : BitVec w.bits) :
    (s.store a w v).ip = s.ip := rfl
@[simp] theorem State.store_flags (s : State) (a : Nat) (w : Width) (v : BitVec w.bits) :
    (s.store a w v).flags = s.flags := rfl
@[simp] theorem State.store_run (s : State) (a : Nat) (w : Width) (v : BitVec w.bits) :
    (s.store a w v).run = s.run := rfl
@[simp] theorem State.store_depth (s : State) (a : Nat) (w : Width) (v : BitVec w.bits) :
    (s.store a w v).depth = s.depth := rfl
@[simp] theorem State.store_mem (s : State) (a : Nat) (w : Width) (v : BitVec w.bits) :
    (s.store a w v).mem = storeCells s.cfg a w.bytes v.toNat s.mem := rfl
@[simp] theorem State.store_dec (s : State) (a : Nat) (w : Width) (v : BitVec w.bits) :
    (s.store a w v).dec = s.dec := rfl
@[simp] theorem State.store_inputs (s : State) (a : Nat) (w : Width) (v : BitVec w.bits) :
    (s.store a w v).inputs = s.inputs := rfl
@[simp] theorem State.store_inta (s : State) (a : Nat) (w : Width) (v : BitVec w.bits) :
    (s.store a w v).inta = s.inta := rfl
@[simp] theorem State.store_draws (s : State) (a : Nat) (w : Width) (v : BitVec w.bits) :
    (s.store a w v).draws = s.draws := rfl
@[simp] theorem State.store_cfg (s : State) (a : Nat) (w : Width) (v : BitVec w.bits) :
    (s.store a w v).cfg = s.cfg := rfl

/-! ### `push16` -/
@[simp] theorem State.push16_gpr (s : State) (v : Word) : (s.push16 v).gpr = s.gpr.write .w16 .sp (s.sp - 2) := rfl
@[simp] theorem State.push16_seg (s : State) (v : Word) : (s.push16 v).seg = s.seg := rfl
@[simp] theorem State.push16_ip (s : State) (v : Word) : (s.push16 v).ip = s.ip := rfl
@[simp] theorem State.push16_flags (s : State) (v : Word) : (s.push16 v).flags = s.flags := rfl
@[simp] theorem State.push16_run (s : State) (v : Word) : (s.push16 v).run = s.run := rfl
@[simp] theorem State.push16_depth (s : State) (v : Word) : (s.push16 v).depth = s.depth := rfl
@[simp] theorem State.push16_mem (s : State) (v : Word) :
    (s.push16 v).mem = storeCells s.cfg (lin s.seg.ss ((s.setSp (s.sp - 2)).sp)) 2 v.toNat s.mem := rfl
@[simp] theorem State.push16_dec (s : State) (v : Word) : (s.push16 v).dec = s.dec := rfl
@[simp] theorem State.push16_inputs (s : State) (v : Word) : (s.push16 v).inputs = s.inputs := rfl
@[simp] theorem State.push16_inta (s : State) (v : Word) : (s.push16 v).inta = s.inta := rfl
@[simp] theorem State.push16_draws (s : State) (v : Word) : (s.push16 v).draws = s.draws := rfl
@[simp] theorem State.push16_cfg (s : State) (v : Word) : (s.push16 v).cfg = s.cfg := rfl

/-! ### `pop16` -/
@[simp] theorem State.pop16_gpr (s : State) : (s.pop16).gpr = s.gpr.write .w16 .sp (s.sp + 2) := rfl
@[simp] theorem State.pop16_seg (s : State) : (s.pop16).seg = s.seg := rfl
@[simp] theorem State.pop16_ip (s : State) : (s.pop16).ip = s.ip := rfl
@[simp] theorem State.pop16_flags (s : State) : (s.pop16).flags = s.flags := rfl
@[simp] theorem State.pop16_run (s : State) : (s.pop16).run = s.run := rfl
@[simp] theorem State.pop16_depth (s : State) : (s.pop16).depth = s.depth := rfl
@[simp] theorem State.pop16_mem (s : State) : (s.pop16).mem = s.mem := rfl
@[simp] theorem State.pop16_dec (s : State) : (s.pop16).dec = s.dec := rfl
@[simp] theorem State.pop16_inputs (s : State) : (s.pop16).inputs = s.inputs := rfl
@[simp] theorem State.pop16_inta (s : State) : (s.pop16).inta = s.inta := rfl
@[simp] theorem State.pop16_draws (s : State) : (s.pop16).draws = s.draws := rfl
@[simp] theorem State.pop16_cfg (s : State) : (s.pop16).cfg = s.cfg := rfl

/-! ### `poke` -/
@[simp] theorem State.poke_seg (s : State) (w : Width) (p : Place) (v : BitVec w.bits) :
    (s.poke w p v).seg = s.seg := by cases p <;> rfl
@[simp] theorem State.poke_ip (s : State) (w : Width) (p : Place) (v : BitVec w.bits) :
    (s.poke w p v).ip = s.ip := by cases p <;> rfl
@[simp] theorem State.poke_flags (s : State) (w : Width) (p : Place) (v : BitVec w.bits) :
    (s.poke w p v).flags = s.flags := by cases p <;> rfl
@[simp] theorem State.poke_run (s : State) (w : Width) (p : Place) (v : BitVec w.bits) :
    (s.poke w p v).run = s.run := by cases p <;> rfl
@[simp] theorem State.poke_depth (s : State) (w : Width) (p : Place) (v : BitVec w.bits) :
    (s.poke w p v).depth = s.depth := by cases p <;> rfl
@[simp] theorem State.poke_dec (s : State) (w : Width) (p : Place) (v : BitVec w.bits) :
    (s.poke w p v).dec = s.dec := by cases p <;> rfl
@[simp] theorem State.poke_inputs (s : State) (w : Width) (p : Place) (v : BitVec w.bits) :
    (s.poke w p v).inputs = s.inputs := by cases p <;> rfl
@[simp] theorem State.poke_inta (s : State) (w : Width) (p : Place) (v : BitVec w.bits) :
    (s.poke w p v).inta = s.inta := by cases p <;> rfl
@[simp] theorem State.poke_draws (s : State) (w : Width) (p : Place) (v : BitVec w.bits) :
    (s.poke w p v).draws = s.draws := by cases p <;> rfl
@[simp] theorem State.poke_cfg (s : State) (w : Width) (p : Place) (v : BitVec w.bits) :
    (s.poke w p v).cfg = s.cfg := by cases p <;> rfl

/-! ### `writeRm` -/
@[simp] theorem State.writeRm_seg (s : State) (w : Width) (e : Rm) (v : BitVec w.bits) :
    (s.writeRm w e v).seg = s.seg := by simp [State.writeRm]
@[simp] theorem State.writeRm_ip (s : State) (w : Width) (e : Rm) (v : BitVec w.bits) :
    (s.writeRm w e v).ip = s.ip := by simp [State.writeRm]
@[simp] theorem State.writeRm_flags (s : State) (w : Width) (e : Rm) (v : BitVec w.bits) :
    (s.writeRm w e v).flags = s.flags := by simp [State.writeRm]
@[simp] theorem State.writeRm_run (s : State) (w : Width) (e : Rm) (v : BitVec w.bits) :
    (s.writeRm w e v).run = s.run := by simp [State.writeRm]
@[simp] theorem State.writeRm_depth (s : State) (w : Width) (e : Rm) (v : BitVec w.bits) :
    (s.writeRm w e v).depth = s.depth := by simp [State.writeRm]
@[simp] theorem State.writeRm_dec (s : State) (w : Width) (e : Rm) (v : BitVec w.bits) :
    (s.writeRm w e v).dec = s.dec := by simp [State.writeRm]
@[simp] theorem State.writeRm_inputs (s : State) (w : Width) (e : Rm) (v : BitVec w.bits) :
    (s.writeRm w e v).inputs = s.inputs := by simp [State.writeRm]
@[simp] theorem State.writeRm_inta (s : State) (w : Width) (e : Rm) (v : BitVec w.bits) :
    (s.writeRm w e v).inta = s.inta := by simp [State.writeRm]
@[simp] theorem State.writeRm_draws (s : State) (w : Width) (e : Rm) (v : BitVec w.bits) :
    (s.writeRm w e v).draws = s.draws := by simp [State.writeRm]
@[simp] theorem State.writeRm_cfg (s : State) (w : Width) (e : Rm) (v : BitVec w.bits) :
    (s.writeRm w e v).cfg = s.cfg := by simp [State.writeRm]

/-! ### `writeFlags` -/
@[simp] theorem State.writeFlags_gpr (s : State) (fw : FlagWrites) (ns : List FlagName) :
    (s.writeFlags fw ns).gpr = s.gpr := by unfold State.writeFlags; split <;> rfl
@[simp] theorem State.writeFlags_seg (s : State) (fw : FlagWrites) (ns : List FlagName) :
    (s.writeFlags fw ns).seg = s.seg := by unfold State.writeFlags; split <;> rfl
@[simp] theorem State.writeFlags_ip (s : State) (fw : FlagWrites) (ns : List FlagName) :
    (s.writeFlags fw ns).ip = s.ip := by unfold State.writeFlags; split <;> rfl
@[simp] theorem State.writeFlags_run (s : State) (fw : FlagWrites) (ns : List FlagName) :
    (s.writeFlags fw ns).run = s.run := by unfold State.writeFlags; split <;> rfl
@[simp] theorem State.writeFlags_depth (s : State) (fw : FlagWrites) (ns : List FlagName) :
    (s.writeFlags fw ns).depth = s.depth := by unfold State.writeFlags; split <;> rfl
@[simp] theorem State.writeFlags_mem (s : State) (fw : FlagWrites) (ns : List FlagName) :
    (s.writeFlags fw ns).mem = s.mem := by unfold State.writeFlags; split <;> rfl
@[simp] theorem State.writeFlags_dec (s : State) (fw : FlagWrites) (ns : List FlagName) :
    (s.writeFlags fw ns).dec = s.dec := by unfold State.writeFlags; split <;> rfl
@[simp] theorem State.writeFlags_inputs (s : State) (fw : FlagWrites) (ns : List FlagName) :
    (s.writeFlags fw ns).inputs = s.inputs := by unfold State.writeFlags; split <;> rfl
@[simp] theorem State.writeFlags_inta (s : State) (fw : FlagWrites) (ns : List FlagName) :
    (s.writeFlags fw ns).inta = s.inta := by unfold State.writeFlags; split <;> rfl
@[simp] theorem State.writeFlags_cfg (s : State) (fw : FlagWrites) (ns : List FlagName) :
    (s.writeFlags fw ns).cfg = s.cfg := by unfold State.writeFlags; split <;> rfl

/-! ### `writeDouble` -/
@[simp] theorem State.writeDouble_seg (s : State) (w : Width) (v : BitVec (2 * w.bits)) :
    (s.writeDouble w v).seg = s.seg := by cases w <;> rfl
@[simp] theorem State.writeDouble_ip (s : State) (w : Width) (v : BitVec (2 * w.bits)) :
    (s.writeDouble w v).ip = s.ip := by cases w <;> rfl
@[simp] theorem State.writeDouble_flags (s : State) (w : Width) (v : BitVec (2 * w.bits)) :
    (s.writeDouble w v).flags = s.flags := by cases w <;> rfl
@[simp] theorem State.writeDouble_run (s : State) (w : Width) (v : BitVec (2 * w.bits)) :
    (s.writeDouble w v).run = s.run := by cases w <;> rfl
@[simp] theorem State.writeDouble_depth (s : State) (w : Width) (v : BitVec (2 * w.bits)) :
    (s.writeDouble w v).depth = s.depth := by cases w <;> rfl
@[simp] theorem State.writeDouble_mem (s : State) (w : Width) (v : BitVec (2 * w.bits)) :
    (s.writeDouble w v).mem = s.mem := by cases w <;> rfl
@[simp] theorem State.writeDouble_dec (s : State) (w : Width) (v : BitVec (2 * w.bits)) :
    (s.writeDouble w v).dec = s.dec := by cases w <;> rfl
@[simp] theorem State.writeDouble_inputs (s : State) (w : Width) (v : BitVec (2 * w.bits)) :
    (s.writeDouble w v).inputs = s.inputs := by cases w <;> rfl
@[simp] theorem State.writeDouble_inta (s : State) (w : Width) (v : BitVec (2 * w.bits)) :
    (s.writeDouble w v).inta = s.inta := by cases w <;> rfl
@[simp] theorem State.writeDouble_draws (s : State) (w : Width) (v : BitVec (2 * w.bits)) :
    (s.writeDouble w v).draws = s.draws := by cases w <;> rfl
@[simp] theorem State.writeDouble_cfg (s : State) (w : Width) (v : BitVec (2 * w.bits)) :
    (s.writeDouble w v).cfg = s.cfg := by cases w <;> rfl

/-! ### `writeQuotRem` -/
@[simp] theorem State.writeQuotRem_seg (s : State) (w : Width) (d : DivOut w.bits) :
    (s.writeQuotRem w d).seg = s.seg := by cases w <;> rfl
@[simp] theorem State.writeQuotRem_ip (s : State) (w : Width) (d : DivOut w.bits) :
    (s.writeQuotRem w d).ip = s.ip := by cases w <;> rfl
@[simp] theorem State.writeQuotRem_flags (s : State) (w : Width) (d : DivOut w.bits) :
    (s.writeQuotRem w d).flags = s.flags := by cases w <;> rfl
@[simp] theorem State.writeQuotRem_run (s : State) (w : Width) (d : DivOut w.bits) :
    (s.writeQuotRem w d).run = s.run := by cases w <;> rfl
@[simp] theorem State.writeQuotRem_depth (s : State) (w : Width) (d : DivOut w.bits) :
    (s.writeQuotRem w d).depth = s.depth := by cases w <;> rfl
@[simp] theorem State.writeQuotRem_mem (s : State) (w : Width) (d : DivOut w.bits) :
    (s.writeQuotRem w d).mem = s.mem := by cases w <;> rfl
@[simp] theorem State.writeQuotRem_dec (s : State) (w : Width) (d : DivOut w.bits) :
    (s.writeQuotRem w d).dec = s.dec := by cases w <;> rfl
@[simp] theorem State.writeQuotRem_inputs (s : State) (w : Width) (d : DivOut w.bits) :
    (s.writeQuotRem w d).inputs = s.inputs := by cases w <;> rfl
@[simp] theorem State.writeQuotRem_inta (s : State) (w : Width) (d : DivOut w.bits) :
    (s.writeQuotRem w d).inta = s.inta := by cases w <;> rfl
@[simp] theorem State.writeQuotRem_draws (s : State) (w : Width) (d : DivOut w.bits) :
    (s.writeQuotRem w d).draws = s.draws := by cases w <;> rfl
@[simp] theorem State.writeQuotRem_cfg (s : State) (w : Width) (d : DivOut w.bits) :
    (s.writeQuotRem w d).cfg = s.cfg := by cases w <;> rfl

/-! ### `stopFatal` -/
@[simp] theorem State.stopFatal_gpr (s : State) (y : FatalReason) : (s.stopFatal y).gpr = s.gpr := rfl
@[simp] theorem State.stopFatal_seg (s : State) (y : FatalReason) : (s.stopFatal y).seg = s.seg := rfl
@[simp] theorem State.stopFatal_ip (s : State) (y : FatalReason) : (s.stopFatal y).ip = s.ip := rfl
@[simp] theorem State.stopFatal_flags (s : State) (y : FatalReason) : (s.stopFatal y).flags = s.flags := rfl
@[simp] theorem State.stopFatal_run (s : State) (y : FatalReason) : (s.stopFatal y).run = .stopped y := rfl
@[simp] theorem State.stopFatal_depth (s : State) (y : FatalReason) : (s.stopFatal y).depth = s.depth := rfl
@[simp] theorem State.stopFatal_mem (s : State) (y : FatalReason) : (s.stopFatal y).mem = s.mem := rfl
@[simp] theorem State.stopFatal_dec (s : State) (y : FatalReason) : (s.stopFatal y).dec = s.dec := rfl
@[simp] theorem State.stopFatal_inputs (s : State) (y : FatalReason) : (s.stopFatal y).inputs = s.inputs := rfl
@[simp] theorem State.stopFatal_inta (s : State) (y : FatalReason) : (s.stopFatal y).inta = s.inta := rfl
@[simp] theorem State.stopFatal_draws (s : State) (y : FatalReason) : (s.stopFatal y).draws = s.draws := rfl
@[simp] theorem State.stopFatal_cfg (s : State) (y : FatalReason) : (s.stopFatal y).cfg = s.cfg := rfl

/-! ### `sampled` -/
@[simp] theorem State.sampled_gpr (s : State) : (s.sampled).gpr = s.gpr := rfl
@[simp] theorem State.sampled_seg (s : State) : (s.sampled).seg = s.seg := rfl
@[simp] theorem State.sampled_ip (s : State) : (s.sampled).ip = s.ip := rfl
@[simp] theorem State.sampled_flags (s : State) : (s.sampled).flags = s.flags := rfl
@[simp] theorem State.sampled_run (s : State) : (s.sampled).run = s.run := rfl
@[simp] theorem State.sampled_depth (s : State) : (s.sampled).depth = s.depth := rfl
@[simp] theorem State.sampled_mem (s : State) : (s.sampled).mem = s.mem := rfl
@[simp] theorem State.sampled_dec (s : State) : (s.sampled).dec = .idle := rfl
@[simp] theorem State.sampled_inputs (s : State) : (s.sampled).inputs = s.inputs.tail := rfl
@[simp] theorem State.sampled_inta (s : State) : (s.sampled).inta = false := rfl
@[simp] theorem State.sampled_draws (s : State) : (s.sampled).draws = s.draws := rfl
@[simp] theorem State.sampled_cfg (s : State) : (s.sampled).cfg = s.cfg := rfl

/-! ### `maskIntr` -/
@[simp] theorem State.maskIntr_gpr (s : State) : (s.maskIntr).gpr = s.gpr := rfl
@[simp] theorem State.maskIntr_seg (s : State) : (s.maskIntr).seg = s.seg := rfl
@[simp] theorem State.maskIntr_ip (s : State) : (s.maskIntr).ip = s.ip := rfl
@[simp] theorem State.maskIntr_flags (s : State) : (s.maskIntr).flags = { s.flags with ifl := false, tf := false } := rfl
@[simp] theorem State.maskIntr_run (s : State) : (s.maskIntr).run = s.run := rfl
@[simp] theorem State.maskIntr_depth (s : State) : (s.maskIntr).depth = s.depth := rfl
@[simp] theorem State.maskIntr_mem (s : State) : (s.maskIntr).mem = s.mem := rfl
@[simp] theorem State.maskIntr_dec (s : State) : (s.maskIntr).dec = s.dec := rfl
@[simp] theorem State.maskIntr_inputs (s : State) : (s.maskIntr).inputs = s.inputs := rfl
@[simp] theorem State.maskIntr_inta (s : State) : (s.maskIntr).inta = s.inta := rfl
@[simp] theorem State.maskIntr_draws (s : State) : (s.maskIntr).draws = s.draws := rfl
@[simp] theorem State.maskIntr_cfg (s : State) : (s.maskIntr).cfg = s.cfg := rfl

/-! ### `trapFrame` -/
@[simp] theorem State.trapFrame_seg (s : State) (ip' : Word) : (s.trapFrame ip').seg = s.seg := rfl
@[simp] theorem State.trapFrame_ip (s : State) (ip' : Word) : (s.trapFrame ip').ip = s.ip := rfl
@[simp] theorem State.trapFrame_flags (s : State) (ip' : Word) :
    (s.trapFrame ip').flags = { s.flags with ifl := false, tf := false } := rfl
@[simp] theorem State.trapFrame_run (s : State) (ip' : Word) : (s.trapFrame ip').run = s.run := rfl
@[simp] theorem State.trapFrame_depth (s : State) (ip' : Word) : (s.trapFrame ip').depth = s.depth := rfl
@[simp] theorem State.trapFrame_dec (s : State) (ip' : Word) : (s.trapFrame ip').dec = s.dec := rfl
@[simp] theorem State.trapFrame_inputs (s : State) (ip' : Word) : (s.trapFrame ip').inputs = s.inputs := rfl
@[simp] theorem State.trapFrame_inta (s : State) (ip' : Word) : (s.trapFrame ip').inta = s.inta := rfl
@[simp] theorem State.trapFrame_draws (s : State) (ip' : Word) : (s.trapFrame ip').draws = s.draws := rfl
@[simp] theorem State.trapFrame_cfg (s : State) (ip' : Word) : (s.trapFrame ip').cfg = s.cfg := rfl

/-! ### `trapped` -/
@[simp] theorem State.trapped_gpr (s : State) (n : Byte) (ip' : Word) :
    (s.trapped n ip').gpr = (s.trapFrame ip').gpr := rfl
@[simp] theorem State.trapped_seg (s : State) (n : Byte) (ip' : Word) :
    (s.trapped n ip').seg = { s.seg with cs := (s.trapFrame ip').load (4 * n.toNat + 2) .w16 } := rfl
@[simp] theorem State.trapped_ip (s : State) (n : Byte) (ip' : Word) :
    (s.trapped n ip').ip = (s.trapFrame ip').load (4 * n.toNat) .w16 := rfl
@[simp] theorem State.trapped_flags (s : State) (n : Byte) (ip' : Word) :
    (s.trapped n ip').flags = { s.flags with ifl := false, tf := false } := rfl
@[simp] theorem State.trapped_run (s : State) (n : Byte) (ip' : Word) : (s.trapped n ip').run = s.run := rfl
@[simp] theorem State.trapped_depth (s : State) (n : Byte) (ip' : Word) : (s.trapped n ip').depth = s.depth + 1 := rfl
@[simp] theorem State.trapped_mem (s : State) (n : Byte) (ip' : Word) :
    (s.trapped n ip').mem = (s.trapFrame ip').mem := rfl
@[simp] theorem State.trapped_dec (s : State) (n : Byte) (ip' : Word) : (s.trapped n ip').dec = s.dec := rfl
@[simp] theorem State.trapped_inputs (s : State) (n : Byte) (ip' : Word) : (s.trapped n ip').inputs = s.inputs := rfl
@[simp] theorem State.trapped_inta (s : State) (n : Byte) (ip' : Word) : (s.trapped n ip').inta = s.inta := rfl
@[simp] theorem State.trapped_draws (s : State) (n : Byte) (ip' : Word) : (s.trapped n ip').draws = s.draws := rfl
@[simp] theorem State.trapped_cfg (s : State) (n : Byte) (ip' : Word) : (s.trapped n ip').cfg = s.cfg := rfl

/-! ### `iretted` -/
@[simp] theorem State.iretted_gpr (s : State) : (s.iretted).gpr = s.pop16.pop16.pop16.gpr := rfl
@[simp] theorem State.iretted_seg (s : State) : (s.iretted).seg = { s.seg with cs := s.pop16.top16 } := rfl
@[simp] theorem State.iretted_ip (s : State) : (s.iretted).ip = s.top16 := rfl
@[simp] theorem State.iretted_flags (s : State) : (s.iretted).flags = Flags.ofImage s.pop16.pop16.top16 := rfl
@[simp] theorem State.iretted_run (s : State) : (s.iretted).run = s.run := rfl
@[simp] theorem State.iretted_depth (s : State) : (s.iretted).depth = s.depth - 1 := rfl
@[simp] theorem State.iretted_mem (s : State) : (s.iretted).mem = s.mem := rfl
@[simp] theorem State.iretted_dec (s : State) : (s.iretted).dec = s.dec := rfl
@[simp] theorem State.iretted_inputs (s : State) : (s.iretted).inputs = s.inputs := rfl
@[simp] theorem State.iretted_inta (s : State) : (s.iretted).inta = s.inta := rfl
@[simp] theorem State.iretted_draws (s : State) : (s.iretted).draws = s.draws := rfl
@[simp] theorem State.iretted_cfg (s : State) : (s.iretted).cfg = s.cfg := rfl

/-! ### What the writes of an `E` operand do to the two fields they may touch -/

@[simp] theorem State.poke_reg (s : State) (w : Width) (r : Gpr) (v : BitVec w.bits) :
    s.poke w (.reg r) v = { s with gpr := s.gpr.write w r v } := rfl

@[simp] theorem State.poke_mem (s : State) (w : Width) (a : Nat) (v : BitVec w.bits) :
    s.poke w (.mem a) v = s.store a w v := rfl

@[simp] theorem State.writeRm_reg (s : State) (w : Width) (r : Gpr) (v : BitVec w.bits) :
    s.writeRm w (.reg r) v = { s with gpr := s.gpr.write w r v } := rfl

@[simp] theorem State.writeRm_mem (s : State) (w : Width) (m : MemRef) (v : BitVec w.bits) :
    s.writeRm w (.mem m) v = s.store (s.linOf m) w v := rfl

@[simp] theorem State.readRm_reg (s : State) (w : Width) (r : Gpr) : s.readRm w (.reg r) = s.gpr.read w r := rfl

@[simp] theorem State.readRm_mem (s : State) (w : Width) (m : MemRef) : s.readRm w (.mem m) = s.load (s.linOf m) w := rfl

@[simp] theorem State.rmOk_reg (s : State) (w : Width) (r : Gpr) : s.rmOk w (.reg r) = true := rfl

@[simp] theorem State.rmOk_mem (s : State) (w : Width) (m : MemRef) : s.rmOk w (.mem m) = s.inMem (s.linOf m) w.bytes := rfl

/-! ### `writeFlags` on the two fields it may touch -/

/-- Under `as_specified` the flags are those of the write set (R9). -/
theorem State.writeFlags_flags_spec (s : State) (fw : FlagWrites) (ns : List FlagName)
    (h : s.cfg.undefFlagPolicy = .asSpecified) : (s.writeFlags fw ns).flags = fw.apply s.flags := by
  simp [State.writeFlags, h]

/-- Where the policy leaves nothing free the flags are those of the write set under either policy. -/
@[simp] theorem State.writeFlags_nil (s : State) (fw : FlagWrites) :
    s.writeFlags fw [] = { s with flags := fw.apply s.flags } := by
  simp [State.writeFlags]

@[simp] theorem State.writeFlags_ifl (s : State) (fw : FlagWrites) (ns : List FlagName) :
    (s.writeFlags fw ns).flags.ifl = s.flags.ifl := by unfold State.writeFlags; split <;> rfl

@[simp] theorem State.writeFlags_tf (s : State) (fw : FlagWrites) (ns : List FlagName) :
    (s.writeFlags fw ns).flags.tf = s.flags.tf := by unfold State.writeFlags; split <;> rfl

@[simp] theorem State.writeFlags_df (s : State) (fw : FlagWrites) (ns : List FlagName) :
    (s.writeFlags fw ns).flags.df = s.flags.df := by unfold State.writeFlags; split <;> rfl

/-- Two latches with the same nine flags are the same. -/
theorem Flags.ext_get (f g : Flags) (h : ∀ n, f.get n = g.get n) (ht : f.tf = g.tf) (hi : f.ifl = g.ifl)
    (hd : f.df = g.df) : f = g := by
  have h1 := h .cf
  have h2 := h .pf
  have h3 := h .af
  have h4 := h .zf
  have h5 := h .sf
  have h6 := h .ofl
  cases f
  cases g
  simp only [Flags.get] at h1 h2 h3 h4 h5 h6
  simp_all

/-- Everything a flag write can do: it changes the latch and the draw counter alone; a flag the policy does not leave
free has the value of the write set, and so has every flag under `as_specified`. -/
theorem State.writeFlags_cases (s : State) (fw : FlagWrites) (ns : List FlagName) :
    ∃ (fl : Flags) (k : Nat), s.writeFlags fw ns = { s with flags := fl, draws := k } ∧
      (s.specified ∨ ns = [] → fl = fw.apply s.flags ∧ k = s.draws) ∧
      (∀ n, n ∉ ns → fl.get n = (fw.apply s.flags).get n) ∧
      fl.tf = s.flags.tf ∧ fl.ifl = s.flags.ifl ∧ fl.df = s.flags.df := by
  by_cases h : s.cfg.undefFlagPolicy = .draw ∧ ns ≠ []
  · refine ⟨(fw.drawn s.draws ns).apply s.flags, s.draws + 1, by simp only [State.writeFlags, if_pos h], ?_, ?_, rfl, rfl,
      rfl⟩
    · rintro (e | e)
      · rw [State.specified, h.1] at e
        cases e
      · exact absurd e h.2
    · intro n hn
      cases n <;> simp [Flags.get, FlagWrites.apply, FlagWrites.drawn, hn]
  · exact ⟨fw.apply s.flags, s.draws, by simp only [State.writeFlags, if_neg h], fun _ => ⟨rfl, rfl⟩, fun _ _ => rfl, rfl,
      rfl, rfl⟩

/-- An operation that writes no flag and leaves none free leaves the latch as it was. -/
@[simp] theorem FlagWrites.apply_empty (f : Flags) : ({} : FlagWrites).apply f = f := rfl

/-! ### Reset -/

/-- A reset keeps memory, the parameters, the inputs to come and the draw counter; every register has its value of
R50. -/
theorem State.resetNow_eq (s : State) :
    s.resetNow = { State.reset with
      seg := { State.reset.seg with cs := s.cfg.entryCs }, ip := s.cfg.entryIp, mem := s.mem, inputs := s.inputs,
      draws := s.draws, cfg := s.cfg } := rfl

end Sys2Proof.Machine
end

