-- ==== Sys2Proof/Laws/Ops.lean ====
section
/-! SUPPORT. For each shared operation one lemma that says everything it can do, so that a proof about an
instruction cites it and never unfolds the operation; and that every operation that writes memory keeps its
canonical form and puts no cell outside memory. -/

namespace Sys2Proof.Machine

open Sys2Proof.Config

/-! ### What an operation can answer -/

theorem guardMem_next (ok : Bool) (t u : State) : guardMem ok t = .next u ↔ ok = true ∧ u = t := by
  cases ok <;> simp [guardMem, eq_comm]

theorem guardMem_fault (ok : Bool) (t : State) (f : Fault) : guardMem ok t = .fault f ↔ ok = false ∧ f = .outOfMemory := by
  cases ok <;> simp [guardMem, eq_comm]

theorem guardMem_refused (ok : Bool) (t : State) (r : Refusal) : guardMem ok t ≠ .refused r := by
  cases ok <;> simp [guardMem]

@[simp] theorem guardMem_true (t : State) : guardMem true t = .next t := rfl

theorem takeTrap_next (s t : State) (n : Byte) (ip' : Word) :
    takeTrap s n ip' = .next t ↔ s.trapOk n = true ∧ t = s.trapped n ip' := guardMem_next _ _ _

theorem raiseDivisionFault_next (s t : State) :
    raiseDivisionFault s = .next t ↔ s.trapOk 0 = true ∧ t = s.trapped 0 s.dec.ipStart := guardMem_next _ _ _

/-- InvalidOpcode: the fatal stop in strict mode, else the trap entry with vector 6 (R371). -/
theorem raiseInvalidOpcode_next (s t : State) :
    raiseInvalidOpcode s = .next t ↔
      (s.cfg.strictInvalid = true ∧ t = s.stopFatal .invalidOpcode) ∨
      (s.cfg.strictInvalid = false ∧ s.trapOk 6 = true ∧ t = s.trapped 6 s.dec.ipStart) := by
  unfold raiseInvalidOpcode
  cases h : s.cfg.strictInvalid
  · simp [takeTrap_next]
  · simp only [if_true, Host.Outcome.next.injEq, true_and, Bool.true_eq_false, false_and, or_false]
    exact eq_comm

/-- IRET: the fatal stop at depth 0, else the three pops (R345, R385). -/
theorem trapReturn_next (s t : State) :
    trapReturn s = .next t ↔
      (s.depth = 0 ∧ t = s.stopFatal .contextUnderflow) ∨ (s.depth ≠ 0 ∧ s.iretOk = true ∧ t = s.iretted) := by
  unfold trapReturn
  by_cases h : s.depth = 0
  · simp only [h, if_true, Host.Outcome.next.injEq, true_and, ne_eq, not_true, false_and, or_false]
    exact eq_comm
  · simp [h, guardMem_next]

theorem takeInterrupt_next (s t : State) (n : Byte) :
    takeInterrupt s n = .next t ↔
      s.trapOk n = true ∧ t = { s.trapped n s.ip with run := .fetching, inta := true } := guardMem_next _ _ _

theorem execBin_next (op : AluOp2) (ns : List FlagName) (f : BinForm) (s t : State) :
    execBin op ns f s = .next t ↔
      s.binOk f = true ∧
      t = ((s.writeRm (binWidth f) (binDst f) (op (s.readRm (binWidth f) (binDst f)) (s.binSrc f)).res).writeFlags
            (op (s.readRm (binWidth f) (binDst f)) (s.binSrc f)).fw ns).advance := guardMem_next _ _ _

theorem execBinFlags_next (op : AluOp2) (ns : List FlagName) (f : BinForm) (s t : State) :
    execBinFlags op ns f s = .next t ↔
      s.binOk f = true ∧
      t = (s.writeFlags (op (s.readRm (binWidth f) (binDst f)) (s.binSrc f)).fw ns).advance := guardMem_next _ _ _

theorem execRmw_next (w : Width) (e : Rm) (op : BitVec w.bits → AluOut w.bits) (ns : List FlagName) (s t : State) :
    execRmw w e op ns s = .next t ↔
      s.rmOk w e = true ∧
      t = ((s.writeRm w e (op (s.readRm w e)).res).writeFlags (op (s.readRm w e)).fw ns).advance :=
  guardMem_next _ _ _

theorem imulInto_next (w : Width) (g : Gpr) (e : Rm) (a b : BitVec w.bits) (s t : State) :
    imulInto w g e a b s = .next t ↔
      s.rmOk w e = true ∧
      t = (({ s with gpr := s.gpr.write w g ((aluImul a b).res.setWidth w.bits) } : State).writeFlags
            (aluImul a b).fw undefMul).advance := guardMem_next _ _ _

/-- A division completes, or its fault enters the trap sequence with vector 0 (R224, R370). -/
theorem execDivide_next (w : Width) (e : Rm)
    (divide : BitVec (2 * w.bits) → BitVec w.bits → Option (DivOut w.bits)) (s t : State) :
    execDivide w e divide s = .next t ↔
      s.rmOk w e = true ∧
      ((∃ d, divide (s.dividend w) (s.readRm w e) = some d ∧
          t = ((s.writeQuotRem w d).writeFlags {} undefDiv).advance) ∨
       (divide (s.dividend w) (s.readRm w e) = none ∧ s.trapOk 0 = true ∧ t = s.trapped 0 s.dec.ipStart)) := by
  unfold execDivide
  by_cases h : s.rmOk w e = true
  · simp only [h, if_true, true_and]
    cases divide (s.dividend w) (s.readRm w e) with
    | some d =>
      simp only [Host.Outcome.next.injEq, Option.some.injEq, reduceCtorEq, false_and, or_false]
      exact ⟨fun h => ⟨d, rfl, h.symm⟩, fun ⟨_, e, h⟩ => e ▸ h.symm⟩
    | none => simp [raiseDivisionFault_next]
  · simp [h]

/-! ### Where memory operations write, and that they keep its form -/

/-- Memory is canonical and every cell lies below `MEM_SIZE`. -/
def MemGood (s : State) : Prop := memWf s.mem ∧ ∀ c ∈ s.mem, c.1 < s.cfg.memSize

theorem reset_memGood : MemGood State.reset := by
  refine ⟨⟨List.Pairwise.nil, ?_⟩, ?_⟩ <;> intro c hc <;> cases hc

/-- An update that leaves memory and the parameters alone keeps `MemGood`. -/
theorem MemGood.congr {s t : State} (h : MemGood s) (hm : t.mem = s.mem) (hc : t.cfg = s.cfg) : MemGood t := by
  unfold MemGood at *
  rwa [hm, hc]

theorem store_memGood (s : State) (a : Nat) (w : Width) (v : BitVec w.bits) (h : MemGood s)
    (hin : s.inMem a w.bytes = true) : MemGood (s.store a w v) := by
  refine ⟨storeCells_wf _ _ _ _ _ h.1, fun c hc => ?_⟩
  rcases mem_storeCells _ _ _ _ _ c hc with hc | ⟨k, hk, e⟩
  · exact h.2 c hc
  · rw [e]
    exact (inMem_iff s a w.bytes).mp hin k hk

theorem poke_memGood (s : State) (w : Width) (p : Place) (v : BitVec w.bits) (h : MemGood s)
    (hin : s.placeOk w p = true) : MemGood (s.poke w p v) := by
  cases p with
  | reg r => exact h
  | mem a => exact store_memGood s a w v h hin

theorem writeRm_memGood (s : State) (w : Width) (e : Rm) (v : BitVec w.bits) (h : MemGood s)
    (hin : s.rmOk w e = true) : MemGood (s.writeRm w e v) := poke_memGood s w _ v h hin

theorem push16_memGood (s : State) (v : Word) (h : MemGood s)
    (hin : s.inMem (lin s.seg.ss (s.sp - 2)) 2 = true) : MemGood (s.push16 v) := by
  refine store_memGood (s.setSp (s.sp - 2)) _ .w16 v (h.congr rfl rfl) ?_
  have e : (s.setSp (s.sp - 2)).sp = s.sp - 2 := Gprs.read_write_same s.gpr .w16 .sp (s.sp - 2)
  rw [State.setSp_seg, e]
  exact (inMem_iff _ _ _).mpr fun k hk => (inMem_iff s _ _).mp hin k hk

@[simp] theorem State.push16_sp (s : State) (v : Word) : (s.push16 v).sp = s.sp - 2 :=
  Gprs.read_write_same s.gpr .w16 .sp (s.sp - 2)

@[simp] theorem State.pop16_sp (s : State) : s.pop16.sp = s.sp + 2 :=
  Gprs.read_write_same s.gpr .w16 .sp (s.sp + 2)

/-- `inMem` looks at the parameters alone. -/
theorem inMem_congr (s t : State) (h : t.cfg = s.cfg) (a n : Nat) : t.inMem a n = s.inMem a n := by
  rw [Bool.eq_iff_iff, inMem_iff, inMem_iff]
  simp only [State.phys, h]

/-- `slotOk` says of both bytes of the slot that they lie inside memory (R74, R378). -/
theorem slotOk_iff (s : State) (d : Word) :
    s.slotOk d = true ↔ ∀ k, k < 2 → s.phys (lin s.seg.ss (s.sp + d) + k) < s.cfg.memSize := inMem_iff _ _ _

theorem trapFrame_memGood (s : State) (n : Byte) (ip' : Word) (h : MemGood s) (hok : s.trapOk n = true) :
    MemGood (s.trapFrame ip') := by
  simp only [State.trapOk, State.slotOk, Bool.and_eq_true] at hok
  obtain ⟨⟨⟨⟨h1, h2⟩, h3⟩, -⟩, -⟩ := hok
  have e2 : s.sp - 2 - 2 = s.sp + (-4) := by generalize s.sp = x; bv_omega
  have e3 : s.sp - 2 - 2 - 2 = s.sp + (-6) := by generalize s.sp = x; bv_omega
  have e1 : s.sp - 2 = s.sp + (-2) := by generalize s.sp = x; bv_omega
  have g1 : MemGood (s.push16 s.flags.image) := push16_memGood s _ h (by rw [e1]; exact h1)
  have g2 : MemGood (s.push16 s.flags.image).maskIntr := g1.congr rfl rfl
  have p2 : (s.push16 s.flags.image).maskIntr.sp = s.sp - 2 := State.push16_sp s s.flags.image
  have g3 := push16_memGood _ s.seg.cs g2 (by
    rw [inMem_congr s (s.push16 s.flags.image).maskIntr (by simp), p2, e2]
    exact h2)
  exact push16_memGood _ ip' g3 (by
    rw [inMem_congr s ((s.push16 s.flags.image).maskIntr.push16 s.seg.cs) (by simp), State.push16_sp, p2, e3]
    exact h3)

theorem trapped_memGood (s : State) (n : Byte) (ip' : Word) (h : MemGood s) (hok : s.trapOk n = true) :
    MemGood (s.trapped n ip') := (trapFrame_memGood s n ip' h hok).congr rfl rfl

/-- A byte of memory outside the stored bytes reads as before. -/
theorem byteAt_store_other (s : State) (a : Nat) (w : Width) (v : BitVec w.bits) (p : Nat) (h : memWf s.mem)
    (hp : ∀ k, k < w.bytes → p ≠ s.phys (a + k)) : (s.store a w v).byteAt p = s.byteAt p :=
  memGet_storeCells_other _ _ _ _ _ _ h hp

/-- Byte k of a stored value reads back, when the transform keeps the bytes apart (R77). -/
theorem byteAt_store_byte (s : State) (a : Nat) (w : Width) (v : BitVec w.bits) (h : memWf s.mem) (k : Nat)
    (hk : k < w.bytes)
    (inj : ∀ i j, i < w.bytes → j < w.bytes → s.phys (a + i) = s.phys (a + j) → i = j) :
    (s.store a w v).byteAt (s.phys (a + k)) = BitVec.ofNat 8 (v.toNat / 256 ^ k) :=
  memGet_storeCells_byte _ _ _ _ _ h k hk inj

theorem loadBytes_memWf (s : State) (a : Nat) (bs : List Byte) (h : memWf s.mem) : memWf (s.loadBytes a bs).mem := by
  induction bs generalizing s a with
  | nil => exact h
  | cons b bs ih => exact ih _ _ (storeCells_wf _ _ _ _ _ h)

theorem withFetchWord_memWf (s : State) (nbits w : Nat) (h : memWf s.mem) : memWf (s.withFetchWord nbits w).mem :=
  loadBytes_memWf s _ _ h

/-! ### Fetching -/

theorem fetchFrom_length_le (s : State) (a n : Nat) : (s.fetchFrom a n).length ≤ n := by
  induction n generalizing a with
  | zero => simp [State.fetchFrom]
  | succ n ih =>
    simp only [State.fetchFrom]
    split
    · simpa using ih (a + 1)
    · simp

theorem fetchBytes_length_le (s : State) : s.fetchBytes.length ≤ maxInsnLen := fetchFrom_length_le s _ _

/-- Fetching ends at the first byte outside memory: it gives the bytes that stand before it. -/
theorem fetchFrom_take (s : State) (bs : List Byte) (k a n : Nat) (hn : k < n) (hb : k < bs.length)
    (h : ∀ j b, j < k → bs[j]? = some b → s.phys (a + j) < s.cfg.memSize ∧ s.byteAt (s.phys (a + j)) = b)
    (hout : s.cfg.memSize ≤ s.phys (a + k)) : s.fetchFrom a n = bs.take k := by
  induction n generalizing bs a k with
  | zero => omega
  | succ n ih =>
    cases k with
    | zero =>
      have hno : ¬ s.inMem a 1 = true := by
        rw [inMem_iff]
        intro q
        have := q 0 (by omega)
        simp only [Nat.add_zero] at this hout
        omega
      simp [State.fetchFrom, hno]
    | succ k =>
      obtain _ | ⟨b, bs⟩ := bs
      · simp at hb
      · have h0 := h 0 b (by omega) rfl
        have hin : s.inMem a 1 = true := by
          rw [inMem_iff]
          intro j hj
          obtain rfl : j = 0 := by omega
          exact h0.1
        have hrest := ih bs k (a + 1) (by omega) (by simpa using hb)
          (fun j c hj hc => by
            have := h (j + 1) c (by omega) (by simpa using hc)
            rwa [show a + (j + 1) = a + 1 + j by omega] at this)
          (by rwa [show a + 1 + k = a + (k + 1) by omega])
        simp only [State.fetchFrom, hin, if_true, hrest, List.take_succ_cons]
        exact congrArg (· :: _) h0.2

/-! ### What a step does before execution -/

/-- A step that settles without running an instruction. -/
theorem front_settled_next (s t : State) (h : s.front = .settled (.next t)) :
    (s.pins.reset = true ∧ t = s.sampled.resetNow) ∨
    (s.pins.reset = false ∧ (∃ y, s.run = .stopped y) ∧ t = s.sampled) ∨
    (s.pins.reset = false ∧ s.flags.tf = false ∧ (s.run = .fetching ∨ s.run = .halted) ∧
      ∃ n, s.acceptedIntr = some n ∧ takeInterrupt s.sampled n = .next t) ∨
    (s.pins.reset = false ∧ s.flags.tf = false ∧ s.run = .halted ∧ s.acceptedIntr = none ∧ t = s.sampled) := by
  unfold State.front at h
  by_cases hr : s.pins.reset = true
  · simp only [hr, if_true, Phase.settled.injEq, Host.Outcome.next.injEq] at h
    exact .inl ⟨hr, h.symm⟩
  · have hr' : s.pins.reset = false := by simpa using hr
    simp only [hr', Bool.false_eq_true, if_false] at h
    cases hrun : s.run with
    | stopped y =>
      simp only [hrun, Phase.settled.injEq, Host.Outcome.next.injEq] at h
      exact .inr (.inl ⟨hr', ⟨y, rfl⟩, h.symm⟩)
    | fetching =>
      by_cases htf : s.flags.tf = true
      · simp [hrun, htf] at h
      · have htf' : s.flags.tf = false := by simpa using htf
        simp only [hrun, htf', Bool.false_eq_true, if_false] at h
        cases hi : s.acceptedIntr with
        | some n =>
          simp only [hi, Phase.settled.injEq] at h
          exact .inr (.inr (.inl ⟨hr', htf', .inl rfl, n, rfl, h⟩))
        | none =>
          simp only [hi] at h
          unfold State.decodePhase at h
          split at h
          · cases h
          · rename_i why _
            simp only [Phase.settled.injEq] at h
            cases why <;> simp only [decodeStopped] at h <;> first | cases h | (split at h <;> cases h)
    | halted =>
      by_cases htf : s.flags.tf = true
      · simp [hrun, htf] at h
      · have htf' : s.flags.tf = false := by simpa using htf
        simp only [hrun, htf', Bool.false_eq_true, if_false] at h
        cases hi : s.acceptedIntr with
        | some n =>
          simp only [hi, Phase.settled.injEq] at h
          exact .inr (.inr (.inl ⟨hr', htf', .inr rfl, n, rfl, h⟩))
        | none =>
          simp only [hi, Phase.settled.injEq, Host.Outcome.next.injEq] at h
          exact .inr (.inr (.inr ⟨hr', htf', rfl, rfl, h.symm⟩))

/-- A step that runs an instruction: the core is fetching, nothing is asserted, and the instruction and the working
registers are those of the bytes at CS:ip. -/
theorem front_run (s t : State) (i : Instr) (h : s.front = .run i t) :
    s.pins.reset = false ∧ s.run = .fetching ∧ s.flags.tf = false ∧ s.acceptedIntr = none ∧
    ∃ r, decode s.sampled.fetchBytes = .ok (i, r) ∧ t = { s.sampled with dec := { r with ipStart := s.ip } } := by
  unfold State.front at h
  by_cases hr : s.pins.reset = true
  · simp [hr] at h
  · have hr' : s.pins.reset = false := by simpa using hr
    simp only [hr', Bool.false_eq_true, if_false] at h
    cases hrun : s.run with
    | stopped y => simp [hrun] at h
    | halted =>
      simp only [hrun] at h
      split at h
      · cases h
      · split at h <;> cases h
    | fetching =>
      simp only [hrun] at h
      split at h
      · cases h
      · rename_i htf
        split at h
        · cases h
        · rename_i hi
          unfold State.decodePhase at h
          split at h
          · rename_i j r hd
            simp only [Phase.run.injEq] at h
            obtain ⟨rfl, rfl⟩ := h
            exact ⟨hr', rfl, by simpa using htf, hi, r, hd, rfl⟩
          · cases h

end Sys2Proof.Machine
end

