-- ==== Sys2Proof/Tests/Slice0.lean ====
section
/-! SUPPORT. Tests of the model and witnesses for the statements. Expected values come from the spec: the encoding
tables R120 and R121, and the vectors of `95_test_vectors.md` (sections 13 to 16 of its part 2). -/

namespace Sys2Proof.Tests

open Sys2Proof Sys2Proof.Config Sys2Proof.Machine

/-! ### WellFormed: one ill-formed term for each check -/

theorem test_wf_bp_without_displacement : (Instr.neg .w8 (.mem ⟨none, .based .bp .none⟩)).wf = false := by decide
theorem test_wf_bp_in_every_shape :
    [Instr.add (.rmReg .w8 (.mem ⟨none, .based .bp .none⟩) .ax), .test (.rmImm (.mem ⟨none, .based .bp .none⟩) (.i8 0)),
      .inc (.rm .w8 (.mem ⟨none, .based .bp .none⟩)), .rol .w8 (.mem ⟨none, .based .bp .none⟩) .one,
      .shld .o16 (.mem ⟨none, .based .bp .none⟩) .ax .cl, .movRmImm (.mem ⟨none, .based .bp .none⟩) (.i8 0),
      .esc 0 0 (.mem ⟨none, .based .bp .none⟩)].all (fun i => !i.wf) = true := by decide
theorem test_wf_imul_byte_immediate : (Instr.imulRegRmImm .ax (.reg .bx) (.i8 2)).wf = false := by decide
theorem test_wf_mov_to_cs : (Instr.movSregRm .cs (.reg .ax)).wf = false := by decide
theorem test_wf_invalid_index : (Instr.invalid 0xFF 0xC0).wf = false := by decide
theorem test_wf_invalid_mov_cs_index : (Instr.invalidMovCs 0xC0).wf = false := by decide
theorem test_wf_reserved_opcode : (Instr.reserved 0x83 none).wf = false := by decide
theorem test_wf_reserved_index : (Instr.reserved 0xF6 (some 0xC0)).wf = false := by decide
theorem test_wf_accepts :
    [Instr.add (.rmReg .w8 (.mem ⟨some .cs, .based .bp (.d8 0)⟩) .ax), .imulRegRmImm .ax (.reg .bx) (.i16 2),
      .movSregRm .gs (.reg .ax), .invalid 0xFF 0xF8, .invalidMovCs 0xC8, .reserved 0x82 none,
      .reserved 0xF6 (some 0xC8)].all Instr.wf = true := by decide

/-! ### Decoding: every row of the opcode table

ModRM D9 = 11 011 001 (reg 3, rm 1), C1 + 8k = 11 kkk 001; immediates 12, 34 12 and, after 66, 78 56 34 12. -/

/-- The bytes decode to the instruction and are its whole length. -/
def is (bs : List Byte) (i : Instr) : Bool :=
  match decode (bs ++ [0xAA]) with
  | .ok (j, r) => decide (j = i ∧ r.len = bs.length)
  | .error _ => false

def ops : List (BinForm → Instr) := [.add, .or, .adc, .sbb, .and, .sub, .xor, .cmp]
def gprs : List Gpr := [.ax, .cx, .dx, .bx, .sp, .bp, .si, .di]
def e : Rm := .reg .cx

/-- Table 1 of R120: 8k to 8k+5. -/
theorem test_decode_table1 : (ops.zipIdx.all fun p =>
    let b (j : Nat) : Byte := BitVec.ofNat 8 (8 * p.2 + j)
    is [b 0, 0xD9] (p.1 (.rmReg .w8 e .bx)) && is [b 1, 0xD9] (p.1 (.rmReg .w16 e .bx)) &&
    is [b 2, 0xD9] (p.1 (.regRm .w8 .bx e)) && is [0x66, b 3, 0xD9] (p.1 (.regRm .w32 .bx e)) &&
    is [b 4, 0x12] (p.1 (.accImm (.i8 0x12))) && is [b 5, 0x34, 0x12] (p.1 (.accImm (.i16 0x1234)))) = true := by
  decide

/-- Group 1: 0x80, 0x81, 0x83, index k. -/
theorem test_decode_group1 : (ops.zipIdx.all fun p =>
    let m : Byte := BitVec.ofNat 8 (0xC1 + 8 * p.2)
    is [0x80, m, 0x12] (p.1 (.rmImm e (.i8 0x12))) && is [0x81, m, 0x34, 0x12] (p.1 (.rmImm e (.i16 0x1234))) &&
    is [0x66, 0x81, m, 0x78, 0x56, 0x34, 0x12] (p.1 (.rmImm e (.i32 0x12345678))) &&
    is [0x83, m, 0xFF] (p.1 (.rmImmS .o16 e 0xFF))) = true := by decide

/-- 0x40+r, 0x48+r, 0xB0+r, 0xB8+r. -/
theorem test_decode_register_rows : (gprs.zipIdx.all fun p =>
    let b (j : Nat) : Byte := BitVec.ofNat 8 (j + p.2)
    is [b 0x40] (.inc (.short .o16 p.1)) && is [0x66, b 0x48] (.dec (.short .o32 p.1)) &&
    is [b 0xB0, 0x12] (.movRegImm p.1 (.i8 0x12)) && is [b 0xB8, 0x34, 0x12] (.movRegImm p.1 (.i16 0x1234))) = true := by
  decide

/-- 0x70 to 0x7F in the order of cc, and the other one-byte control rows. -/
theorem test_decode_control : ([Cond.o, .no, .b, .ae, .e, .ne, .be, .a, .s, .ns, .p, .np, .l, .ge, .le, .g].zipIdx.all
    fun p => is [BitVec.ofNat 8 (0x70 + p.2), 0x12] (.jcc p.1 0x12)) = true ∧
    is [0xEB, 0x12] (.jmpRel8 0x12) = true ∧ is [0xE9, 0x34, 0x12] (.jmpRel16 0x1234) = true ∧
    is [0xCD, 0x21] (.int 0x21) = true ∧ is [0xCF] .iret = true ∧ is [0xF4] .hlt = true := by decide

/-- Group 2: 0xC0, 0xC1, 0xD0 to 0xD3, indices 0 to 5 and 7. -/
theorem test_decode_group2 : ([(0, Instr.rol), (1, .ror), (2, .rcl), (3, .rcr), (4, .shl), (5, .shr), (7, .sar)].all
    fun p =>
    let m : Byte := BitVec.ofNat 8 (0xC1 + 8 * p.1)
    is [0xC0, m, 0x12] (p.2 .w8 e (.imm 0x12)) && is [0xC1, m, 0x12] (p.2 .w16 e (.imm 0x12)) &&
    is [0xD0, m] (p.2 .w8 e .one) && is [0x66, 0xD1, m] (p.2 .w32 e .one) &&
    is [0xD2, m] (p.2 .w8 e .cl) && is [0xD3, m] (p.2 .w16 e .cl)) = true := by decide

/-- Groups 3 and 4 and 5. -/
theorem test_decode_group3 : ([(2, Instr.not), (3, .neg), (4, .mul), (5, .imul), (6, .div), (7, .idiv)].all fun p =>
    let m : Byte := BitVec.ofNat 8 (0xC1 + 8 * p.1)
    is [0xF6, m] (p.2 .w8 e) && is [0xF7, m] (p.2 .w16 e) && is [0x66, 0xF7, m] (p.2 .w32 e)) = true ∧
    is [0xF6, 0xC1, 0x12] (.test (.rmImm e (.i8 0x12))) = true ∧
    is [0xF7, 0xC1, 0x34, 0x12] (.test (.rmImm e (.i16 0x1234))) = true ∧
    is [0xFE, 0xC1] (.inc (.rm .w8 e)) = true ∧ is [0xFE, 0xC9] (.dec (.rm .w8 e)) = true ∧
    is [0xFF, 0xC1] (.inc (.rm .w16 e)) = true ∧ is [0x66, 0xFF, 0xC9] (.dec (.rm .w32 e)) = true := by decide

/-- TEST, IMUL, MOV and segment moves, group 11, double shifts. -/
theorem test_decode_moves :
    [is [0x84, 0xD9] (.test (.rmReg .w8 e .bx)), is [0x85, 0xD9] (.test (.rmReg .w16 e .bx)),
      is [0xA8, 0x12] (.test (.accImm (.i8 0x12))), is [0xA9, 0x34, 0x12] (.test (.accImm (.i16 0x1234))),
      is [0x69, 0xD9, 0x34, 0x12] (.imulRegRmImm .bx e (.i16 0x1234)), is [0x6B, 0xD9, 0xFE] (.imulRegRmImmS .o16 .bx e 0xFE),
      is [0x0F, 0xAF, 0xD9] (.imulRegRm .o16 .bx e), is [0x88, 0xD9] (.movRmReg .w8 e .bx),
      is [0x89, 0xD9] (.movRmReg .w16 e .bx), is [0x8A, 0xD9] (.movRegRm .w8 .bx e),
      is [0x8B, 0xD9] (.movRegRm .w16 .bx e), is [0xC6, 0xC1, 0x12] (.movRmImm e (.i8 0x12)),
      is [0xC7, 0xC1, 0x34, 0x12] (.movRmImm e (.i16 0x1234)), is [0x0F, 0xA4, 0xD9, 0x12] (.shld .o16 e .bx (.imm 0x12)),
      is [0x0F, 0xA5, 0xD9] (.shld .o16 e .bx .cl), is [0x66, 0x0F, 0xAC, 0xD9, 0x12] (.shrd .o32 e .bx (.imm 0x12)),
      is [0x0F, 0xAD, 0xD9] (.shrd .o16 e .bx .cl), is [0x90] .nop].all id = true := by decide
theorem test_decode_segment_moves : ([(0, SReg.es), (2, .ss), (3, .ds), (4, .fs), (5, .gs)].all fun p =>
    let m : Byte := BitVec.ofNat 8 (0xC1 + 8 * p.1)
    is [0x8C, m] (.movRmSreg e p.2) && is [0x8E, m] (.movSregRm p.2 e)) = true ∧
    is [0x8C, 0xC9] (.movRmSreg e .cs) = true := by decide

/-- The flag rows and ESC 0xD8 to 0xDF with every index. -/
theorem test_decode_flag_rows :
    ([(0x9C, Instr.pushf), (0x9D, .popf), (0x9E, .sahf), (0x9F, .lahf), (0xF5, .cmc), (0xF8, .clc), (0xF9, .stc),
      (0xFA, .cli), (0xFB, .sti), (0xFC, .cld), (0xFD, .std)].all fun p => is [p.1] p.2) = true := by decide
theorem test_decode_esc : ((List.range 8).all fun k =>
    is [BitVec.ofNat 8 (0xD8 + k), BitVec.ofNat 8 (0xC1 + 8 * k)] (.esc (BitVec.ofNat 3 k) (BitVec.ofNat 3 k) e)) = true := by
  decide

/-- The invalid rows of R125 and the reserved rows of R126. -/
theorem test_decode_invalid : (invalidRows.all fun p =>
    let m : Byte := BitVec.ofNat 8 (0xC1 + 8 * p.2)
    is [p.1, m] (.invalid p.1 m)) = true ∧ is [0x8E, 0xC9] (.invalidMovCs 0xC9) = true := by decide
theorem test_decode_reserved : (reservedRows.all fun p =>
    let m : Byte := BitVec.ofNat 8 (0xC1 + 8 * p.2)
    is [p.1, m] (.reserved p.1 (some m))) = true ∧ is [0x82] (.reserved 0x82 none) = true := by decide

/-- Every `mod` and `rm` (R105, R106): ModRM 00 000 rm, 01 000 rm and 10 000 rm. -/
theorem test_decode_addresses : ([Base.bxsi, .bxdi, .bpsi, .bpdi, .si, .di, .bp, .bx].zipIdx.all fun p =>
    let i (d : Disp) : Instr := .neg .w8 (.mem ⟨none, .based p.1 d⟩)
    let m (j : Nat) : Byte := BitVec.ofNat 8 (j + 0x18 + p.2)
    (p.1 == .bp || is [0xF6, m 0] (i .none)) && is [0xF6, m 0x40, 0xFE] (i (.d8 0xFE)) &&
    is [0xF6, m 0x80, 0x34, 0x12] (i (.d16 0x1234))) = true ∧
    is [0xF6, 0x1E, 0x34, 0x12] (.neg .w8 (.mem ⟨none, .direct 0x1234⟩)) = true := by decide
/-- The six segment overrides (R101); the last of two counts (R102). -/
theorem test_decode_overrides : ([(0x26, SReg.es), (0x2E, .cs), (0x36, .ss), (0x3E, .ds), (0x64, .fs), (0x65, .gs)].all
    fun p => is [0x36, 0xF0, p.1, 0xF6, 0x1F] (.neg .w8 (.mem ⟨some p.2, .based .bx .none⟩))) = true := by decide
/-- The five refusals of the decoder (R101, R102, R127). -/
theorem test_decode_refusals :
    [decode [0x67, 0x90], decode [0xF3, 0x90], decode [0x66, 0x9C], decode [0x60], decode [0xFF, 0xD0]] =
      [.error .addressSize, .error .repOnAdmitted, .error .operandSize16Only, .error .notAdmitted, .error .notAdmitted] := by
  decide

/-! ### One step per instruction (`95_test_vectors.md`, part 2, sections 13, 15, 16) -/

/-- The reset state with bytes at 0x1000:0x0100 and a few registers set. -/
def cpu (bs : List Byte) (eax : DWord := 0) (ebx : DWord := 0) (ecx : DWord := 0) (edx : DWord := 0) (esp : DWord := 0)
    (fl : Word := 2) (ss : Word := 0) (ds : Word := 0) : State :=
  let s := State.reset.loadBytes 0x10100 bs
  { s with
    gpr := { s.gpr with eax := eax, ebx := ebx, ecx := ecx, edx := edx, esp := esp }
    seg := { s.seg with ss := ss, ds := ds }
    flags := Flags.ofImage fl }

/-- The step has a next state with the property. -/
def gives (s : State) (p : State → Bool) : Bool :=
  match step s with
  | .next t => p t
  | _ => false

/-- The step refuses with that name. -/
def refuses (s : State) (y : Refusal) : Bool :=
  match step s with
  | .refused z => decide (z = y)
  | _ => false

/-- EAX, FLAGS16 and ip after the step. -/
def ends (eax : DWord) (fl ip : Word) (t : State) : Bool := decide (t.gpr.eax = eax ∧ t.flags.image = fl ∧ t.ip = ip)

theorem test_add : gives (cpu [0x00, 0xD8] (eax := 0x123400FF) (ebx := 1)) (ends 0x12340000 0x0057 0x0102) = true := by decide
theorem test_add_memory_source : gives (((cpu [0x02, 0x07] (eax := 0x10) (ebx := 0x20) (ds := 0x3000)).store 0x30020 .w8 0xF0))
    (ends 0 0x0047 0x0102) = true := by decide
theorem test_adc : gives (cpu [0x10, 0xD8] (eax := 0xFF) (fl := 3)) (ends 0 0x0057 0x0102) = true := by decide
theorem test_sub : gives (cpu [0x81, 0xEB, 0x34, 0x12] (ebx := 0x1234))
    (fun t => ends 0 0x0046 0x0104 t && t.gpr.ebx == 0) = true := by decide
theorem test_sbb : gives (cpu [0x18, 0xD8] (fl := 3)) (ends 0xFF 0x0097 0x0102) = true := by decide
theorem test_cmp : gives (cpu [0x3D, 0x00, 0x80] (eax := 0x7FFF)) (ends 0x7FFF 0x0887 0x0103) = true := by decide
theorem test_inc_keeps_carry : gives (cpu [0x66, 0x40] (eax := 0xFFFF) (fl := 3)) (ends 0x10000 0x0017 0x0102) = true := by decide
theorem test_dec_memory : gives ((cpu [0xFF, 0x0F] (ebx := 0x10) (ds := 0x3000)).store 0x30010 .w16 0x8000)
    (fun t => ends 0 0x0816 0x0102 t && t.load 0x30010 .w16 == 0x7FFF) = true := by decide
theorem test_neg : gives (cpu [0xF6, 0xD8] (eax := 0x80)) (ends 0x80 0x0883 0x0102) = true := by decide
theorem test_and : gives (cpu [0x24, 0x80] (eax := 0xFF) (fl := 0x0813)) (ends 0x80 0x0092 0x0102) = true := by decide
theorem test_or : gives (cpu [0x0C, 0xAA] (eax := 0x55) (fl := 0x0803)) (ends 0xFF 0x0086 0x0102) = true := by decide
theorem test_xor : gives (cpu [0x31, 0xC0] (eax := 0xDEADBEEF) (fl := 0x08D7)) (ends 0xDEAD0000 0x0056 0x0102) = true := by decide
theorem test_test : gives (cpu [0x84, 0xC0] (eax := 0x80) (fl := 0x0813)) (ends 0x80 0x0092 0x0102) = true := by decide
theorem test_not : gives (cpu [0xF7, 0xD0] (eax := 0x1234A5A5) (fl := 0x0CD7)) (ends 0x12345A5A 0x0CD7 0x0102) = true := by decide
theorem test_mul_byte_zero_flag : gives (cpu [0xF6, 0xE3] (eax := 0xFF10) (ebx := 0x10)) (ends 0x0100 0x0847 0x0102) = true := by decide
theorem test_mul_word : gives (cpu [0xF7, 0xE3] (eax := 0xFFFF) (ebx := 0xFFFF) (edx := 0x1111))
    (fun t => ends 1 0x0883 0x0102 t && t.gpr.edx == 0xFFFE) = true := by decide
theorem test_imul : gives (cpu [0xF7, 0xEB] (eax := 0x8000) (ebx := 2))
    (fun t => ends 0 0x0803 0x0102 t && t.gpr.edx == 0xFFFF) = true := by decide
theorem test_imul_reg_rm : gives (cpu [0x0F, 0xAF, 0xC3] (eax := 0x4000) (ebx := 2)) (ends 0x8000 0x0803 0x0103) = true := by decide
theorem test_imul_imm : gives (cpu [0x69, 0xC3, 0x00, 0x10] (ebx := 0x10)) (ends 0 0x0803 0x0104) = true := by decide
theorem test_imul_imm8 : gives (cpu [0x6B, 0xC3, 0xFE] (ebx := 3)) (ends 0xFFFA 0x0002 0x0103) = true := by decide
theorem test_div : gives (cpu [0xF6, 0xF3] (eax := 0x64) (ebx := 7)) (ends 0x020E 0x0002 0x0102) = true := by decide
theorem test_div_fault : gives ((cpu [0xF7, 0xF3] (ebx := 2) (edx := 2) (ss := 0x2000)).store 0 .w32 0x10000200)
    (fun t => ends 0 0x0002 0x0200 t && t.load 0x2FFFA .w16 == 0x0100 && t.load 0x2FFFC .w16 == 0x1000 &&
      t.load 0x2FFFE .w16 == 2 && t.gpr.esp == 0xFFFA && t.depth == 1 && t.gpr.edx == 2) = true := by decide
theorem test_idiv : gives (cpu [0xF6, 0xFB] (eax := 0xFF9C) (ebx := 7)) (ends 0xFEF2 0x0002 0x0102) = true := by decide
theorem test_idiv_minus_128 : gives (cpu [0xF6, 0xFB] (eax := 0x0080) (ebx := 0xFF)) (ends 0x0080 0x0002 0x0102) = true := by decide
theorem test_rol : gives (cpu [0xD0, 0xC0] (eax := 0x81)) (ends 3 0x0003 0x0102) = true := by decide
theorem test_rol_other_overflow : gives ({ cpu [0xD0, 0xC0] (eax := 0x81) with cfg := { rotLeftOf := .msbXorCf } })
    (ends 3 0x0803 0x0102) = true := by decide
theorem test_ror : gives (cpu [0xC0, 0xC8, 0x04] (eax := 0x12)) (ends 0x21 0x0002 0x0103) = true := by decide
theorem test_rcl_reduced_zero : gives (cpu [0xD2, 0xD0] (eax := 0x80) (ecx := 9) (fl := 3)) (ends 0x80 0x0003 0x0102) = true := by decide
theorem test_rcl : gives (cpu [0xC0, 0xD0, 0x0A] (eax := 0x55) (fl := 3)) (ends 0xAB 0x0802 0x0103) = true := by decide
theorem test_rcr : gives (cpu [0xC1, 0xD8, 0x10] (eax := 0x1234) (fl := 3)) (ends 0x2469 0x0002 0x0103) = true := by decide
theorem test_shl : gives (cpu [0xD3, 0xE0] (eax := 1) (ecx := 0x10)) (ends 0 0x0847 0x0102) = true := by decide
theorem test_shr : gives (cpu [0x66, 0xC1, 0xE8, 0x1F] (eax := 0x80000000)) (ends 1 0x0802 0x0104) = true := by decide
theorem test_sar : gives (cpu [0xC1, 0xF8, 0x0F] (eax := 0x8000)) (ends 0xFFFF 0x0086 0x0103) = true := by decide
theorem test_shld : gives (cpu [0x0F, 0xA4, 0xD8, 0x11] (eax := 0x1234) (ebx := 0xABCD)) (ends 0x579B 0x0003 0x0104) = true := by decide
theorem test_shrd : gives (cpu [0x0F, 0xAD, 0xD8] (eax := 0x1234) (ebx := 0xABCD) (ecx := 4)) (ends 0xD123 0x0882 0x0103) = true := by decide
theorem test_mov_rm_reg : gives (cpu [0x88, 0xE0] (eax := 0x1234)) (ends 0x1212 0x0002 0x0102) = true := by decide
theorem test_mov_reg_rm : gives ((cpu [0x66, 0x8B, 0x07] (ebx := 0x10) (ds := 0x2000)).store 0x20010 .w32 0x00010000)
    (ends 0x10000 0x0002 0x0103) = true := by decide
theorem test_mov_reg_imm : gives (cpu [0xB4, 0x5A] (eax := 0x11223344)) (ends 0x11225A44 0x0002 0x0102) = true := by decide
theorem test_mov_rm_imm : gives (cpu [0x66, 0xC7, 0x47, 0x04, 0x78, 0x56, 0x34, 0x12] (ebx := 0x10) (ds := 0x3000))
    (fun t => ends 0 0x0002 0x0108 t && t.load 0x30014 .w32 == 0x12345678 && t.byteAt 0x30014 == 0x78) = true := by decide
theorem test_mov_rm_sreg : gives (cpu [0x8C, 0xD8] (eax := 0xFFFFFFFF) (ds := 0x1234)) (ends 0xFFFF1234 0x0002 0x0102) = true := by decide
theorem test_mov_sreg_rm : gives (cpu [0x8E, 0xC0] (eax := 0xABCD)) (fun t => ends 0xABCD 0x0002 0x0102 t && t.seg.es == 0xABCD) = true := by decide
theorem test_nop : gives (cpu [0x66, 0x90] (eax := 5)) (ends 5 0x0002 0x0102) = true := by decide
theorem test_lahf : gives (cpu [0x9F] (eax := 0x1234) (fl := 0x0893)) (ends 0x9334 0x0893 0x0101) = true := by decide
theorem test_sahf : gives (cpu [0x9E] (eax := 0xFF00) (fl := 0x0802)) (ends 0xFF00 0x08D7 0x0101) = true := by decide
theorem test_pushf_wraps : gives (cpu [0x9C] (esp := 1) (fl := 0x0AD7 &&& 0xFEFF) (ss := 0x2000))
    (fun t => t.gpr.esp == 0xFFFF && t.byteAt 0x2FFFF == 0xD7 && t.byteAt 0x30000 == 0x0A) = true := by decide
theorem test_popf : gives ((cpu [0x9D] (esp := 0xFE) (ss := 0x2000)).store 0x200FE .w16 0xFEFF)
    (fun t => t.gpr.esp == 0x100 && t.flags.image == 0x0ED7) = true := by decide
theorem test_clc : gives (cpu [0xF8] (fl := 0x0ED7)) (ends 0 0x0ED6 0x0101) = true := by decide
theorem test_stc : gives (cpu [0xF9]) (ends 0 0x0003 0x0101) = true := by decide
theorem test_cmc : gives (cpu [0xF5] (fl := 3)) (ends 0 0x0002 0x0101) = true := by decide
theorem test_cld : gives (cpu [0xFC] (fl := 0x0402)) (ends 0 0x0002 0x0101) = true := by decide
theorem test_std : gives (cpu [0xFD]) (ends 0 0x0402 0x0101) = true := by decide
theorem test_cli : gives (cpu [0xFA] (fl := 0x0202)) (ends 0 0x0002 0x0101) = true := by decide
theorem test_sti : gives (cpu [0xFB]) (ends 0 0x0202 0x0101) = true := by decide
theorem test_jl_taken : gives (cpu [0x7C, 0x80] (fl := 0x0082)) (ends 0 0x0082 0x0082) = true := by decide
theorem test_jl_not_taken : gives (cpu [0x7C, 0x80] (fl := 0x0882)) (ends 0 0x0882 0x0102) = true := by decide
theorem test_jmp_rel8_wraps : gives (({ cpu [] with ip := 0xFFF0 } : State).loadBytes 0x1FFF0 [0xEB, 0x7F]) (ends 0 2 0x0071) = true := by decide
theorem test_jmp_rel16_wraps : gives (({ cpu [] with ip := 0x8000 } : State).loadBytes 0x18000 [0xE9, 0x00, 0x80]) (ends 0 2 0x0003) = true := by decide
theorem test_int_stack_wraps : gives ((cpu [0xCD, 0xFF] (esp := 2) (fl := 0x0ED7) (ss := 0x2000)).store 0x3FC .w32 0x56781234)
    (fun t => ends 0 0x0CD7 0x1234 t && t.seg.cs == 0x5678 && t.load 0x20000 .w16 == 0x0ED7 &&
      t.load 0x2FFFE .w16 == 0x1000 && t.load 0x2FFFC .w16 == 0x0102 && t.gpr.esp == 0xFFFC) = true := by decide
theorem test_iret : gives ((({ cpu [0xCF] (esp := 0xFA) (ss := 0x2000) with depth := 1 } : State).store 0x200FA .w32 0x10000102).store 0x200FE .w16 0x0202)
    (fun t => ends 0 0x0202 0x0102 t && t.gpr.esp == 0x100 && t.depth == 0 && t.seg.cs == 0x1000) = true := by decide
theorem test_iret_depth_zero : gives (cpu [0xCF] (esp := 0x100))
    (fun t => ends 0 2 0x0100 t && t.gpr.esp == 0x100 && t.run == .stopped .contextUnderflow) = true := by decide
theorem test_hlt : gives (cpu [0xF4]) (fun t => ends 0 2 0x0101 t && t.run == .halted) = true := by decide
theorem test_esc : gives (cpu [0xD8, 0x06, 0x00, 0x01] (eax := 7)) (ends 7 2 0x0104) = true := by decide
theorem test_invalid_opcode : gives ((cpu [0xFF, 0xF8] (esp := 0x100) (ss := 0x2000)).store 0x18 .w32 0xF0000600)
    (fun t => ends 0 2 0x0600 t && t.seg.cs == 0xF000 && t.load 0x200FA .w16 == 0x0100 && t.depth == 1) = true := by decide
theorem test_mov_cs_strict : gives ({ cpu [0x8E, 0xC8] (esp := 0x100) with cfg := { strictInvalid := true } })
    (fun t => ends 0 2 0x0100 t && t.seg.cs == 0x1000 && t.gpr.esp == 0x100 && t.run == .stopped .invalidOpcode) = true := by decide
theorem test_reserved : refuses (cpu [0x82]) .reservedEncoding = true := by decide
theorem test_trap_flag_refused : refuses (cpu [0x90] (fl := 0x0102)) .trapFlagSet = true := by decide
theorem test_interrupt_wakes_halt : gives ({ cpu [] (esp := 0x100) (fl := 0x0202) (ss := 0x2000) with
      run := .halted, inputs := [⟨false, some 8⟩] })
    (fun t => t.inta && t.run == .fetching && t.flags.image == 2 && t.load 0x200FA .w16 == 0x0100 && t.depth == 1) = true := by decide

end Sys2Proof.Tests
end

