-- ==== Sys2Proof/Tests/Witnesses.lean ====
section
/-! SUPPORT. For every statement with hypotheses, states and operands that meet all of them together, one for each
clause, at boundary values where a clause has a range. -/

namespace Sys2Proof.Tests

open Sys2Proof Sys2Proof.Config Sys2Proof.Machine

/-! ### Shared states -/

/-- Segments at the top of the address space, a stack that wraps, every other register distinct. -/
def topState : State :=
  { cpu [0x90] (eax := 0x00FF1234) (ebx := 0xFFFF000F) (ecx := 0x80010000) (edx := 0x12340001) (esp := 0x00050004)
      (ss := 0xFFFF) (ds := 0xFFFF) (fl := 0x0203) with depth := 1 }

/-- The last four bytes of the address space: DS:0xFFEC with DS = 0xFFFF is 0x10FFDC. -/
def lastBytes : Rm := .mem ⟨none, .direct 0xFFEC⟩

/-- A machine with the first 64 KiB of memory only. -/
def smallState : State := { cpu [] (ss := 0xFFF) (esp := 0x10) (ds := 0xFFF) with cfg := { memSize := 0x10000 }, depth := 1 }

theorem identity_injOn (lo hi : Nat) : ({} : Params).injOn lo hi := fun _ _ _ _ _ _ h => h

theorem line20Low_injOn (lo : Nat) : ({ a20 := .line20Low } : Params).injOn lo (lo + 0x10001) := by
  intro a b h1 h2 h3 h4 h
  have h' : a % 2 ^ 20 = b % 2 ^ 20 := h
  omega

/-! ### Decoding -/

theorem witness_DecodeOfEncode :
    (Instr.add (.rmImm (.mem ⟨some .gs, .based .bp (.d16 0xFFFF)⟩) (.i32 0xFFFFFFFF))).wf = true ∧
    (encode (.add (.rmImm (.mem ⟨some .gs, .based .bp (.d16 0xFFFF)⟩) (.i32 0xFFFFFFFF)))).length = 10 := by decide

theorem witness_LengthIsBytesConsumed :
    ∃ i r, decode [0x66, 0x2E, 0xF0, 0x81, 0x86, 0x34, 0x12, 0x78, 0x56, 0x34, 0x12, 0x90] = .ok (i, r) ∧ r.len = 11 :=
  ⟨_, _, rfl, rfl⟩

theorem witness_PrefixEffects_order :
    let ps : List Byte := [0x26, 0x66, 0x2E]
    let qs : List Byte := [0xF0, 0x2E, 0x66, 0x66]
    ps.all isPlainPrefix = true ∧ qs.all isPlainPrefix = true ∧ lastOverride ps = lastOverride qs ∧
      ((0x66 : Byte) ∈ ps ↔ (0x66 : Byte) ∈ qs) := by decide
theorem witness_PrefixEffects_rep :
    let ps : List Byte := [0x26, 0xF2, 0x66]
    ps.all isPrefixByte = true ∧ ((0xF2 : Byte) ∈ ps ∨ (0xF3 : Byte) ∈ ps) ∧ (Instr.div .w8 (.reg .bx)).wf = true ∧
      Instr.div .w8 (.reg .bx) ≠ .reserved 0x82 none := by decide
theorem witness_PrefixEffects_no66 :
    let ps : List Byte := [0x66, 0xF0]
    ps.all isPlainPrefix = true ∧ (0x66 : Byte) ∈ ps ∧
      [Instr.pushf, .popf, .iret, .int 0, .jcc .o 0, .jmpRel8 0, .jmpRel16 0, .movRmSreg (.reg .ax) .ds, .movSregRm .ds (.reg .ax),
        .invalidMovCs 0xC8, .invalid 0x8C 0xF0].all (fun i => i.wf && i.refuses66) = true := by decide
theorem witness_PrefixEffects_67 : ([0x2E, 0xF3] : List Byte).all isPrefixByte = true := by decide

theorem witness_InvalidEncodings : topState.cfg.strictInvalid = false ∧ topState.trapOk 6 = true ∧
    ({ topState with cfg := { strictInvalid := true } } : State).cfg.strictInvalid = true := by decide

/-- 0x60, 0x0F 0x05, 0xFF /2 to /6. -/
theorem witness_NotAdmitted : isPrefixByte 0x60 = false ∧ (0x05 : Byte) ∉ [0xA4, 0xA5, 0xAC, 0xAD, 0xAF] ∧
    groupIndex 0xD0 = 2 ∧ groupIndex 0xF7 = 6 ∧ decode [0x60] = .error .notAdmitted := by decide
theorem witness_NotAdmitted_step : (cpu [0x60]).ready ∧ decode (cpu [0x60]).fetchBytes = .error .notAdmitted := by
  unfold State.ready
  decide

/-- Fifteen ES overrides, then NOP as the sixteenth byte. -/
theorem witness_TooLongRefused : ∃ i r, (cpu (List.replicate 15 0x26)).ready ∧
    (cpu (List.replicate 15 0x26)).fetchBytes.length = 15 ∧
    decode ((cpu (List.replicate 15 0x26)).fetchBytes ++ [0x90]) = .ok (i, r) ∧ 15 < r.len := by
  refine ⟨_, _, by unfold State.ready; decide, by decide, rfl, by decide⟩

/-! ### Steps -/

theorem witness_StepRunsDecoded : ∃ i r, topState.ready ∧ decode topState.fetchBytes = .ok (i, r) :=
  ⟨_, _, by unfold State.ready; decide, rfl⟩

theorem witness_StepRunsStoredBytes : let s := cpu [0xCD, 0x21]
    s.ready ∧ (Instr.int 0x21).wf = true ∧ s.inMem (lin s.seg.cs s.ip) (encode (.int 0x21)).length = true ∧
      ∀ k b, (encode (.int 0x21))[k]? = some b → s.byteAt (s.phys (lin s.seg.cs s.ip + k)) = b := by
  refine ⟨by unfold State.ready; decide, by decide, by decide, ?_⟩
  intro k b h
  match k, h with
  | 0, h => exact Option.some.inj h
  | 1, h => exact Option.some.inj h
  | k + 2, h => cases h

theorem witness_OrderOfChecks :
    ({ topState with inputs := [⟨true, some 3⟩], run := .stopped .invalidOpcode } : State).pins.reset = true ∧
    (let s : State := { topState with run := .stopped .contextUnderflow, inputs := [⟨false, some 3⟩] }
     s.pins.reset = false ∧ s.run = .stopped .contextUnderflow) ∧
    (let s : State := { topState with run := .halted, flags := Flags.ofImage 0x0300, inputs := [⟨false, some 3⟩] }
     s.pins.reset = false ∧ s.run = .halted ∧ s.flags.tf = true) ∧
    (let s : State := { topState with inputs := [⟨false, some 0xFF⟩] }
     s.pins.reset = false ∧ s.run = .fetching ∧ s.flags.tf = false ∧ s.acceptedIntr = some 0xFF) ∧
    (let s : State := { topState with run := .halted }
     s.pins.reset = false ∧ s.run = .halted ∧ s.flags.tf = false ∧ s.acceptedIntr = none) := by decide

theorem witness_ResetSetsEveryRegister :
    ({ topState with inputs := [⟨true, none⟩], run := .halted } : State).pins.reset = true := by decide

/-- Vectors 0 and 255, from both run states. -/
theorem witness_InterruptTaken :
    ([((0 : Byte), RunState.fetching), (255, .halted)].all fun p =>
      let s : State := { topState with inputs := [⟨false, some p.1⟩, ⟨true, none⟩], run := p.2 }
      decide (s.pins.reset = false ∧ (s.run = .fetching ∨ s.run = .halted) ∧ s.flags.tf = false ∧ s.flags.ifl = true ∧
        s.pins.intr = some p.1 ∧ s.trapOk p.1 = true)) = true := by decide

theorem witness_InterruptMasked :
    let s : State := { cpu [0x90] with inputs := [⟨false, some 8⟩], run := .halted }
    s.inputs.head? = some ⟨false, some 8⟩ ∧ s.flags.ifl = false ∧ s.run = .halted ∧ s.flags.tf = false := by decide

theorem witness_StoppedStays :
    let s : State := { topState with run := .stopped .invalidOpcode, inputs := [⟨false, some 8⟩, ⟨false, none⟩, ⟨true, none⟩] }
    s.run = .stopped .invalidOpcode ∧ ∀ p ∈ s.inputs.take 2, p.reset = false := by decide

/-- A state in which an interrupt is about to be taken, and a state with bytes in memory. -/
theorem witness_InvKept :
    Machine.Inv ({ topState with inputs := [⟨false, some 8⟩] } : State) ∧
    gives { topState with inputs := [⟨false, some 8⟩] } (fun t => t.inta) = true ∧
    topState.mem ≠ [] := by
  unfold Machine.Inv
  decide

/-! ### Whole-machine rules -/

theorem witness_SegmentWriters :
    (∃ t, (Instr.movSregRm .fs (.reg .ax)).wf = true ∧ exec (.movSregRm .fs (.reg .ax)) topState = .next t ∧
      t.seg.get .fs ≠ topState.seg.get .fs) ∧
    (∃ t, (Instr.int 0xFF).wf = true ∧ exec (.int 0xFF) topState = .next t ∧ t.seg.get .cs ≠ topState.seg.get .cs) :=
  ⟨⟨_, rfl, rfl, by decide⟩, ⟨_, rfl, rfl, by decide⟩⟩

theorem witness_FlagWriters :
    (∃ t, exec .cli topState = .next t ∧ t.flags.ifl ≠ topState.flags.ifl) ∧
    (∃ t, exec .std topState = .next t ∧ t.flags.df ≠ topState.flags.df) ∧
    (∃ t, exec .iret (topState.store 0x100 .w16 1) = .next t) ∧
    (∃ t, exec .popf (topState.store (lin 0xFFFF 4) .w16 0x0100) = .next t ∧ t.flags.tf ≠ topState.flags.tf ∧
      t.flags.tf = true ∧ topState.flags.tf = false) ∧
    (∃ t, exec (.inc (.short .o16 .ax)) topState = .next t ∧ topState.specified) :=
  ⟨⟨_, rfl, by decide⟩, ⟨_, rfl, by decide⟩, ⟨_, rfl⟩, ⟨_, rfl, by decide, by decide, by decide⟩, ⟨_, rfl, rfl⟩⟩

theorem witness_DepthRule :
    (∃ t, exec (.int 0) topState = .next t ∧ takeTrap topState 0 topState.nextIp = .next t ∧ t.depth = 2) ∧
    (∃ t, exec .iret topState = .next t ∧ t.depth = 0) ∧ (∃ t, exec .nop topState = .next t ∧ t.depth = 1) :=
  ⟨⟨_, rfl, rfl, by decide⟩, ⟨_, rfl, by decide⟩, ⟨_, rfl, by decide⟩⟩

theorem witness_IpAdvances :
    (∃ t, exec .hlt topState = .next t ∧ Instr.hlt.transfers = false ∧ t.run ≠ topState.run) ∧
    (∃ t, exec (.div .w16 (.reg .bx)) topState = .next t ∧ t.depth = topState.depth) ∧
    (∃ t, exec .iret { topState with depth := 0 } = .next t ∧ t.run ≠ topState.run) ∧
    (∃ t, exec (.invalidMovCs 0xC8) { topState with cfg := { strictInvalid := true } } = .next t ∧ t.run ≠ topState.run) :=
  ⟨⟨_, rfl, by decide, by decide⟩, ⟨_, rfl, by decide⟩, ⟨_, rfl, by decide⟩, ⟨_, rfl, by decide⟩⟩

/-! ### Memory -/

theorem witness_StoreThenLoad : memWf topState.mem ∧ topState.cfg.injOn 0x10FFEC (0x10FFEC + 4) ∧
    (let s : State := { topState with cfg := { a20 := .line20Low } }
     memWf s.mem ∧ s.cfg.injOn 0xFFFFE (0xFFFFE + 4)) := by
  refine ⟨by decide, identity_injOn _ _, by decide, fun a b h1 h2 h3 h4 h => ?_⟩
  exact line20Low_injOn 0xFFFFE a b h1 (by omega) h3 (by omega) h

/-- The operand's first bytes are inside memory, its last is the first byte outside; a stack and a vector outside. -/
theorem witness_OutOfMemoryStops :
    (Instr.not .w16 (.mem ⟨none, .direct 0xF⟩)).dest = some (.w16, .mem ⟨none, .direct 0xF⟩) ∧
    (Instr.not .w16 (.mem ⟨none, .direct 0xF⟩)).access = some (.w16, .mem ⟨none, .direct 0xF⟩) ∧
    ¬ smallState.cfg.memSize ≤ smallState.phys (smallState.linOf ⟨none, .direct 0xF⟩ + 0) ∧
    smallState.cfg.memSize ≤ smallState.phys (smallState.linOf ⟨none, .direct 0xF⟩ + 1) ∧
    ({ smallState with gpr := { smallState.gpr with esp := 0x12 } } : State).trapOk 0 = false ∧
    ({ smallState with gpr := { smallState.gpr with esp := 0x11 } } : State).slotOk (-2) = false ∧
    smallState.slotOk 0 = false ∧ smallState.depth ≠ 0 ∧ smallState.iretOk = false := by decide

/-- CS:ip two bytes below the end of memory: the displacement of `NEG BYTE [disp16]` is outside, and an override runs out. -/
def endState : State :=
  { smallState with seg := { smallState.seg with cs := 0xFFF }, ip := 0xE, mem := [(0xFFFE, 0xF6), (0xFFFF, 0x1E)] }

theorem witness_OutOfMemoryStops_fetch : endState.ready ∧ (Instr.neg .w8 (.mem ⟨none, .direct 5⟩)).wf = true ∧
    2 < (encode (.neg .w8 (.mem ⟨none, .direct 5⟩))).length ∧
    (∀ j b, j < 2 → (encode (.neg .w8 (.mem ⟨none, .direct 5⟩)))[j]? = some b →
      endState.phys (lin endState.seg.cs endState.ip + j) < endState.cfg.memSize ∧
      endState.byteAt (endState.phys (lin endState.seg.cs endState.ip + j)) = b) ∧
    endState.cfg.memSize ≤ endState.phys (lin endState.seg.cs endState.ip + 2) ∧
    decode endState.fetchBytes = .error .truncated ∧ endState.fetchBytes.length = 2 := by
  refine ⟨by unfold State.ready; decide, by decide, by decide, ?_, by decide, by decide, by decide⟩
  intro j b hj h
  match j, hj, h with
  | 0, _, h => exact ⟨by decide, Option.some.inj h⟩
  | 1, _, h => exact ⟨by decide, Option.some.inj h⟩

/-- A trap entry whose lowest push is the first byte outside, by each of its causes. -/
theorem witness_OutOfMemoryStops_trap :
    let s : State := { smallState with gpr := { smallState.gpr with esp := 0x12 } }
    s.trapOk 0 = false ∧ s.trapOk 6 = false ∧ s.cfg.strictInvalid = false ∧ s.rmOk .w8 (.reg .bx) = true ∧
    (s.readRm .w8 (.reg .bx)).toNat = 0 ∧
    (let q : State := { s with gpr := { s.gpr with eax := 0x0100, ebx := 1 } }
     q.trapOk 0 = false ∧ 2 ^ 8 ≤ (q.dividend .w8).toNat / (q.readRm .w8 (.reg .bx)).toNat ∧
     fitsSigned 8 ((q.dividend .w8).toInt.tdiv (q.readRm .w8 (.reg .bx)).toInt) = false) ∧
    (let u : State := { s with flags := Flags.ofImage 0x0200, inputs := [⟨false, some 0xFF⟩], run := .halted }
     u.pins.reset = false ∧ u.run = .halted ∧ u.flags.tf = false ∧ u.acceptedIntr = some 0xFF ∧ u.trapOk 0xFF = false) := by
  decide

/-! ### Results: an operand that is wholly inside memory, at its last bytes, in every form -/

theorem witness_AddAdcResult : topState.binOk (.rmReg .w32 lastBytes .cx) = true ∧
    topState.binOk (.regRm .w16 .sp lastBytes) = true ∧ topState.binOk (.accImm (.i8 0xFF)) = true ∧
    topState.binOk (.rmImm lastBytes (.i32 1)) = true ∧ topState.binOk (.rmImmS .o32 lastBytes 0x80) = true := by decide
theorem witness_SubSbbResult : topState.binOk (.regRm .w32 .ax lastBytes) = true := by decide
theorem witness_CmpNegResult : topState.binOk (.rmImmS .o16 lastBytes 0xFF) = true ∧ topState.rmOk .w32 lastBytes = true := by
  decide
theorem witness_IncDecResult : topState.rmOk .w32 lastBytes = true ∧ topState.rmOk OpSize.o32.width (.reg .sp) = true ∧
    (∃ o r, IncForm.short .o32 .sp = .short o r ∧ Width.w32 = o.width ∧ Rm.reg .sp = .reg r) :=
  ⟨by decide, by decide, .o32, .sp, rfl, rfl, rfl⟩
theorem witness_AndOrXorResult : topState.binOk (.rmReg .w8 lastBytes .di) = true ∧ topState.specified ∧
    ¬ ({ topState with cfg := { undefFlagPolicy := .draw } } : State).specified := by
  unfold State.specified
  decide
theorem witness_TestNotResult : topState.binOk (testBin (.rmImm lastBytes (.i16 3))) = true ∧
    topState.rmOk .w16 lastBytes = true := by decide
theorem witness_MulResult : topState.rmOk .w8 lastBytes = true ∧ topState.rmOk .w32 (.reg .dx) = true ∧ topState.specified := by
  unfold State.specified
  decide
theorem witness_ImulOneOperandResult : topState.rmOk .w16 (.reg .dx) = true ∧ topState.rmOk .w32 lastBytes = true := by decide
theorem witness_ImulIntoRegisterResult : topState.rmOk OpSize.o16.width lastBytes = true ∧
    topState.rmOk OpSize.o32.width (.reg .bp) = true := by decide

/-- Quotients 255 (completes) and 256 (faults), and the divisor 0. -/
theorem witness_DivResult :
    let s (ax bl : DWord) : State := cpu [] (eax := ax) (ebx := bl)
    (s 0x00FF 1).rmOk .w8 (.reg .bx) = true ∧ ((s 0x00FF 1).readRm .w8 (.reg .bx)).toNat ≠ 0 ∧
    ((s 0x00FF 1).gpr.read .w16 .ax).toNat / ((s 0x00FF 1).readRm .w8 (.reg .bx)).toNat = 2 ^ 8 - 1 ∧
    ((s 0x0100 1).gpr.read .w16 .ax).toNat / ((s 0x0100 1).readRm .w8 (.reg .bx)).toNat = 2 ^ 8 ∧
    ((s 0x0100 0).readRm .w8 (.reg .bx)).toNat = 0 := by decide
/-- Quotients -128 and 127 (complete), -129 and 128 (fault), and the divisor 0. -/
theorem witness_IdivResult :
    let q (ax bl : DWord) : Int := ((cpu [] (eax := ax) (ebx := bl)).gpr.read .w16 .ax).toInt.tdiv
      ((cpu [] (eax := ax) (ebx := bl)).readRm .w8 (.reg .bx)).toInt
    q 0xFF80 1 = -128 ∧ q 0x007F 1 = 127 ∧ q 0xFF7F 1 = -129 ∧ q 0xFF80 0xFF = 128 ∧
    fitsSigned 8 (-128) = true ∧ fitsSigned 8 127 = true ∧ fitsSigned 8 (-129) = false ∧ fitsSigned 8 128 = false ∧
    (cpu [] (eax := 7)).rmOk .w8 (.reg .bx) = true ∧ ((cpu [] (eax := 7)).readRm .w8 (.reg .bx)).toInt = 0 := by decide

/-- Counts 1, the largest below the modulus, and past it. -/
theorem witness_RolRorResult : topState.rmOk .w8 lastBytes = true ∧ (topState.countVal .one).toNat % 32 % 8 = 1 ∧
    (topState.countVal (.imm 0xFF)).toNat % 32 % 32 = 31 ∧ (topState.countVal (.imm 9)).toNat % 32 % 8 = 1 := by decide
theorem witness_RclRcrResult : topState.rmOk .w16 (.reg .ax) = true ∧ (topState.countVal (.imm 16)).toNat % 32 % 17 = 16 ∧
    (topState.countVal (.imm 18)).toNat % 32 % 17 = 1 := by decide
theorem witness_ShlShrResult : topState.rmOk .w32 lastBytes = true ∧ (topState.countVal (.imm 31)).toNat % 32 ≠ 0 ∧
    (topState.countVal .one).toNat % 32 = 1 := by decide
theorem witness_SarResult : topState.rmOk .w8 (.reg .di) = true ∧ (topState.countVal (.imm 8)).toNat % 32 = 8 := by decide
theorem witness_ShldShrdResult : topState.rmOk OpSize.o16.width lastBytes = true ∧
    (topState.dcountVal (.imm 16)).toNat % 32 = 16 ∧ (topState.dcountVal (.imm 17)).toNat % 32 = 17 ∧
    (topState.dcountVal (.imm 31)).toNat % 32 = 31 := by decide
theorem witness_ReducedCountZero : topState.rmOk .w8 lastBytes = true ∧ (topState.countVal (.imm 8)).toNat % 32 % 8 = 0 ∧
    (topState.countVal (.imm 27)).toNat % 32 % 9 = 0 ∧ (topState.countVal (.imm 32)).toNat % 32 = 0 ∧
    topState.rmOk OpSize.o32.width lastBytes = true ∧ (topState.dcountVal .cl).toNat % 32 = 0 := by decide

theorem witness_MovResult : topState.rmOk .w8 lastBytes = true ∧ topState.rmOk .w16 lastBytes = true ∧
    topState.rmOk .w32 lastBytes = true := by decide
theorem witness_MovSegmentResult : topState.rmOk .w16 lastBytes = true ∧ SReg.gs ≠ .cs ∧ SReg.es ≠ .gs := by decide
/-- SP = 0x0001 after PUSHF has the pushed word across the end of the segment. -/
theorem witness_PushfPopfResult : memWf topState.mem ∧
    topState.cfg.injOn (topState.seg.ss.toNat * 16) (topState.seg.ss.toNat * 16 + 0x10001) ∧
    topState.slotOk (-2) = true ∧ topState.slotOk 0 = true ∧
    (cpu [] (esp := 1) (ss := 0x2000)).slotOk (-2) = true :=
  ⟨by decide, identity_injOn _ _, by decide, by decide, by decide⟩

/-! ### Exceptions -/

theorem witness_TrapEntry : topState.trapOk 0 = true ∧ topState.trapOk 0xFF = true ∧ memWf topState.mem ∧
    topState.cfg.injOn (topState.seg.ss.toNat * 16) (topState.seg.ss.toNat * 16 + 0x10001) :=
  ⟨by decide, by decide, by decide, identity_injOn _ _⟩
theorem witness_IntEntersTrap : topState.trapOk 0xFF = true := by decide
theorem witness_IretResult : topState.depth ≠ 0 ∧ topState.iretOk = true ∧
    (∃ t, exec .iret { topState with depth := 0 } = .next t) := ⟨by decide, by decide, _, rfl⟩
/-- The handler changes a register and nothing of the frame. -/
theorem witness_IntThenIret : ∃ t u : State, memWf topState.mem ∧
    topState.cfg.injOn (topState.seg.ss.toNat * 16) (topState.seg.ss.toNat * 16 + 0x10001) ∧
    exec (.int 0xFF) topState = .next t ∧ u.gpr.ebx ≠ t.gpr.ebx ∧ u.cfg = topState.cfg ∧ u.seg.ss = t.seg.ss ∧
    u.sp = t.sp ∧ u.depth = t.depth ∧
    (∀ d ∈ [(2 : Word), 4, 6], ∀ k, k < 2 →
      u.byteAt (topState.phys (lin topState.seg.ss (topState.sp - d) + k)) =
        t.byteAt (topState.phys (lin topState.seg.ss (topState.sp - d) + k))) := by
  refine ⟨topState.trapped 0xFF topState.nextIp,
    { topState.trapped 0xFF topState.nextIp with gpr := { (topState.trapped 0xFF topState.nextIp).gpr with ebx := 7 } },
    by decide, identity_injOn _ _, rfl, by decide, rfl, rfl, rfl, rfl, fun d _ k _ => rfl⟩

/-! ### Frames -/

theorem witness_DestinationFrame :
    (∃ t, (Instr.not .w8 (.reg .sp)).dest = some (.w8, .reg .sp) ∧ memWf topState.mem ∧
      exec (.not .w8 (.reg .sp)) topState = .next t) ∧
    (∃ t, (Instr.movRmImm lastBytes (.i32 5)).dest = some (.w32, lastBytes) ∧ memWf topState.mem ∧
      exec (.movRmImm lastBytes (.i32 5)) topState = .next t) :=
  ⟨⟨_, rfl, by decide, rfl⟩, ⟨_, rfl, by decide, rfl⟩⟩

theorem witness_NoStoreFrame :
    (∃ t, Instr.storesNothing (.div .w16 (.reg .bx)) = true ∧ exec (.div .w16 (.reg .bx)) topState = .next t ∧
      t.depth ≤ topState.depth) ∧
    (∃ t, Instr.storesNothing .iret = true ∧ exec .iret topState = .next t ∧ t.depth ≤ topState.depth) :=
  ⟨⟨_, rfl, rfl, by decide⟩, ⟨_, rfl, rfl, by decide⟩⟩

end Sys2Proof.Tests
end

section
/-! SUPPORT. The state rules (`10_state.md`): registers and the flag image bit by bit, the ALU port, which flags an ALU
operation writes, and everything an instruction can do, said once (`exec_effect`), from which the whole-machine rules
follow. Then the obligations of the family. -/

namespace Sys2Proof.Machine

open Sys2Proof.Config

/-! ### The bits of a register view (R20 to R24) -/

theorem withWord0_getLsbD (c : DWord) (v : Word) (k : Nat) :
    (withWord0 c v).getLsbD k = if k < 16 then v.getLsbD k else c.getLsbD k := by
  have hhigh := BitVec.getLsbD_of_ge c k
  simp only [withWord0, BitVec.getLsbD_append, BitVec.getLsbD_extractLsb']
  grind

theorem withByte0_getLsbD (c : DWord) (v : Byte) (k : Nat) :
    (withByte0 c v).getLsbD k = if k < 8 then v.getLsbD k else c.getLsbD k := by
  have hhigh := BitVec.getLsbD_of_ge c k
  simp only [withByte0, BitVec.getLsbD_append, BitVec.getLsbD_extractLsb']
  grind

theorem withByte1_getLsbD (c : DWord) (v : Byte) (k : Nat) :
    (withByte1 c v).getLsbD k = if 8 ≤ k ∧ k < 16 then v.getLsbD (k - 8) else c.getLsbD k := by
  have hhigh := BitVec.getLsbD_of_ge c k
  simp only [withByte1, BitVec.getLsbD_append, BitVec.getLsbD_extractLsb']
  grind

section
variable (g : Gprs) (r q : Gpr) (k : Nat)

theorem Gprs.cell_write32_getLsbD (v : DWord) :
    ((g.write .w32 r v).cell q).getLsbD k = if q = r then v.getLsbD k else (g.cell q).getLsbD k := by
  by_cases hq : q = r
  · subst hq
    simp only [Gprs.cell_write32, if_true]
  · rw [Gprs.cell_write_other g .w32 r q v hq, if_neg hq]

theorem Gprs.cell_write16_getLsbD (v : Word) : ((g.write .w16 r v).cell q).getLsbD k =
    if q = r ∧ k < 16 then v.getLsbD k else (g.cell q).getLsbD k := by
  by_cases hq : q = r
  · subst hq
    simp only [Gprs.cell_write16, withWord0_getLsbD, true_and]
  · rw [Gprs.cell_write_other g .w16 r q v hq, if_neg (hq ·.1)]

theorem Gprs.cell_write8_low_getLsbD (v : Byte) (hlow : byteCell r = (r, false)) :
    ((g.write .w8 r v).cell q).getLsbD k = if q = r ∧ k < 8 then v.getLsbD k else (g.cell q).getLsbD k := by
  by_cases hq : q = r
  · have hcell := g.cell_write8 r v
    simp only [hlow, Bool.false_eq_true, if_false] at hcell
    simp only [hq, hcell, withByte0_getLsbD, true_and]
  · have hother : q ≠ viewCell .w8 r := by simpa only [viewCell, hlow] using hq
    rw [Gprs.cell_write_other g .w8 r q v hother, if_neg (hq ·.1)]

theorem Gprs.cell_write8_high_getLsbD (c : Gpr) (v : Byte) (hhigh : byteCell r = (c, true)) :
    ((g.write .w8 r v).cell q).getLsbD k =
      if q = c ∧ 8 ≤ k ∧ k < 16 then v.getLsbD (k - 8) else (g.cell q).getLsbD k := by
  by_cases hq : q = c
  · have hcell := g.cell_write8 r v
    simp only [hhigh, if_true] at hcell
    simp only [hq, hcell, withByte1_getLsbD, true_and]
  · have hother : q ≠ viewCell .w8 r := by simpa only [viewCell, hhigh] using hq
    rw [Gprs.cell_write_other g .w8 r q v hother, if_neg (hq ·.1)]

theorem byteCell_high_iff : (byteCell r).2 = true ↔ r ∈ [Gpr.sp, .bp, .si, .di] := by
  cases r <;> decide

theorem Gprs.read_getLsbD (w : Width) (hk : k < w.bits) : (g.read w r).getLsbD k =
    (g.cell (viewCell w r)).getLsbD (if w = .w8 ∧ r ∈ [Gpr.sp, .bp, .si, .di] then k + 8 else k) := by
  cases w with
  | w8 =>
    simp only [Gprs.read, viewCell, byteCell_high_iff, true_and]
    split_ifs <;> simp [hk, Nat.add_comm]
  | w16 => simp [Gprs.read, viewCell, hk]
  | w32 => simp [Gprs.read, viewCell]
end

/-- A segment register that a write of register `q` changed is `q` (R26). -/
theorem Segs.eq_of_get_set_ne {g : Segs} {q r : SReg} {v : Word} (h : (g.set q v).get r ≠ g.get r) : r = q :=
  by_contra fun hrq => h (Segs.get_set_other g q r v hrq)

/-! ### The flag image (R28) -/

theorem Flags.image_getLsbD (f : Flags) (k : Nat) : f.image.getLsbD k =
    (if k = 0 then f.cf else if k = 1 then true else if k = 2 then f.pf else if k = 4 then f.af else
     if k = 6 then f.zf else if k = 7 then f.sf else if k = 8 then f.tf else if k = 9 then f.ifl else
     if k = 10 then f.df else if k = 11 then f.ofl else false) := by
  rcases Nat.lt_or_ge k 16 with hk | hk
  · simp only [Flags.image, BitVec.getLsbD_append, BitVec.getLsbD_ofBool]
    interval_cases k <;> rfl
  · rw [BitVec.getLsbD_of_ge _ _ hk]
    iterate 10 rw [if_neg (by omega)]

theorem Flags.ofImage_image (f : Flags) : Flags.ofImage f.image = f := by
  simp only [Flags.ofImage, Flags.image_getLsbD]
  rfl

theorem Flags.image_ofImage (v : Word) : (Flags.ofImage v).image = (v &&& 0x0FD5) ||| 0x0002 := by
  refine BitVec.eq_of_getLsbD_eq fun k hk => ?_
  rw [Flags.image_getLsbD, BitVec.getLsbD_or, BitVec.getLsbD_and]
  interval_cases k <;> simp [Flags.ofImage]

theorem Flags.image_setLow (f : Flags) (b : Byte) :
    (f.setLow b).image = (f.image &&& 0xFF00) ||| ((b &&& 0xD5) ||| 0x02).setWidth 16 := by
  refine BitVec.eq_of_getLsbD_eq fun k hk => ?_
  simp only [Flags.image_getLsbD, BitVec.getLsbD_or, BitVec.getLsbD_and, BitVec.getLsbD_setWidth]
  interval_cases k <;> simp [Flags.setLow]

/-! ### The ALU port (R45) -/

theorem divToPort_fault {n : Nat} (x : BitVec 64) (d : Option (DivOut n)) :
    (divToPort x d).fault = d.isNone := by cases d <;> rfl

theorem aluPort_div_fault (mode : RotLeftOf) (w : Width) (i : AluIn) : (aluPort mode .div w i).fault = true ↔
      i.value2.toNat % 2 ^ w.bits = 0 ∨
      2 ^ w.bits ≤ i.value1.toNat % 2 ^ (2 * w.bits) / (i.value2.toNat % 2 ^ w.bits) := by
  simp only [aluPort, divToPort_fault, aluDiv_eq, BitVec.toNat_setWidth, Option.isNone_iff_eq_none, ite_eq_right_iff,
    reduceCtorEq, imp_false, not_and_or, ne_eq, not_not, Nat.not_lt]

theorem aluPort_carryIn (mode : RotLeftOf) (op : AluSel) (w : Width) (i : AluIn) (c : Bool)
    (hop : op ∉ [.adc, .sbb, .rcl, .rcr]) : aluPort mode op w { i with carryIn := c } = aluPort mode op w i := by
  cases op with
  | adc | sbb | rcl | rcr => exact absurd (by decide) hop
  | _ => rfl

theorem aluPort_fault (mode : RotLeftOf) (op : AluSel) (w : Width) (i : AluIn)
    (h : (aluPort mode op w i).fault = true) : op = .div ∨ op = .idiv := by
  cases op with
  | div => exact .inl rfl
  | idiv => exact .inr rfl
  | shld | shrd => cases w <;> cases h
  | _ => cases h

/-! ### Reset (R420) -/

theorem step_of_reset (s : State) (h : s.pins.reset = true) : step s = .next s.sampled.resetNow := by
  simp [step, State.front, h]

theorem Flags.zero_get (n : FlagName) : Flags.zero.get n = false := by cases n <;> rfl

theorem Flags.zero_image : Flags.zero.image = 0x0002 := by decide

/-! ### Which flags an ALU operation writes (R29) -/

/-- One entry of a flag write set by name. -/
def FlagWrites.get (w : FlagWrites) : FlagName → Option Bool
  | .cf => w.cf
  | .pf => w.pf
  | .af => w.af
  | .zf => w.zf
  | .sf => w.sf
  | .ofl => w.ofl

theorem FlagWrites.apply_get (w : FlagWrites) (f : Flags) (n : FlagName) :
    (w.apply f).get n = (w.get n).getD (f.get n) := by cases n <;> rfl

/-- A write set that names only flags of a list (R9, R29). -/
structure FlagWrites.Within (w : FlagWrites) (names : List FlagName) : Prop where
  unwritten : ∀ n, n ∉ names → w.get n = none

theorem FlagWrites.Within.apply_get {w : FlagWrites} {names : List FlagName} (h : w.Within names) (f : Flags)
    {n : FlagName} (hn : n ∉ names) : (w.apply f).get n = f.get n := by
  rw [FlagWrites.apply_get, h.unwritten n hn, Option.getD_none]

theorem FlagWrites.within_of_empty (names : List FlagName) : ({} : FlagWrites).Within names := by
  refine ⟨fun n hn => ?_⟩
  cases n <;> rfl

theorem FlagWrites.within_all (w : FlagWrites) : w.Within [.cf, .pf, .af, .zf, .sf, .ofl] := by
  refine ⟨fun n hn => ?_⟩
  cases n <;> exact absurd (by decide) hn

theorem FlagWrites.within_allButCf {w : FlagWrites} (h : w.cf = none) : w.Within [.pf, .af, .zf, .sf, .ofl] := by
  refine ⟨fun n hn => ?_⟩
  cases n with
  | cf => exact h
  | _ => exact absurd (by decide) hn

theorem FlagWrites.within_allButAf {w : FlagWrites} (h : w.af = none) : w.Within [.cf, .pf, .zf, .sf, .ofl] := by
  refine ⟨fun n hn => ?_⟩
  cases n with
  | af => exact h
  | _ => exact absurd (by decide) hn

theorem FlagWrites.within_carryOverflow (c o : Option Bool) :
    ({ cf := c, ofl := o } : FlagWrites).Within [.cf, .ofl] := by
  refine ⟨fun n hn => ?_⟩
  cases n with
  | cf | ofl => exact absurd (by decide) hn
  | _ => rfl

theorem AluOut.ite_within {n : Nat} {names : List FlagName} (c : Prop) [Decidable c] {a b : AluOut n}
    (ha : a.fw.Within names) (hb : b.fw.Within names) : (if c then a else b).fw.Within names := by
  split
  · exact ha
  · exact hb

section
variable {n : Nat} (v1 v2 : BitVec n) (k : Byte) (c : Bool) (mode : RotLeftOf)

theorem aluInc_within : (aluInc v1).fw.Within [.pf, .af, .zf, .sf, .ofl] := FlagWrites.within_allButCf rfl
theorem aluDec_within : (aluDec v1).fw.Within [.pf, .af, .zf, .sf, .ofl] := FlagWrites.within_allButCf rfl
theorem logicOut_within : (logicOut v1).fw.Within [.cf, .pf, .zf, .sf, .ofl] := FlagWrites.within_allButAf rfl

theorem aluMul_within : (aluMul v1 v2).fw.Within [.cf, .pf, .zf, .sf, .ofl] := by
  refine FlagWrites.within_allButAf ?_
  by_cases hn : n = 8 <;> simp [aluMul, hn, FlagWrites.zsp]

theorem aluImul_within : (aluImul v1 v2).fw.Within [.cf, .ofl] := FlagWrites.within_carryOverflow _ _

theorem aluRol_within : (aluRol mode v1 k).fw.Within [.cf, .ofl] :=
  AluOut.ite_within _ (FlagWrites.within_of_empty _) (FlagWrites.within_carryOverflow _ _)

theorem aluRor_within : (aluRor v1 k).fw.Within [.cf, .ofl] :=
  AluOut.ite_within _ (FlagWrites.within_of_empty _) (FlagWrites.within_carryOverflow _ _)

theorem aluRcl_within : (aluRcl mode v1 k c).fw.Within [.cf, .ofl] :=
  AluOut.ite_within _ (FlagWrites.within_of_empty _) (FlagWrites.within_carryOverflow _ _)

theorem aluRcr_within : (aluRcr v1 k c).fw.Within [.cf, .ofl] :=
  AluOut.ite_within _ (FlagWrites.within_of_empty _) (FlagWrites.within_carryOverflow _ _)

theorem aluShl_within : (aluShl v1 k).fw.Within [.cf, .pf, .zf, .sf, .ofl] :=
  AluOut.ite_within _ (FlagWrites.within_of_empty _) (FlagWrites.within_allButAf rfl)

theorem aluShr_within : (aluShr v1 k).fw.Within [.cf, .pf, .zf, .sf, .ofl] :=
  AluOut.ite_within _ (FlagWrites.within_of_empty _) (FlagWrites.within_allButAf rfl)

theorem aluSar_within : (aluSar v1 k).fw.Within [.cf, .pf, .zf, .sf, .ofl] :=
  AluOut.ite_within _ (FlagWrites.within_of_empty _) (FlagWrites.within_allButAf rfl)

theorem aluShld_within : (aluShld v1 v2 k).fw.Within [.cf, .pf, .zf, .sf, .ofl] :=
  AluOut.ite_within _ (FlagWrites.within_of_empty _) (FlagWrites.within_allButAf rfl)

theorem aluShrd_within : (aluShrd v1 v2 k).fw.Within [.cf, .pf, .zf, .sf, .ofl] :=
  AluOut.ite_within _ (FlagWrites.within_of_empty _) (FlagWrites.within_allButAf rfl)

end

/-! ### What an instruction can do -/

/-- The writes of registers and memory an instruction makes before its flags and `ip` (step 5 of R82): registers only,
an `E` operand inside memory, or one push. -/
inductive DataWrite (s : State) : State → Prop
  | regs (g : Gprs) : DataWrite s { s with gpr := g }
  | operand (w : Width) (e : Rm) (v : BitVec w.bits) (hok : s.rmOk w e = true) : DataWrite s (s.writeRm w e v)
  | push (v : Word) (hok : s.slotOk (-2) = true) : DataWrite s (s.push16 v)

theorem DataWrite.refl (s : State) : DataWrite s s := .regs s.gpr

theorem DataWrite.eq_update {s u : State} (h : DataWrite s u) : ∃ g m, u = { s with gpr := g, mem := m } := by
  cases h with
  | regs g => exact ⟨g, s.mem, rfl⟩
  | operand w e v _ =>
    cases e with
    | reg r => exact ⟨s.gpr.write w r v, s.mem, rfl⟩
    | mem m => exact ⟨s.gpr, (s.store (s.linOf m) w v).mem, rfl⟩
  | push v _ => exact ⟨(s.push16 v).gpr, (s.push16 v).mem, rfl⟩

theorem DataWrite.writeDouble (s : State) (w : Width) (v : BitVec (2 * w.bits)) : DataWrite s (s.writeDouble w v) := by
  cases w <;> exact .regs _

theorem DataWrite.writeQuotRem (s : State) (w : Width) (d : DivOut w.bits) : DataWrite s (s.writeQuotRem w d) := by
  cases w <;> exact .regs _

/-- The latch `fl` differs from that of `s` only in flags the instruction writes by R29: IF, DF and TF under either
policy, the other six under `as_specified`. -/
structure FlagsWrittenBy (i : Instr) (s : State) (fl : Flags) : Prop where
  ifl : fl.ifl ≠ s.flags.ifl → i = .cli ∨ i = .sti ∨ i = .popf
  df : fl.df ≠ s.flags.df → i = .cld ∨ i = .std ∨ i = .popf
  tf : fl.tf ≠ s.flags.tf → i = .popf
  rest : s.specified → ∀ n, n ∉ i.flagsWritten → fl.get n = s.flags.get n

theorem FlagsWrittenBy.refl (i : Instr) (s : State) : FlagsWrittenBy i s s.flags :=
  ⟨(absurd rfl ·), (absurd rfl ·), (absurd rfl ·), fun _ _ _ => rfl⟩

/-- The effects an instruction that gives a next state can have: which parts of the state are written, and what the
instruction and the state must be for it. -/
inductive Effect (i : Instr) (s : State) : State → Prop
  /-- data and flags are written, and `ip` moves past the instruction (R82) -/
  | completes (u : State) (fl : Flags) (draws : Nat) (hdata : DataWrite s u) (hflags : FlagsWrittenBy i s fl) :
      Effect i s ({ u with flags := fl, draws := draws } : State).advance
  /-- MOV to a segment register (R304) -/
  | loadsSeg (r : SReg) (e : Rm) (v : Word) (hi : i = .movSregRm r e) :
      Effect i s ({ s with seg := s.seg.set r v } : State).advance
  /-- a jump, taken or not (R340) -/
  | jumps (target : Word) (hi : i.transfers = true) (htrap : i.canTrap = false) : Effect i s { s with ip := target }
  /-- HLT (R347) -/
  | halts (hi : i = .hlt) : Effect i s { s.advance with run := .halted }
  /-- the trap entry (R377) -/
  | traps (n : Byte) (saved : Word) (hi : i.canTrap = true) (hok : s.trapOk n = true) : Effect i s (s.trapped n saved)
  /-- the fatal stop of an invalid encoding in strict mode (R371) -/
  | stopsInvalid (hi : (∃ op m, i = .invalid op m) ∨ ∃ m, i = .invalidMovCs m)
      (hstrict : s.cfg.strictInvalid = true) : Effect i s (s.stopFatal .invalidOpcode)
  /-- the fatal stop of IRET at depth 0 (R385) -/
  | stopsIret (hi : i = .iret) (hdepth : s.depth = 0) : Effect i s (s.stopFatal .contextUnderflow)
  /-- IRET (R380) -/
  | returns (hi : i = .iret) (hdepth : s.depth ≠ 0) (hok : s.iretOk = true) : Effect i s s.iretted

section
variable {i : Instr} {s t u : State}

theorem Effect.writesData (hd : DataWrite s u) : Effect i s u.advance := by
  obtain ⟨g, m, rfl⟩ := hd.eq_update
  exact .completes _ _ _ hd (.refl i s)

theorem Effect.writesFlags {fl : Flags} (hf : FlagsWrittenBy i s fl) :
    Effect i s ({ s with flags := fl } : State).advance :=
  .completes s fl s.draws (.refl s) hf

/-- The flag latch written through a write set (step 6 of R82), whatever the policy leaves free. -/
theorem Effect.writesDataFlags (hd : DataWrite s u) {fw : FlagWrites} (hw : fw.Within i.flagsWritten)
    (names : List FlagName) : Effect i s (u.writeFlags fw names).advance := by
  obtain ⟨fl, k, heq, hspec, -, htf, hifl, hdf⟩ := u.writeFlags_cases fw names
  rw [heq]
  refine .completes u fl k hd ?_
  obtain ⟨g, m, rfl⟩ := hd.eq_update
  refine ⟨(absurd hifl ·), (absurd hdf ·), (absurd htf ·), fun hs n hn => ?_⟩
  rw [(hspec (.inl hs)).1]
  exact hw.apply_get _ hn

theorem binOk_dst {f : BinForm} (h : s.binOk f = true) : s.rmOk (binWidth f) (binDst f) = true := by
  cases f with
  | regRm | accImm => rfl
  | _ => exact h

theorem execBin_effect {op : AluOp2} {names : List FlagName} {f : BinForm}
    (h : execBin op names f s = .next t) (hw : ∀ a b : BitVec (binWidth f).bits, (op a b).fw.Within i.flagsWritten) :
    Effect i s t := by
  obtain ⟨hok, rfl⟩ := (execBin_next ..).mp h
  exact .writesDataFlags (.operand _ _ _ (binOk_dst hok)) (hw _ _) names

theorem execBinFlags_effect {op : AluOp2} {names : List FlagName} {f : BinForm}
    (h : execBinFlags op names f s = .next t)
    (hw : ∀ a b : BitVec (binWidth f).bits, (op a b).fw.Within i.flagsWritten) : Effect i s t := by
  obtain ⟨-, rfl⟩ := (execBinFlags_next ..).mp h
  exact .writesDataFlags (.refl s) (hw _ _) names

theorem execRmw_effect {w : Width} {e : Rm} {op : BitVec w.bits → AluOut w.bits} {names : List FlagName}
    (h : execRmw w e op names s = .next t) (hw : ∀ v, (op v).fw.Within i.flagsWritten) : Effect i s t := by
  obtain ⟨hok, rfl⟩ := (execRmw_next ..).mp h
  exact .writesDataFlags (.operand _ _ _ hok) (hw _) names

theorem imulInto_effect {w : Width} {g : Gpr} {e : Rm} {a b : BitVec w.bits}
    (h : imulInto w g e a b s = .next t) (hw : (aluImul a b).fw.Within i.flagsWritten) : Effect i s t := by
  obtain ⟨-, rfl⟩ := (imulInto_next ..).mp h
  exact .writesDataFlags (.regs _) hw _

theorem execDivide_effect {w : Width} {e : Rm}
    {divide : BitVec (2 * w.bits) → BitVec w.bits → Option (DivOut w.bits)}
    (h : execDivide w e divide s = .next t) (hi : i.canTrap = true) : Effect i s t := by
  obtain ⟨-, ⟨d, -, rfl⟩ | ⟨-, hok, rfl⟩⟩ := (execDivide_next ..).mp h
  · exact .writesDataFlags (.writeQuotRem s w d) (FlagWrites.within_of_empty _) _
  · exact .traps 0 _ hi hok

theorem guardMem_effect {ok : Bool} (h : guardMem ok u = .next t) (he : ok = true → Effect i s u) : Effect i s t := by
  obtain ⟨hok, rfl⟩ := (guardMem_next ..).mp h
  exact he hok

theorem next_effect (h : (Host.Outcome.next u : Result) = .next t) (he : Effect i s u) : Effect i s t := by
  cases h
  exact he

theorem raiseInvalidOpcode_effect (h : raiseInvalidOpcode s = .next t)
    (hi : (∃ op m, i = .invalid op m) ∨ ∃ m, i = .invalidMovCs m) : Effect i s t := by
  have htrap : i.canTrap = true := by
    obtain ⟨op, m, rfl⟩ | ⟨m, rfl⟩ := hi <;> rfl
  obtain ⟨hstrict, rfl⟩ | ⟨-, hok, rfl⟩ := (raiseInvalidOpcode_next ..).mp h
  · exact .stopsInvalid hi hstrict
  · exact .traps 6 _ htrap hok

theorem trapReturn_effect (h : trapReturn s = .next t) (hi : i = .iret) : Effect i s t := by
  obtain ⟨hdepth, rfl⟩ | ⟨hdepth, hok, rfl⟩ := (trapReturn_next ..).mp h
  · exact .stopsIret hi hdepth
  · exact .returns hi hdepth hok

/-- What is left to show for a latch that keeps IF, DF and TF (R307, R310 to R312). -/
theorem FlagsWrittenBy.of_control_kept {fl : Flags} (hifl : fl.ifl = s.flags.ifl) (hdf : fl.df = s.flags.df)
    (htf : fl.tf = s.flags.tf) (hrest : ∀ n, n ∉ i.flagsWritten → fl.get n = s.flags.get n) :
    FlagsWrittenBy i s fl :=
  ⟨(absurd hifl ·), (absurd hdf ·), (absurd htf ·), fun _ => hrest⟩

end

/-- What `exec` can do, said once: an instruction that gives a next state has one of the effects. -/
theorem exec_effect {i : Instr} {s t : State} (h : exec i s = .next t) : Effect i s t := by
  cases i <;>
    simp only [exec, execRol, execRor, execRcl, execRcr, execShl, execShr, execSar, execShld, execShrd] at h
  case add f | adc f | sub f | sbb f => exact execBin_effect h fun _ _ => FlagWrites.within_all _
  case and f | or f | xor f => exact execBin_effect h fun _ _ => logicOut_within _
  case cmp f => exact execBinFlags_effect h fun _ _ => FlagWrites.within_all _
  case test f => exact execBinFlags_effect h fun _ _ => logicOut_within _
  case inc f => cases f <;> exact execRmw_effect h aluInc_within
  case dec f => cases f <;> exact execRmw_effect h aluDec_within
  case neg w e => exact execRmw_effect h fun _ => FlagWrites.within_all _
  case not w e => exact execRmw_effect h fun _ => FlagWrites.within_of_empty _
  case mul w e => exact guardMem_effect h fun _ => .writesDataFlags (.writeDouble ..) (aluMul_within ..) _
  case imul w e => exact guardMem_effect h fun _ => .writesDataFlags (.writeDouble ..) (aluImul_within ..) _
  case imulRegRm | imulRegRmImm | imulRegRmImmS => exact imulInto_effect h (aluImul_within ..)
  case div w e | idiv w e => exact execDivide_effect h rfl
  case rol w e c => exact execRmw_effect h fun _ => aluRol_within ..
  case ror w e c => exact execRmw_effect h fun _ => aluRor_within ..
  case rcl w e c => exact execRmw_effect h fun _ => aluRcl_within ..
  case rcr w e c => exact execRmw_effect h fun _ => aluRcr_within ..
  case shl w e c => exact execRmw_effect h fun _ => aluShl_within ..
  case shr w e c => exact execRmw_effect h fun _ => aluShr_within ..
  case sar w e c => exact execRmw_effect h fun _ => aluSar_within ..
  case shld o e g c => exact execRmw_effect h fun _ => aluShld_within ..
  case shrd o e g c => exact execRmw_effect h fun _ => aluShrd_within ..
  case movRmReg | movRmImm | movRmSreg => exact guardMem_effect h fun hok => .writesData (.operand _ _ _ hok)
  case movRegRm => exact guardMem_effect h fun _ => .writesData (.regs _)
  case movRegImm => exact next_effect h (.writesData (.regs _))
  case movSregRm r e => exact guardMem_effect h fun _ => .loadsSeg r e _ rfl
  case nop | esc => exact next_effect h (.writesData (.refl s))
  case lahf => exact next_effect h (.writesData (.regs _))
  case sahf =>
    refine next_effect h (.writesFlags (.of_control_kept rfl rfl rfl fun n hn => ?_))
    cases n with
    | ofl => rfl
    | _ => exact absurd (by decide) hn
  case pushf => exact guardMem_effect h fun hok => .writesData (.push _ hok)
  case popf =>
    refine guardMem_effect h fun _ => .completes s.pop16 _ _ (.regs _) ⟨?_, ?_, fun _ => rfl, fun _ n hn => ?_⟩
    · exact fun _ => .inr (.inr rfl)
    · exact fun _ => .inr (.inr rfl)
    · cases n <;> exact absurd (by decide) hn
  case clc | stc | cmc =>
    refine next_effect h (.writesFlags (.of_control_kept rfl rfl rfl fun n hn => ?_))
    cases n with
    | cf => exact absurd (by decide) hn
    | _ => rfl
  case cld | std =>
    refine next_effect h (.writesFlags ⟨(absurd rfl ·), fun _ => by simp, (absurd rfl ·), fun _ n _ => ?_⟩)
    cases n <;> rfl
  case cli | sti =>
    refine next_effect h (.writesFlags ⟨fun _ => by simp, (absurd rfl ·), (absurd rfl ·), fun _ n _ => ?_⟩)
    cases n <;> rfl
  case jcc c rel =>
    refine next_effect h ?_
    split <;> exact .jumps _ rfl rfl
  case jmpRel8 | jmpRel16 => exact next_effect h (.jumps _ rfl rfl)
  case int n => exact guardMem_effect h (.traps n _ rfl)
  case iret => exact trapReturn_effect h rfl
  case hlt => exact next_effect h (.halts rfl)
  case invalid op m => exact raiseInvalidOpcode_effect h (.inl ⟨op, m, rfl⟩)
  case invalidMovCs m => exact raiseInvalidOpcode_effect h (.inr ⟨m, rfl⟩)
  case reserved => cases h

/-! ### `ip` and control transfer (R30, R340) -/

theorem nextIp_eq (s : State) : s.nextIp = BitVec.ofNat 16 (s.dec.ipStart.toNat + s.dec.len) := by
  simp [State.nextIp, BitVec.ofNat_add]

theorem transfers_of_canTrap {i : Instr} (h : i.canTrap = true) : i.transfers = true := by
  cases i with
  | int | div | idiv | invalid | invalidMovCs => rfl
  | _ => cases h

/-! ### The obligations -/

/-- Settles O18: of the effects of an instruction only a segment load, a trap entry and an IRET write a segment
register. -/
theorem segmentWriters : Obligations.SegmentWriters := by
  unfold Obligations.SegmentWriters
  intro i s t r hwf h
  cases exec_effect h with
  | completes u fl k hdata _ =>
    obtain ⟨g, m, rfl⟩ := hdata.eq_update
    exact ⟨(absurd rfl ·), rfl, rfl, rfl, rfl⟩
  | loadsSeg q e v hi =>
    refine ⟨fun hne => .inl ?_, rfl, rfl, rfl, rfl⟩
    obtain rfl := Segs.eq_of_get_set_ne hne
    subst hi
    have hcs : r ≠ .cs := by
      simp only [Instr.wf, Bool.and_eq_true, decide_eq_true_eq] at hwf
      exact hwf.2
    exact ⟨hcs, e, rfl⟩
  | jumps | halts | stopsInvalid | stopsIret => exact ⟨(absurd rfl ·), rfl, rfl, rfl, rfl⟩
  | traps n saved hi _ =>
    exact ⟨fun hne => .inr ⟨Segs.eq_of_get_set_ne (q := .cs) hne, .inr hi⟩, rfl, rfl, rfl, rfl⟩
  | returns hi _ _ =>
    exact ⟨fun hne => .inr ⟨Segs.eq_of_get_set_ne (q := .cs) hne, .inl hi⟩, rfl, rfl, rfl, rfl⟩

/-- Settles O19: a completing instruction writes the flags of R29's table, a trap entry clears IF and TF, IRET copies an
image, and no other effect writes a flag. -/
theorem flagWriters : Obligations.FlagWriters := by
  unfold Obligations.FlagWriters
  intro i s t h
  cases exec_effect h with
  | completes u fl k _ hflags =>
    refine ⟨fun hne => ?_, fun hne => ?_, fun hne => .inl (hflags.tf hne), fun h1 h0 => .inl (hflags.tf ?_),
      hflags.rest⟩
    · rcases hflags.ifl hne with hi | hi | hi <;> simp [hi]
    · rcases hflags.df hne with hi | hi | hi <;> simp [hi]
    · simpa [h0] using h1
  | loadsSeg | jumps | halts | stopsInvalid | stopsIret =>
    refine ⟨(absurd rfl ·), (absurd rfl ·), (absurd rfl ·), fun h1 h0 => ?_, fun _ _ _ => rfl⟩
    exact absurd (h1.symm.trans h0) Bool.true_eq_false.mp
  | traps n saved hi _ =>
    exact ⟨fun _ => by simp [hi], (absurd rfl ·), fun _ => by simp [hi], nofun, fun _ n _ => by cases n <;> rfl⟩
  | returns hi _ _ =>
    subst hi
    refine ⟨fun _ => by simp, fun _ => by simp, fun _ => .inr (.inl rfl), fun _ _ => .inr rfl, fun _ n hn => ?_⟩
    cases n <;> exact absurd (by decide) hn

/-- Settles O20: of the effects of an instruction only a trap entry and an IRET write the depth. -/
theorem depthRule : Obligations.DepthRule := by
  unfold Obligations.DepthRule
  intro i s t h
  refine ⟨?_, fun n saved htrap => ?_⟩
  · cases exec_effect h with
    | completes u fl k hdata _ =>
      obtain ⟨g, m, rfl⟩ := hdata.eq_update
      exact .inl rfl
    | loadsSeg | jumps | halts | stopsInvalid | stopsIret => exact .inl rfl
    | traps n saved hi hok => exact .inr (.inl ⟨hi, rfl, n, saved, (takeTrap_next ..).mpr ⟨hok, rfl⟩⟩)
    | returns hi hdepth _ => exact .inr (.inr ⟨hi, by simp only [State.iretted_depth]; omega⟩)
  · obtain ⟨-, rfl⟩ := (takeTrap_next ..).mp htrap
    rfl

/-- Settles O21: of the effects of an instruction each one that leaves another `ip` than the next offset belongs to a
control transfer, and each one that changes the run state to its one instruction. -/
theorem ipAdvances : Obligations.IpAdvances := by
  unfold Obligations.IpAdvances
  intro i s t h
  rw [← nextIp_eq]
  cases exec_effect h with
  | completes u fl k hdata _ =>
    obtain ⟨g, m, rfl⟩ := hdata.eq_update
    exact ⟨fun _ => rfl, fun _ _ _ _ => rfl, (absurd rfl ·)⟩
  | loadsSeg => exact ⟨fun _ => rfl, fun _ _ _ _ => rfl, (absurd rfl ·)⟩
  | halts hi => exact ⟨fun _ => rfl, fun _ _ _ _ => rfl, fun _ => .inl ⟨hi, rfl⟩⟩
  | jumps target hi htrap =>
    refine ⟨fun hno => absurd (hi.symm.trans hno) nofun, fun w e hdiv => ?_, (absurd rfl ·)⟩
    obtain rfl | rfl := hdiv <;> cases htrap
  | traps n saved hi hok =>
    refine ⟨fun hno => absurd ((transfers_of_canTrap hi).symm.trans hno) nofun, fun _ _ _ hd => ?_, (absurd rfl ·)⟩
    exact absurd hd (Nat.succ_ne_self _)
  | stopsInvalid hi hstrict =>
    refine ⟨fun hno => ?_, fun w e hdiv => ?_, fun _ => .inr (.inr ⟨hstrict, rfl, hi⟩)⟩
    · obtain ⟨op, m, rfl⟩ | ⟨m, rfl⟩ := hi <;> cases hno
    · obtain ⟨op, m, rfl⟩ | ⟨m, rfl⟩ := hi <;> obtain hdiv | hdiv := hdiv <;> cases hdiv
  | stopsIret hi hdepth =>
    subst hi
    refine ⟨(nomatch ·), fun w e hdiv => ?_, fun _ => .inr (.inl ⟨rfl, hdepth, rfl⟩)⟩
    obtain hdiv | hdiv := hdiv <;> cases hdiv
  | returns hi _ _ =>
    subst hi
    refine ⟨(nomatch ·), fun w e hdiv => ?_, (absurd rfl ·)⟩
    obtain hdiv | hdiv := hdiv <;> cases hdiv

/-- Settles O22, by the bits of the cell a view lies in. -/
theorem registerViews : Obligations.RegisterViews := by
  unfold Obligations.RegisterViews
  intro g r q k
  refine ⟨g.cell_write32_getLsbD r q k, g.cell_write16_getLsbD r q k, fun v hr => ?low, fun v p hp => ?high,
    fun w => g.read_getLsbD r k w, fun w v => g.read_write_same w r v⟩
  case low =>
    have hlow : byteCell r = (r, false) := by revert r; decide
    exact g.cell_write8_low_getLsbD r q k v hlow
  case high =>
    have hhigh : byteCell p.1 = (p.2, true) := by revert p; decide
    exact g.cell_write8_high_getLsbD p.1 q k p.2 v hhigh

/-- Settles O23, bit by bit. -/
theorem flagsImage : Obligations.FlagsImage := by
  unfold Obligations.FlagsImage
  exact ⟨Flags.image_getLsbD, Flags.ofImage_image, Flags.image_ofImage, Flags.image_setLow⟩

/-- Settles O59, by the operation selected. -/
theorem aluPortReads : Obligations.AluPortReads := by
  unfold Obligations.AluPortReads
  exact fun mode op w i c => ⟨aluPort_carryIn mode op w i c, aluPort_fault mode op w i, aluPort_div_fault mode w i⟩

/-- Settles O12: the step with RESET asserted is `resetNow` of the sampled state. -/
theorem resetSetsEveryRegister : Obligations.ResetSetsEveryRegister := by
  unfold Obligations.ResetSetsEveryRegister
  refine ⟨fun s h => ⟨s.sampled.resetNow, step_of_reset s h, ?_⟩, rfl, rfl, rfl, Flags.zero_image, rfl, rfl⟩
  exact ⟨rfl, rfl, rfl, Flags.zero_get, rfl, rfl, rfl, Flags.zero_image, rfl, rfl, rfl, rfl⟩

/-- Settles O17: memory is empty, no byte is decoded and INTA is low. -/
theorem invAtReset : Obligations.InvAtReset := by
  unfold Obligations.InvAtReset Inv
  exact ⟨reset_memGood.1, reset_memGood.2, by decide, (nomatch ·)⟩

end Sys2Proof.Machine
end

section
/-! SUPPORT. Decoding an encoded instruction gives it back with its length (`30_encoding.md` R112 to R114), family by family
of the opcode map, and no encoding is longer than 11 bytes. -/

namespace Sys2Proof

open Sys2Proof.Config

/-! ### The opcode map read from an encoding -/

/-- Whether a width is that of a `v` form (R109). -/
def Width.wide : Width → Bool
  | .w8 => false
  | _ => true

@[simp] theorem widthOf_wide (w : Width) : widthOf w.wide (decide (w = .w32)) = w := by cases w <;> rfl

@[simp] theorem sizeOf_width (o : OpSize) : sizeOf (decide (o.width = .w32)) = o := by cases o <;> rfl

theorem widthOf_v {w : Width} (h : w ≠ .w8) : widthOf true (decide (w = .w32)) = w := by
  cases w with
  | w8 => exact absurd rfl h
  | w16 | w32 => rfl

/-- A byte that the decoder takes as a one-byte opcode (R101, R112). -/
abbrev isOneByteOpcode (b : Byte) : Prop := isPrefixByte b = false ∧ b ≠ 0x67 ∧ b ≠ 0x0F

theorem opcodeIs_one {b : Byte} {f : OpForm} (h : isOneByteOpcode b ∧ lookup1 b = .form f) : opcodeIs [b] f := by
  obtain ⟨⟨hprefix, h67, h0F⟩, hrow⟩ := h
  exact .inl ⟨b, rfl, hprefix, h67, h0F, hrow⟩

theorem opcodeIs_two {b : Byte} {f : OpForm} (h : lookup2 b = .form f) : opcodeIs [0x0F, b] f := .inr ⟨b, rfl, h⟩

/-- A row whose 8-bit form has opcode `base` and whose `v` form stands one above it (R120). -/
theorem opcodeIs_width (base : Byte) (f : Bool → OpForm) (w : Width)
    (h8 : isOneByteOpcode base ∧ lookup1 base = .form (f false))
    (hv : isOneByteOpcode (base + 1) ∧ lookup1 (base + 1) = .form (f true)) :
    opcodeIs [w.opcode base] (f w.wide) := by
  cases w with
  | w8 => exact opcodeIs_one h8
  | w16 | w32 => exact opcodeIs_one hv

/-! ### Encodings that decode to their instruction -/

/-- Whatever bytes follow, the decoder reads the instruction from these bytes, all of them. -/
def DecodesTo (bs : List Byte) (i : Instr) : Prop :=
  ∀ rest, ∃ r, decode (bs ++ rest) = .ok (i, r) ∧ r.len = bs.length

@[simp] theorem rmRegs_opSize (w : Width) (op : List Byte) (reg : BitVec 3) (e : Rm) (imm : List Byte) :
    (rmRegs w op reg e imm).opSize = decide (w = .w32) := rfl

@[simp] theorem rmRegs_imm (w : Width) (op : List Byte) (reg : BitVec 3) (e : Rm) (imm : List Byte) :
    (rmRegs w op reg e imm).imm = imm := rfl

@[simp] theorem opRegs_opSize (w : Width) (op imm : List Byte) : (opRegs w op imm).opSize = decide (w = .w32) := rfl

@[simp] theorem opRegs_imm (w : Width) (op imm : List Byte) : (opRegs w op imm).imm = imm := rfl

/-- An instruction with an `E` operand. -/
theorem DecodesTo.encodeRm {w : Width} {op imm : List Byte} {reg : BitVec 3} {e : Rm} {f : OpForm} {i : Instr}
    (he : e.wf = true) (hop : opcodeIs op f) (hbuild : f.build (rmRegs w op reg e imm) = i)
    (hm : f.hasModrm = true := by rfl) (hc : f.check reg = .ok := by rfl)
    (h66 : w = .w32 → f.no66 = false := by exact fun _ => rfl)
    (himm : imm.length = f.immLen (decide (w = .w32)) reg := by rfl) : DecodesTo (encodeRm w op reg e imm) i :=
  fun rest => ⟨_, hbuild ▸ decode_encodeRm w op reg e imm rest f he hop hm hc h66 himm, rfl⟩

/-- An instruction without a ModRM byte. -/
theorem DecodesTo.opImm {op imm : List Byte} {f : OpForm} {i : Instr} (w : Width) (hop : opcodeIs op f)
    (hbuild : f.build (opRegs w op imm) = i) (hm : f.hasModrm = false := by rfl)
    (h66 : w = .w32 → f.no66 = false := by exact fun _ => rfl)
    (himm : imm.length = f.immLen (decide (w = .w32)) (regField 0) := by rfl) :
    DecodesTo (w.prefixBytes ++ op ++ imm) i :=
  fun rest => ⟨_, hbuild ▸ decode_opImm w op imm rest f hop hm h66 himm, rfl⟩

/-- An instruction of its opcode alone, with or without the operand-size byte. -/
theorem DecodesTo.op {op : List Byte} {f : OpForm} {i : Instr} (w : Width) (hop : opcodeIs op f)
    (hbuild : f.build (opRegs w op []) = i) (hm : f.hasModrm = false := by rfl)
    (h66 : w = .w32 → f.no66 = false := by exact fun _ => rfl)
    (himm : 0 = f.immLen (decide (w = .w32)) (regField 0) := by rfl) : DecodesTo (w.prefixBytes ++ op) i := by
  simpa using DecodesTo.opImm w hop hbuild hm h66 himm

/-- Table 1 and group 1 of R120. -/
theorem decodesTo_encodeAlu (k : AluOp) (f : BinForm) (hf : f.wf = true) : DecodesTo (encodeAlu k f) (k.instr f) := by
  cases f with
  | rmReg w e g =>
    refine .encodeRm hf (opcodeIs_width _ (.aluRmReg k) w ?_ ?_) (by simp [OpForm.build, rmRegs_e _ _ _ _ _ hf])
    all_goals cases k <;> decide
  | regRm w g e =>
    refine .encodeRm hf (opcodeIs_width _ (.aluRegRm k) w ?_ ?_) (by simp [OpForm.build, rmRegs_e _ _ _ _ _ hf])
    all_goals cases k <;> decide
  | accImm i =>
    refine .opImm i.width (opcodeIs_width _ (.aluAcc k) i.width ?_ ?_) (by simp [OpForm.build])
      (himm := by simp [OpForm.immLen, Imm.bytes_length])
    all_goals cases k <;> decide
  | rmImm e i =>
    exact .encodeRm hf (opcodeIs_width 0x80 .grp1 i.width (by decide) (by decide))
      (by simp [OpForm.build, rmRegs_e _ _ _ _ _ hf]) (himm := by simp [OpForm.immLen, Imm.bytes_length])
  | rmImmS o e i =>
    exact .encodeRm hf (opcodeIs_one (f := .grp1S) (by decide))
      (by simp [OpForm.build, rmRegs_e _ _ _ _ _ hf, byte0])

/-- Group 2 of R120 and R121, for an index that is not reserved. -/
theorem decodesTo_encodeShift (n : BitVec 3) (hn : n.toNat ≠ 6) (w : Width) (e : Rm) (he : e.wf = true) (c : Count) :
    DecodesTo (encodeShift n w e c) (grp2Instr n w e c) := by
  have hcheck : ∀ kind, (OpForm.grp2 w.wide kind).check n = .ok := fun _ => if_neg hn
  cases c with
  | imm k =>
    exact .encodeRm he (opcodeIs_width 0xC0 (.grp2 · .imm) w (by decide) (by decide))
      (by simp [OpForm.build, CountKind.count, byte0, rmRegs_e _ _ _ _ _ he]) (hc := hcheck _)
  | one =>
    exact .encodeRm he (opcodeIs_width 0xD0 (.grp2 · .one) w (by decide) (by decide))
      (by simp [OpForm.build, CountKind.count, rmRegs_e _ _ _ _ _ he]) (hc := hcheck _)
  | cl =>
    exact .encodeRm he (opcodeIs_width 0xD2 (.grp2 · .cl) w (by decide) (by decide))
      (by simp [OpForm.build, CountKind.count, rmRegs_e _ _ _ _ _ he]) (hc := hcheck _)

/-- The double shifts (R120 table 3). -/
theorem decodesTo_shld (o : OpSize) (e : Rm) (he : e.wf = true) (g : Gpr) (c : DCount) :
    DecodesTo (encodeDShift 0xA4 o e g c) (.shld o e g c) := by
  cases c with
  | imm k =>
    exact .encodeRm he (opcodeIs_two (f := .shld false) (by decide))
      (by simp [OpForm.build, dcountOf, byte0, rmRegs_e _ _ _ _ _ he])
  | cl =>
    exact .encodeRm he (opcodeIs_two (f := .shld true) (by decide))
      (by simp [OpForm.build, dcountOf, rmRegs_e _ _ _ _ _ he])

theorem decodesTo_shrd (o : OpSize) (e : Rm) (he : e.wf = true) (g : Gpr) (c : DCount) :
    DecodesTo (encodeDShift 0xAC o e g c) (.shrd o e g c) := by
  cases c with
  | imm k =>
    exact .encodeRm he (opcodeIs_two (f := .shrd false) (by decide))
      (by simp [OpForm.build, dcountOf, byte0, rmRegs_e _ _ _ _ _ he])
  | cl =>
    exact .encodeRm he (opcodeIs_two (f := .shrd true) (by decide))
      (by simp [OpForm.build, dcountOf, rmRegs_e _ _ _ _ _ he])

/-- INC and DEC (R171, R172): group 4 has the byte form, group 5 the `v` form. -/
theorem decodesTo_encodeIncDec (dec : Bool) (f : IncForm) (hf : f.wf = true) :
    DecodesTo (encodeIncDec dec f) (if dec then .dec f else .inc f) := by
  cases f with
  | short o r =>
    cases dec with
    | false => exact .op o.width (opcodeIs_one (f := .incZ r) (by cases r <;> decide)) (by simp [OpForm.build])
    | true => exact .op o.width (opcodeIs_one (f := .decZ r) (by cases r <;> decide)) (by simp [OpForm.build])
  | rm w e =>
    have hcheck : (if dec then 1 else 0 : BitVec 3).toNat < 2 := by cases dec <;> decide
    cases w with
    | w8 =>
      refine .encodeRm hf (opcodeIs_one (f := .grp4) (by decide)) ?_ (hc := if_pos hcheck)
      cases dec <;> simp [OpForm.build, rmRegs_e _ _ _ _ _ hf]
    | w16 | w32 =>
      refine .encodeRm hf (opcodeIs_one (f := .grp5) (by decide)) ?_ (hc := if_pos hcheck)
      cases dec <;> simp [OpForm.build, widthOf, rmRegs_e _ _ _ _ _ hf]

/-- Group 3 of R121 without an immediate. -/
theorem decodesTo_grp3 (n : BitVec 3) (hn : 2 ≤ n.toNat) (w : Width) (e : Rm) (he : e.wf = true) :
    DecodesTo (encodeRm w [w.opcode 0xF6] n e []) (grp3Instr n w e []) := by
  have h0 : n ≠ 0 := by
    rintro rfl
    exact absurd hn (by decide)
  exact .encodeRm he (opcodeIs_width 0xF6 .grp3 w (by decide) (by decide))
    (by simp [OpForm.build, rmRegs_e _ _ _ _ _ he]) (hc := if_neg (by omega)) (himm := (if_neg h0).symm)

/-- An instruction of one opcode byte (R120). -/
theorem decodesTo_plain {b : Byte} {i : Instr} (no66 : Bool)
    (hb : isOneByteOpcode b ∧ lookup1 b = .form (.plain i no66)) : DecodesTo [b] i :=
  .op .w16 (opcodeIs_one hb) rfl (h66 := nofun)

theorem decodesTo_test (f : TestForm) (hf : f.wf = true) : DecodesTo (encode (.test f)) (.test f) := by
  cases f with
  | rmReg w e g =>
    exact .encodeRm hf (opcodeIs_width 0x84 .testRmReg w (by decide) (by decide))
      (by simp [OpForm.build, rmRegs_e _ _ _ _ _ hf])
  | accImm i =>
    exact .opImm i.width (opcodeIs_width 0xA8 .testAcc i.width (by decide) (by decide)) (by simp [OpForm.build])
      (himm := by simp [OpForm.immLen, Imm.bytes_length])
  | rmImm e i =>
    exact .encodeRm hf (opcodeIs_width 0xF6 .grp3 i.width (by decide) (by decide))
      (by simp [OpForm.build, grp3Instr, rmRegs_e _ _ _ _ _ hf]) (himm := by simp [OpForm.immLen, Imm.bytes_length])

/-- MOV `Zb,Ib` and `Zv,Iv` (R301): the register number stands in the opcode byte. -/
theorem decodesTo_movRegImm (g : Gpr) (i : Imm) : DecodesTo (encode (.movRegImm g i)) (.movRegImm g i) := by
  have hop : ∀ w : Width,
      opcodeIs [(match w with | .w8 => (0x16 : BitVec 5) | _ => 0x17) ++ g.num] (.movRegImm w.wide g) := by
    intro w
    cases w <;> exact opcodeIs_one (by cases g <;> decide)
  exact .opImm i.width (hop i.width) (by simp [OpForm.build]) (himm := by simp [OpForm.immLen, Imm.bytes_length])

/-! ### Encodings that the ModRM byte shows to be invalid or reserved (R125, R126) -/

/-- The row takes a ModRM byte and its check of the `reg` field finds `c`. -/
def Lookup.checksTo (n : BitVec 3) (c : ModCheck) : Lookup → Bool
  | .form f => f.hasModrm && decide (f.check n = c)
  | _ => false

/-- The working registers when the ModRM byte is read after one opcode byte. -/
def opcodeRegs (b : Byte) : DecRegs := { DecRegs.idle with len := 1, opcode := [b] }

/-- A ModRM byte whose check ends the instruction. -/
theorem decodesTo_checked {b m : Byte} {c : ModCheck} {i : Instr} (hb : isOneByteOpcode b)
    (h : (lookup1 b).checksTo (regField m) c = true)
    (hend : ∀ f : OpForm, f.check (regField m) = c →
      atModrm f (opcodeRegs b) m = .done i { (opcodeRegs b).eat with modrm := some m }) : DecodesTo [b, m] i := by
  intro rest
  obtain ⟨hprefix, h67, h0F⟩ := hb
  cases hl : lookup1 b with
  | reserved | notAdmitted =>
    rw [hl] at h
    cases h
  | form f =>
    simp only [hl, Lookup.checksTo, Bool.and_eq_true, decide_eq_true_eq] at h
    obtain ⟨hmodrm, hcheck⟩ := h
    have hd : decode (b :: m :: rest) = dRun (.dModrm f) (opcodeRegs b) (m :: rest) := by
      rw [decode, dRun_opcode1 _ _ hprefix h67 h0F, hl]
      simp only [afterLookup, hmodrm, if_true]
      rfl
    exact ⟨_, hd.trans (dRun_done (st := .dModrm f) (hend f hcheck) rest), rfl⟩

/-- The check of every invalid row finds it invalid (R125). -/
theorem invalidRows_check : ∀ p ∈ invalidRows, isOneByteOpcode p.1 ∧
    ∀ n : BitVec 3, n.toNat = p.2 → (lookup1 p.1).checksTo n .invalid = true := by decide

/-- The check of every reserved row finds it reserved (R126). -/
theorem reservedRows_check : ∀ p ∈ reservedRows, isOneByteOpcode p.1 ∧
    ∀ n : BitVec 3, n.toNat = p.2 → (lookup1 p.1).checksTo n .reserved = true := by decide

theorem decodesTo_invalid {op m : Byte} (h : (op, groupIndex m) ∈ invalidRows) : DecodesTo [op, m] (.invalid op m) := by
  obtain ⟨hop, hcheck⟩ := invalidRows_check _ h
  refine decodesTo_checked hop (hcheck (regField m) (groupIndex_eq m).symm) fun f hf => ?_
  simp only [atModrm, hf]
  rfl

theorem decodesTo_reserved {op m : Byte} (h : (op, groupIndex m) ∈ reservedRows) :
    DecodesTo [op, m] (.reserved op (some m)) := by
  obtain ⟨hop, hcheck⟩ := reservedRows_check _ h
  refine decodesTo_checked hop (hcheck (regField m) (groupIndex_eq m).symm) fun f hf => ?_
  simp only [atModrm, hf]
  rfl

theorem decodesTo_invalidMovCs {m : Byte} (h : groupIndex m = 1) : DecodesTo [0x8E, m] (.invalidMovCs m) := by
  have hcheck : ∀ n : BitVec 3, n.toNat = 1 → (lookup1 0x8E).checksTo n .invalidMovCs = true := by decide
  refine decodesTo_checked (by decide) (hcheck (regField m) ((groupIndex_eq m).symm.trans h)) fun f hf => ?_
  simp only [atModrm, hf]

/-! ### Every encodable instruction -/

/-- Decoding an encoded instruction gives it back with its exact length (R113, R114). -/
theorem decodesTo_encode {i : Instr} (hwf : i.wf = true) : DecodesTo (encode i) i := by
  cases i with
  | add f => exact decodesTo_encodeAlu .add f hwf
  | or f => exact decodesTo_encodeAlu .or f hwf
  | adc f => exact decodesTo_encodeAlu .adc f hwf
  | sbb f => exact decodesTo_encodeAlu .sbb f hwf
  | and f => exact decodesTo_encodeAlu .and f hwf
  | sub f => exact decodesTo_encodeAlu .sub f hwf
  | xor f => exact decodesTo_encodeAlu .xor f hwf
  | cmp f => exact decodesTo_encodeAlu .cmp f hwf
  | inc f => exact decodesTo_encodeIncDec false f hwf
  | dec f => exact decodesTo_encodeIncDec true f hwf
  | not w e => exact decodesTo_grp3 2 (by decide) w e hwf
  | neg w e => exact decodesTo_grp3 3 (by decide) w e hwf
  | mul w e => exact decodesTo_grp3 4 (by decide) w e hwf
  | imul w e => exact decodesTo_grp3 5 (by decide) w e hwf
  | div w e => exact decodesTo_grp3 6 (by decide) w e hwf
  | idiv w e => exact decodesTo_grp3 7 (by decide) w e hwf
  | test f => exact decodesTo_test f hwf
  | imulRegRm o g e =>
    exact .encodeRm hwf (opcodeIs_two (f := .imulRegRm) (by decide)) (by simp [OpForm.build, rmRegs_e _ _ _ _ _ hwf])
  | imulRegRmImm g e i =>
    simp only [Instr.wf, Bool.and_eq_true, decide_eq_true_eq] at hwf
    obtain ⟨he, hi⟩ := hwf
    exact .encodeRm he (opcodeIs_one (f := .imulRegRmImm) (by decide))
      (by simp [OpForm.build, rmRegs_e _ _ _ _ _ he, widthOf_v hi]) (himm := by simp [OpForm.immLen, Imm.bytes_length, widthOf_v hi])
  | imulRegRmImmS o g e i =>
    exact .encodeRm hwf (opcodeIs_one (f := .imulRegRmImmS) (by decide))
      (by simp [OpForm.build, byte0, rmRegs_e _ _ _ _ _ hwf])
  | rol w e c => exact decodesTo_encodeShift 0 (by decide) w e hwf c
  | ror w e c => exact decodesTo_encodeShift 1 (by decide) w e hwf c
  | rcl w e c => exact decodesTo_encodeShift 2 (by decide) w e hwf c
  | rcr w e c => exact decodesTo_encodeShift 3 (by decide) w e hwf c
  | shl w e c => exact decodesTo_encodeShift 4 (by decide) w e hwf c
  | shr w e c => exact decodesTo_encodeShift 5 (by decide) w e hwf c
  | sar w e c => exact decodesTo_encodeShift 7 (by decide) w e hwf c
  | shld o e g c => exact decodesTo_shld o e hwf g c
  | shrd o e g c => exact decodesTo_shrd o e hwf g c
  | movRmReg w e g =>
    exact .encodeRm hwf (opcodeIs_width 0x88 .movRmReg w (by decide) (by decide))
      (by simp [OpForm.build, rmRegs_e _ _ _ _ _ hwf])
  | movRegRm w g e =>
    exact .encodeRm hwf (opcodeIs_width 0x8A .movRegRm w (by decide) (by decide))
      (by simp [OpForm.build, rmRegs_e _ _ _ _ _ hwf])
  | movRegImm g i => exact decodesTo_movRegImm g i
  | movRmImm e i =>
    exact .encodeRm hwf (opcodeIs_width 0xC6 .grp11 i.width (by decide) (by decide))
      (by simp [OpForm.build, rmRegs_e _ _ _ _ _ hwf]) (himm := by simp [OpForm.immLen, Imm.bytes_length])
  | movRmSreg e r =>
    exact .encodeRm hwf (opcodeIs_one (f := .movRmSreg) (by decide)) (by simp [OpForm.build, rmRegs_e _ _ _ _ _ hwf])
      (hc := by cases r <;> rfl) (h66 := nofun)
  | movSregRm r e =>
    simp only [Instr.wf, Bool.and_eq_true, decide_eq_true_eq] at hwf
    obtain ⟨he, hr⟩ := hwf
    have hcheck : OpForm.movSregRm.check r.num = .ok := by
      cases r with
      | cs => exact absurd rfl hr
      | _ => rfl
    exact .encodeRm he (opcodeIs_one (f := .movSregRm) (by decide)) (by simp [OpForm.build, rmRegs_e _ _ _ _ _ he])
      (hc := hcheck) (h66 := nofun)
  | nop | sahf | lahf | hlt | cmc | clc | stc | cli | sti | cld | std => exact decodesTo_plain false (by decide)
  | pushf | popf | iret => exact decodesTo_plain true (by decide)
  | jcc c rel =>
    exact .opImm .w16 (opcodeIs_one (f := .jcc c) (by cases c <;> decide)) rfl (h66 := nofun)
  | jmpRel8 rel => exact .opImm .w16 (opcodeIs_one (f := .jmpRel8) (by decide)) rfl (h66 := nofun)
  | jmpRel16 rel =>
    exact .opImm .w16 (opcodeIs_one (f := .jmpRel16) (by decide)) (congrArg Instr.jmpRel16 (word16_bytes16 rel))
      (h66 := nofun)
  | int n => exact .opImm .w16 (opcodeIs_one (f := .int) (by decide)) rfl (h66 := nofun)
  | esc op reg e =>
    have hrow : ∀ op : BitVec 3, isOneByteOpcode ((0x1B : BitVec 5) ++ op) ∧
        lookup1 ((0x1B : BitVec 5) ++ op) = .form (.esc op) := by decide
    exact .encodeRm hwf (opcodeIs_one (hrow op))
      (by simp [OpForm.build, rmRegs_e _ _ _ _ _ hwf]) (h66 := nofun)
  | invalid op m => exact decodesTo_invalid (of_decide_eq_true hwf)
  | invalidMovCs m => exact decodesTo_invalidMovCs (of_decide_eq_true hwf)
  | reserved op m =>
    cases m with
    | none =>
      obtain rfl : op = 0x82 := of_decide_eq_true hwf
      exact fun rest => ⟨_, rfl, rfl⟩
    | some m => exact decodesTo_reserved (of_decide_eq_true hwf)

/-! ### The length of an encoding -/

theorem Width.bytes_le_four (w : Width) : w.bytes ≤ 4 := by cases w <;> decide

theorem Width.prefixBytes_length_le (w : Width) : w.prefixBytes.length ≤ 1 := by cases w <;> decide

theorem Imm.bytes_length_le (i : Imm) : i.bytes.length ≤ 4 := i.bytes_length.trans_le i.width.bytes_le_four

theorem encodeRm_length_le (w : Width) (op : List Byte) (reg : BitVec 3) (e : Rm) (imm : List Byte)
    (hop : op.length ≤ 2 := by simp) (himm : imm.length ≤ 4 := by simp [Imm.bytes_length_le]) :
    (encodeRm w op reg e imm).length ≤ 11 := by
  have hw := w.prefixBytes_length_le
  have hseg : e.overrideBytes.length ≤ 1 := by
    rcases e with r | ⟨_ | g, a⟩ <;> simp [Rm.overrideBytes]
  have hrm : (e.bytes reg).length ≤ 3 := by
    rcases e with r | ⟨o, d | ⟨b, d | d | d⟩⟩ <;> simp [Rm.bytes, bytes16]
  simp only [encodeRm, List.length_append]
  omega

theorem opImm_length_le (w : Width) (op imm : List Byte) (hop : op.length ≤ 2 := by simp)
    (himm : imm.length ≤ 4 := by simp [Imm.bytes_length_le]) : (w.prefixBytes ++ op ++ imm).length ≤ 11 := by
  have hw := w.prefixBytes_length_le
  simp only [List.length_append]
  omega

theorem encodeAlu_length_le (k : AluOp) (f : BinForm) : (encodeAlu k f).length ≤ 11 := by
  cases f with
  | accImm i => exact opImm_length_le ..
  | rmReg | regRm | rmImm | rmImmS => exact encodeRm_length_le ..

theorem encodeShift_length_le (n : BitVec 3) (w : Width) (e : Rm) (c : Count) : (encodeShift n w e c).length ≤ 11 := by
  cases c <;> exact encodeRm_length_le ..

theorem encodeDShift_length_le (base : Byte) (o : OpSize) (e : Rm) (g : Gpr) (c : DCount) :
    (encodeDShift base o e g c).length ≤ 11 := by
  cases c <;> exact encodeRm_length_le ..

theorem encodeIncDec_length_le (dec : Bool) (f : IncForm) : (encodeIncDec dec f).length ≤ 11 := by
  cases f with
  | short o r =>
    rw [← List.append_nil (encodeIncDec dec (.short o r))]
    exact opImm_length_le ..
  | rm w e => exact encodeRm_length_le ..

/-- No encoding needs more than 11 bytes, so every one is within the length limit (R115). -/
theorem encode_length_le (i : Instr) : (encode i).length ≤ 11 := by
  cases i
  case add | or | adc | sbb | and | sub | xor | cmp => exact encodeAlu_length_le ..
  case inc | dec => exact encodeIncDec_length_le ..
  case test f =>
    cases f with
    | accImm i => exact opImm_length_le ..
    | rmReg | rmImm => exact encodeRm_length_le ..
  case rol | ror | rcl | rcr | shl | shr | sar => exact encodeShift_length_le ..
  case shld | shrd => exact encodeDShift_length_le ..
  case neg | not | mul | imul | div | idiv | imulRegRm | imulRegRmImm | imulRegRmImmS | movRmReg | movRegRm | movRmImm
      | movRmSreg | movSregRm | esc => exact encodeRm_length_le ..
  case movRegImm => exact opImm_length_le ..
  case reserved op m => cases m <;> simp [encode]
  all_goals simp [encode, bytes16]

/-- The decoder counts no more bytes than it was given (R112). -/
theorem decode_len_le {bs : List Byte} {i : Instr} {r : DecRegs} (h : decode bs = .ok (i, r)) :
    r.len ≤ bs.length := by
  obtain ⟨-, -, hle⟩ := dRun_append bs [] .dPrefix .idle r i h
  simpa [DecRegs.idle] using hle

end Sys2Proof
end

section
/-! SUPPORT. The memory rules (`20_memory.md`): loads as sums of bytes, effective addresses, the step that runs bytes standing
in memory, what every effect of an instruction keeps of the invariant, which requests fall outside memory, and the frames of
instructions that write one operand or store nothing. Then the obligations of the family. -/

namespace Sys2Proof.Machine

open Sys2Proof.Config

/-! ### Loads (R76, R77) -/

/-- A load is the sum of its bytes, the one at the lowest address least significant (R76). -/
theorem loadNat_eq_sum (s : State) (a n : Nat) :
    s.loadNat a n = ((List.range n).map fun k => (s.byteAt (s.phys (a + k))).toNat * 2 ^ (8 * k)).sum := by
  induction n generalizing a with
  | zero => rfl
  | succ n ih =>
    rw [State.loadNat, ih, List.range_succ_eq_map, List.map_cons, List.sum_cons, List.map_map, ← List.sum_map_mul_left]
    congr 1
    · simp
    · congr 1
      refine List.map_congr_left fun k _ => ?_
      simp only [Function.comp_apply, Nat.succ_eq_add_one, Nat.add_assoc, Nat.add_comm 1 k, Nat.mul_add, Nat.pow_add]
      ring

/-- Memory that holds the bytes of a number is loaded as that number. -/
theorem loadNat_of_bytes (s : State) (a n v : Nat)
    (h : ∀ k, k < n → s.byteAt (s.phys (a + k)) = BitVec.ofNat 8 (v / 256 ^ k)) : s.loadNat a n = v % 256 ^ n := by
  induction n generalizing a v with
  | zero => simp [State.loadNat, Nat.mod_one]
  | succ n ih =>
    have hfirst := h 0 (Nat.succ_pos n)
    have hrest := ih (a + 1) (v / 256) fun k hk => by
      rw [Nat.div_div_eq_div_mul, ← Nat.pow_succ', Nat.add_assoc, Nat.add_comm 1 k]
      exact h (k + 1) (Nat.succ_lt_succ hk)
    simp only [Nat.add_zero, Nat.pow_zero, Nat.div_one] at hfirst
    exact Eq.symm (by rw [State.loadNat, hrest, hfirst, BitVec.toNat_ofNat, Nat.pow_succ', Nat.mod_mul])

theorem load_of_bytes (s : State) (a : Nat) (w : Width) (v : BitVec w.bits)
    (h : ∀ k, k < w.bytes → s.byteAt (s.phys (a + k)) = BitVec.ofNat 8 (v.toNat / 256 ^ k)) : s.load a w = v := by
  refine BitVec.eq_of_toNat_eq ?_
  rw [load_toNat, loadNat_of_bytes s a w.bytes v.toNat h, Nat.mod_eq_of_lt]
  cases w <;> exact v.isLt

/-- A transform that keeps four bytes apart keeps the bytes of an access of any width apart. -/
theorem injOn_access {s : State} {a : Nat} (h : s.cfg.injOn a (a + 4)) (w : Width) (i j : Nat)
    (hi : i < w.bytes) (hj : j < w.bytes) (he : s.phys (a + i) = s.phys (a + j)) : i = j := by
  have hw := w.bytes_le_four
  exact Nat.add_left_cancel (h (a + i) (a + j) (by omega) (by omega) (by omega) (by omega) he)

/-! ### Effective addresses (R105 to R107) -/

/-- The sign-extended byte displacement as a number (R106). -/
theorem dispVal_d8_toNat (x : Byte) :
    (dispVal (.d8 x)).toNat = if x.toNat < 128 then x.toNat else x.toNat + 0xFF00 := by
  have hx := x.isLt
  simp only [dispVal, BitVec.toNat_signExtend, BitVec.toNat_setWidth, BitVec.msb_eq_decide, decide_eq_true_eq]
  split_ifs <;> omega

/-- The default segment of a register-based address (R106). -/
theorem defaultSeg_based (b : Base) (d : Disp) :
    defaultSeg (.based b d) = if b ∈ [.bpsi, .bpdi, .bp] then .ss else .ds := by
  cases b <;> rfl

/-! ### Fetching stored bytes -/

/-- Bytes that stand in memory are fetched (R79). -/
theorem fetchFrom_of_stored (s : State) (bs : List Byte) (a n : Nat) (hn : bs.length ≤ n)
    (h : ∀ k b, bs[k]? = some b → s.phys (a + k) < s.cfg.memSize ∧ s.byteAt (s.phys (a + k)) = b) :
    ∃ rest, s.fetchFrom a n = bs ++ rest := by
  induction bs generalizing a n with
  | nil => exact ⟨_, rfl⟩
  | cons b bs ih =>
    obtain _ | n := n
    · simp at hn
    · obtain ⟨hlt, hb⟩ := h 0 b rfl
      obtain ⟨rest, hrest⟩ := ih (a + 1) n (Nat.le_of_succ_le_succ hn) fun k c hc => by
        have := h (k + 1) c hc
        rwa [Nat.add_comm k, ← Nat.add_assoc] at this
      have hin : s.inMem a 1 = true := by simpa [State.inMem] using hlt
      refine ⟨rest, ?_⟩
      simp only [State.fetchFrom, hin, if_true, hrest, List.cons_append]
      exact congrArg (· :: _) hb

theorem fetchFrom_congr (s t : State) (hm : t.mem = s.mem) (hc : t.cfg = s.cfg) (a n : Nat) :
    t.fetchFrom a n = s.fetchFrom a n := by
  induction n generalizing a with
  | zero => rfl
  | succ n ih => simp only [State.fetchFrom, inMem_congr s t hc, State.byteAt, State.phys, hm, hc, ih]

@[simp] theorem sampled_fetchBytes (s : State) : s.sampled.fetchBytes = s.fetchBytes :=
  fetchFrom_congr s s.sampled rfl rfl _ _

/-! ### Steps of a core about to decode -/

theorem front_of_ready {s : State} (h : s.ready) : s.front = s.sampled.decodePhase := by
  obtain ⟨hreset, hrun, htf, hintr⟩ := h
  simp [State.front, hreset, hrun, htf, hintr]

/-- The step runs what was decoded (R111, R114). -/
theorem step_of_decode {s : State} (h : s.ready) {i : Instr} {r : DecRegs} (hd : decode s.fetchBytes = .ok (i, r)) :
    step s = exec i { s with inputs := s.inputs.tail, inta := false, dec := { r with ipStart := s.ip } } := by
  simp only [step, front_of_ready h, State.decodePhase, sampled_fetchBytes, hd]
  rfl

/-- The step ends as the decoder stopped (R112). -/
theorem step_of_decode_error {s : State} (h : s.ready) {why : DecodeStop} (hd : decode s.fetchBytes = .error why) :
    step s = decodeStopped s.fetchBytes.length why := by
  simp only [step, front_of_ready h, State.decodePhase, sampled_fetchBytes, hd]

/-- Bytes that ran out before the length limit ended at the end of memory (R74). -/
theorem step_of_truncated {s : State} (h : s.ready) (hd : decode s.fetchBytes = .error .truncated)
    (hl : s.fetchBytes.length < maxInsnLen) : step s = .fault .outOfMemory := by
  rw [step_of_decode_error h hd]
  exact if_pos hl

/-! ### Accesses outside memory (R74) -/

theorem inMem_eq_false {s : State} {a n k : Nat} (hk : k < n) (h : s.cfg.memSize ≤ s.phys (a + k)) :
    s.inMem a n = false :=
  Bool.eq_false_iff.mpr fun hin => absurd ((inMem_iff s a n).mp hin k hk) (Nat.not_lt.mpr h)

theorem inMem_add (s : State) (a m n : Nat) : s.inMem a (m + n) = (s.inMem a m && s.inMem (a + m) n) := by
  induction m generalizing a with
  | zero => simp [State.inMem]
  | succ m ih =>
    rw [Nat.add_right_comm, State.inMem, ih, State.inMem, Bool.and_assoc, Nat.add_assoc, Nat.add_comm 1]

/-- The requests of a trap entry (R377): three slots below SP and the four bytes of the vector. -/
theorem trapOk_iff (s : State) (n : Byte) : s.trapOk n = true ↔
    (∀ d ∈ [(2 : Word), 4, 6], ∀ k, k < 2 → s.phys (lin s.seg.ss (s.sp - d) + k) < s.cfg.memSize) ∧
    ∀ k, k < 4 → s.phys (4 * n.toNat + k) < s.cfg.memSize := by
  have hslot : ∀ d : Word, s.slotOk (-d) = true ↔ ∀ k, k < 2 → s.phys (lin s.seg.ss (s.sp - d) + k) < s.cfg.memSize :=
    fun d => by rw [slotOk_iff, BitVec.sub_eq_add_neg]
  have hvec : s.inMem (4 * n.toNat) 4 = (s.inMem (4 * n.toNat) 2 && s.inMem (4 * n.toNat + 2) 2) := inMem_add s _ 2 2
  rw [State.trapOk, Bool.and_assoc, ← hvec]
  simp only [Bool.and_eq_true, hslot, inMem_iff, List.forall_mem_cons, List.not_mem_nil,
    false_imp_iff, implies_true, and_true, and_assoc]

theorem iretOk_iff (s : State) : s.iretOk = true ↔
    ∀ d ∈ [(0 : Word), 2, 4], ∀ k, k < 2 → s.phys (lin s.seg.ss (s.sp + d) + k) < s.cfg.memSize := by
  simp only [State.iretOk, Bool.and_eq_true, slotOk_iff, List.forall_mem_cons, List.not_mem_nil,
    false_imp_iff, implies_true, and_true, and_assoc]

theorem guardMem_of_false {ok : Bool} (t : State) (h : ok = false) : guardMem ok t = .fault .outOfMemory :=
  (guardMem_fault ..).mpr ⟨h, rfl⟩

theorem binOk_of_rm {f : BinForm} {w : Width} {e : Rm} (h : f.rm = some (w, e)) (s : State) : s.binOk f = s.rmOk w e := by
  cases f <;> cases h <;> rfl

/-- An instruction whose `E` operand is not wholly inside memory faults. -/
theorem exec_of_operand_outside {i : Instr} {w : Width} {e : Rm} {s : State} (ha : i.access = some (w, e))
    (hout : s.rmOk w e = false) : exec i s = .fault .outOfMemory := by
  cases i <;>
    simp only [exec, execRol, execRor, execRcl, execRcr, execShl, execShr, execSar, execShld, execShrd]
  case add f | adc f | sub f | sbb f | and f | or f | xor f | cmp f =>
    exact guardMem_of_false _ ((binOk_of_rm ha s).trans hout)
  case test f =>
    refine guardMem_of_false _ ((binOk_of_rm (f := testBin f) ?_ s).trans hout)
    cases f <;> exact ha
  case inc f | dec f =>
    cases f with
    | short => cases ha
    | rm =>
      cases ha
      exact guardMem_of_false _ hout
  case div | idiv =>
    cases ha
    exact if_neg (Bool.eq_false_iff.mp hout)
  case neg | not | mul | imul | imulRegRm | imulRegRmImm | imulRegRmImmS | rol | ror | rcl | rcr | shl | shr | sar | shld
      | shrd | movRmReg | movRegRm | movRmImm | movRmSreg | movSregRm =>
    cases ha
    exact guardMem_of_false _ hout
  all_goals cases ha

/-- A division that faults where the trap entry is outside memory (R224). -/
theorem execDivide_of_fault {w : Width} {e : Rm} {s : State}
    {divide : BitVec (2 * w.bits) → BitVec w.bits → Option (DivOut w.bits)} (hok : s.rmOk w e = true)
    (hfault : divide (s.dividend w) (s.readRm w e) = none) (htrap : s.trapOk 0 = false) :
    execDivide w e divide s = .fault .outOfMemory := by
  simp only [execDivide, hok, hfault, if_true]
  exact guardMem_of_false _ htrap

theorem aluDiv_eq_none {n : Nat} {a : BitVec (2 * n)} {b : BitVec n} (h : b.toNat = 0 ∨ 2 ^ n ≤ a.toNat / b.toNat) :
    aluDiv a b = none := by
  rw [aluDiv_eq, if_neg]
  rintro ⟨h0, hlt⟩
  exact h.elim h0 (Nat.not_le.mpr hlt)

theorem aluIdiv_eq_none {n : Nat} {a : BitVec (2 * n)} {b : BitVec n}
    (h : b.toNat = 0 ∨ fitsSigned n (a.toInt.tdiv b.toInt) = false) : aluIdiv a b = none := by
  rw [aluIdiv_eq, if_neg]
  rintro ⟨h0, hfits⟩
  obtain hb | hb := h
  · obtain rfl : b = 0 := BitVec.eq_of_toNat_eq (by simpa using hb)
    exact h0 BitVec.toInt_zero
  · exact absurd (hb.symm.trans hfits) Bool.false_ne_true

theorem raiseInvalidOpcode_of_outside {s : State} (htrap : s.trapOk 6 = false) (hstrict : s.cfg.strictInvalid = false) :
    raiseInvalidOpcode s = .fault .outOfMemory := by
  simp only [raiseInvalidOpcode, hstrict, Bool.false_eq_true, if_false]
  exact guardMem_of_false _ htrap

/-- An accepted interrupt is taken, out of either run state (R375). -/
theorem step_of_acceptedIntr {s : State} {n : Byte} (hreset : s.pins.reset = false)
    (hrun : s.run = .fetching ∨ s.run = .halted) (htf : s.flags.tf = false) (hn : s.acceptedIntr = some n) :
    step s = takeInterrupt s.sampled n := by
  obtain hrun | hrun := hrun <;> simp [step, State.front, hreset, hrun, htf, hn]

/-- An instruction whose bytes run out of memory: fetching stops in the middle of it (R79). -/
theorem step_of_fetch_outside {s : State} {i : Instr} {k : Nat} (hready : s.ready) (hwf : i.wf = true)
    (hk : k < (encode i).length)
    (hbytes : ∀ j b, j < k → (encode i)[j]? = some b → s.phys (lin s.seg.cs s.ip + j) < s.cfg.memSize ∧
      s.byteAt (s.phys (lin s.seg.cs s.ip + j)) = b)
    (hout : s.cfg.memSize ≤ s.phys (lin s.seg.cs s.ip + k)) : step s = .fault .outOfMemory := by
  have hmax : k < maxInsnLen := hk.trans_le ((encode_length_le i).trans (by decide))
  have hfetch : s.fetchBytes = (encode i).take k := fetchFrom_take s (encode i) k _ _ hmax hk hbytes hout
  have hlen : s.fetchBytes.length = k := by rw [hfetch, List.length_take, Nat.min_eq_left hk.le]
  obtain ⟨r, hd, hr⟩ := decodesTo_encode hwf []
  rw [List.append_nil] at hd
  refine step_of_truncated hready ?_ (hlen.trans_lt hmax)
  refine dRun_truncated _ ((encode i).drop k) .dPrefix .idle r i ?_ ?_
  · rwa [hfetch, List.take_append_drop]
  · rw [hlen, hr]
    simpa [DecRegs.idle] using hk

/-! ### One step -/

/-- A step with a next state settled in its checks, or ran an instruction (R376). -/
theorem step_next {s t : State} (h : step s = .next t) :
    s.front = .settled (.next t) ∨ ∃ i u, s.front = .run i u ∧ exec i u = .next t := by
  unfold step at h
  cases hf : s.front with
  | settled r =>
    rw [hf] at h
    exact .inl (congrArg Phase.settled h)
  | run i u =>
    rw [hf] at h
    exact .inr ⟨i, u, rfl, h⟩

/-! ### What an instruction keeps of the invariant -/

theorem DataWrite.memGood {s u : State} (hd : DataWrite s u) (h : MemGood s) : MemGood u := by
  cases hd with
  | regs g => exact h
  | operand w e v hok => exact writeRm_memGood s w e v h hok
  | push v hok =>
    refine push16_memGood s v h ?_
    rwa [BitVec.sub_eq_add_neg]

theorem Effect.memGood {i : Instr} {s t : State} (he : Effect i s t) (h : MemGood s) : MemGood t := by
  cases he with
  | completes u fl k hdata _ => exact (hdata.memGood h).congr rfl rfl
  | traps n saved _ hok => exact trapped_memGood s n saved h hok
  | loadsSeg | jumps | halts | stopsInvalid | stopsIret | returns => exact h.congr rfl rfl

theorem Effect.dec_inta {i : Instr} {s t : State} (he : Effect i s t) : t.dec = s.dec ∧ t.inta = s.inta := by
  cases he with
  | completes u fl k hdata _ =>
    obtain ⟨g, m, rfl⟩ := hdata.eq_update
    exact ⟨rfl, rfl⟩
  | loadsSeg | jumps | halts | traps | stopsInvalid | stopsIret | returns => exact ⟨rfl, rfl⟩

/-- With `INTA` low the invariant is about memory and the length alone. -/
theorem Inv.of_inta_low {t : State} (hmem : MemGood t) (hlen : t.dec.len ≤ maxInsnLen) (hinta : t.inta = false) :
    Inv t :=
  ⟨hmem.1, hmem.2, hlen, fun h => absurd (hinta.symm.trans h) Bool.false_ne_true⟩

theorem Inv.memGood {s : State} (h : Inv s) : MemGood s := ⟨h.1, h.2.1⟩

/-! ### Instructions with a destination (R82, R83) -/

/-- What an instruction whose destination is the `E` operand `e` does to the state: the operand is written, the
arithmetic flags may be, and `ip` moves past the instruction. -/
inductive WritesOperand (s : State) (w : Width) (e : Rm) : State → Prop
  | intro (v : BitVec w.bits) (fl : Flags) (draws : Nat) (hifl : fl.ifl = s.flags.ifl) (hdf : fl.df = s.flags.df)
      (htf : fl.tf = s.flags.tf) :
      WritesOperand s w e ({ s.writeRm w e v with flags := fl, draws := draws } : State).advance

section
variable {s t : State}

theorem WritesOperand.noFlags (w : Width) (e : Rm) (v : BitVec w.bits) :
    WritesOperand s w e (s.writeRm w e v).advance := by
  cases e <;> exact .intro v s.flags s.draws rfl rfl rfl

theorem WritesOperand.withFlags (w : Width) (e : Rm) (v : BitVec w.bits) (fw : FlagWrites) (names : List FlagName) :
    WritesOperand s w e ((s.writeRm w e v).writeFlags fw names).advance := by
  obtain ⟨fl, k, heq, -, -, htf, hifl, hdf⟩ := (s.writeRm w e v).writeFlags_cases fw names
  rw [State.writeRm_flags] at htf hifl hdf
  rw [heq]
  exact .intro v fl k hifl hdf htf

theorem execBin_writesOperand {op : AluOp2} {names : List FlagName} {f : BinForm}
    (h : execBin op names f s = .next t) : WritesOperand s (binWidth f) (binDst f) t := by
  obtain ⟨-, rfl⟩ := (execBin_next ..).mp h
  exact .withFlags ..

theorem execRmw_writesOperand {w : Width} {e : Rm} {op : BitVec w.bits → AluOut w.bits} {names : List FlagName}
    (h : execRmw w e op names s = .next t) : WritesOperand s w e t := by
  obtain ⟨-, rfl⟩ := (execRmw_next ..).mp h
  exact .withFlags ..

theorem guardMem_writesOperand {ok : Bool} {w : Width} {e : Rm} {v : BitVec w.bits}
    (h : guardMem ok (s.writeRm w e v).advance = .next t) : WritesOperand s w e t := by
  obtain ⟨-, rfl⟩ := (guardMem_next ..).mp h
  exact .noFlags ..

/-- Every instruction with a destination writes that operand and nothing else but flags and `ip`. -/
theorem exec_writesOperand {i : Instr} {w : Width} {e : Rm} (hdest : i.dest = some (w, e)) (h : exec i s = .next t) :
    WritesOperand s w e t := by
  cases i <;>
    simp only [exec, execRol, execRor, execRcl, execRcr, execShl, execShr, execSar, execShld, execShrd] at h
  case add | adc | sub | sbb | and | or | xor =>
    cases hdest
    exact execBin_writesOperand h
  case inc f | dec f => cases f <;> cases hdest <;> exact execRmw_writesOperand h
  case neg | not | rol | ror | rcl | rcr | shl | shr | sar | shld | shrd =>
    cases hdest
    exact execRmw_writesOperand h
  case movRmReg | movRmImm | movRmSreg =>
    cases hdest
    exact guardMem_writesOperand h
  all_goals cases hdest

end

/-! ### Instructions that store nothing (R85) -/

/-- Memory is as before, and so is every register cell not in the list. -/
structure CellsOnly (cells : List Gpr) (s t : State) : Prop where
  mem : t.mem = s.mem
  cell : ∀ r, r ∉ cells → t.gpr.cell r = s.gpr.cell r

section
variable {s t u : State} {cells : List Gpr}

theorem CellsOnly.of_gpr_kept (hmem : t.mem = s.mem) (hgpr : t.gpr = s.gpr) : CellsOnly cells s t :=
  ⟨hmem, fun _ _ => by rw [hgpr]⟩

theorem CellsOnly.trans (h : CellsOnly cells s t) (h' : CellsOnly cells t u) : CellsOnly cells s u :=
  ⟨h'.mem.trans h.mem, fun r hr => (h'.cell r hr).trans (h.cell r hr)⟩

/-- A register write changes the cell its view lies in. -/
theorem CellsOnly.write (s : State) (w : Width) (r : Gpr) (v : BitVec w.bits) (h : viewCell w r ∈ cells) :
    CellsOnly cells s { s with gpr := s.gpr.write w r v } :=
  ⟨rfl, fun q hq => Gprs.cell_write_other s.gpr w r q v fun heq => hq (heq ▸ h)⟩

theorem CellsOnly.writeFlags (s : State) (fw : FlagWrites) (names : List FlagName) :
    CellsOnly cells s (s.writeFlags fw names) := .of_gpr_kept (by simp) (by simp)

theorem CellsOnly.writeDouble (s : State) (w : Width) (v : BitVec (2 * w.bits)) :
    CellsOnly (if w = .w8 then [.ax] else [.ax, .dx]) s (s.writeDouble w v) := by
  cases w with
  | w8 => exact .write s .w16 .ax _ (by decide)
  | w16 => exact (CellsOnly.write s .w16 .ax _ (by decide)).trans (.write _ .w16 .dx _ (by decide))
  | w32 => exact (CellsOnly.write s .w32 .ax _ (by decide)).trans (.write _ .w32 .dx _ (by decide))

theorem CellsOnly.writeQuotRem (s : State) (w : Width) (d : DivOut w.bits) :
    CellsOnly (if w = .w8 then [.ax] else [.ax, .dx]) s (s.writeQuotRem w d) := by
  cases w with
  | w8 => exact (CellsOnly.write s .w8 .ax _ (by decide)).trans (.write _ .w8 .sp _ (by decide))
  | w16 => exact (CellsOnly.write s .w16 .ax _ (by decide)).trans (.write _ .w16 .dx _ (by decide))
  | w32 => exact (CellsOnly.write s .w32 .ax _ (by decide)).trans (.write _ .w32 .dx _ (by decide))

theorem CellsOnly.pop16 (s : State) : CellsOnly [.sp] s s.pop16 := .write s .w16 .sp _ (by decide)

/-- Only `ip` moves. -/
theorem CellsOnly.advance (h : CellsOnly cells s u) : CellsOnly cells s u.advance := ⟨h.mem, h.cell⟩

theorem guardMem_cellsOnly {ok : Bool} (h : guardMem ok u = .next t) (hu : CellsOnly cells s u) : CellsOnly cells s t := by
  obtain ⟨-, rfl⟩ := (guardMem_next ..).mp h
  exact hu

theorem imulInto_cellsOnly {w : Width} {g : Gpr} {e : Rm} {a b : BitVec w.bits} (h : imulInto w g e a b s = .next t)
    (hw : w ≠ .w8) : CellsOnly [g] s t := by
  have hcell : viewCell w g ∈ [g] := by
    cases w with
    | w8 => exact absurd rfl hw
    | w16 | w32 => exact List.mem_singleton_self g
  exact guardMem_cellsOnly h ((CellsOnly.write s w g _ hcell).trans (.writeFlags ..)).advance

theorem execDivide_cellsOnly {w : Width} {e : Rm}
    {divide : BitVec (2 * w.bits) → BitVec w.bits → Option (DivOut w.bits)} (h : execDivide w e divide s = .next t)
    (hdepth : t.depth ≤ s.depth) : CellsOnly (if w = .w8 then [.ax] else [.ax, .dx]) s t := by
  obtain ⟨-, ⟨d, -, rfl⟩ | ⟨-, -, rfl⟩⟩ := (execDivide_next ..).mp h
  · exact ((CellsOnly.writeQuotRem s w d).trans (.writeFlags ..)).advance
  · exact absurd hdepth (Nat.not_succ_le_self _)

/-- An encodable instruction that stores nothing keeps memory and every register cell but those it writes. -/
theorem exec_cellsOnly {i : Instr} (hwf : i.wf = true) (hno : i.storesNothing = true) (h : exec i s = .next t)
    (hdepth : t.depth ≤ s.depth) : CellsOnly i.cellsWritten s t := by
  cases i <;> simp only [exec] at h
  case cmp f | test f => exact guardMem_cellsOnly h (CellsOnly.writeFlags ..).advance
  case mul w e | imul w e =>
    exact guardMem_cellsOnly h ((CellsOnly.writeDouble s w _).trans (.writeFlags ..)).advance
  case imulRegRm o g e => exact imulInto_cellsOnly h (by cases o <;> decide)
  case imulRegRmImmS o g e v => exact imulInto_cellsOnly h (by cases o <;> decide)
  case imulRegRmImm g e v =>
    simp only [Instr.wf, Bool.and_eq_true, decide_eq_true_eq] at hwf
    exact imulInto_cellsOnly h hwf.2
  case div | idiv => exact execDivide_cellsOnly h hdepth
  case movRegRm w g e => exact guardMem_cellsOnly h (CellsOnly.write s w g _ (List.mem_singleton_self _)).advance
  case movRegImm g v =>
    cases h
    exact (CellsOnly.write s _ g _ (List.mem_singleton_self _)).advance
  case lahf =>
    cases h
    exact (CellsOnly.write s .w8 .sp _ (by decide)).advance
  case popf => exact guardMem_cellsOnly h ⟨rfl, (CellsOnly.pop16 s).cell⟩
  case iret =>
    obtain ⟨-, rfl⟩ | ⟨-, -, rfl⟩ := (trapReturn_next ..).mp h
    · exact .of_gpr_kept rfl rfl
    · exact ⟨rfl, (((CellsOnly.pop16 s).trans (.pop16 _)).trans (.pop16 _)).cell⟩
  case movSregRm => exact guardMem_cellsOnly h (.of_gpr_kept rfl rfl)
  case jcc c rel =>
    cases h
    split <;> exact .of_gpr_kept rfl rfl
  case nop | sahf | clc | stc | cmc | cld | std | cli | sti | jmpRel8 | jmpRel16 | hlt | esc =>
    cases h
    exact .of_gpr_kept rfl rfl
  all_goals cases hno

end

/-- The frame O58 states, for encodable instructions: `wf` is the one premise it lacks. -/
theorem noStoreFrame_of_wf {i : Instr} {s t : State} (hwf : i.wf = true) (hno : i.storesNothing = true)
    (h : exec i s = .next t) (hdepth : t.depth ≤ s.depth) :
    (∀ p, t.byteAt p = s.byteAt p) ∧ ∀ r, r ∉ i.cellsWritten → t.gpr.cell r = s.gpr.cell r := by
  obtain ⟨hmem, hcell⟩ := exec_cellsOnly hwf hno h hdepth
  exact ⟨fun p => by simp only [State.byteAt, hmem], hcell⟩

/-! ### The obligations -/

/-- Settles O16: a step that settles in its checks leaves `INTA` low or has entered a trap; an instruction runs with
`INTA` low and the length the decoder counted, and every effect it can have writes inside memory alone. -/
theorem invKept : Obligations.InvKept := by
  unfold Obligations.InvKept
  intro s t hs h
  have hsampled : MemGood s.sampled := hs.memGood.congr rfl rfl
  obtain hset | ⟨i, u, hrun, hexec⟩ := step_next h
  · obtain ⟨-, rfl⟩ | ⟨-, -, rfl⟩ | ⟨-, -, -, n, -, hint⟩ | ⟨-, -, -, -, rfl⟩ := front_settled_next s t hset
    · exact .of_inta_low (hsampled.congr rfl rfl) (Nat.zero_le _) rfl
    · exact .of_inta_low hsampled (Nat.zero_le _) rfl
    · obtain ⟨hok, rfl⟩ := (takeInterrupt_next ..).mp hint
      obtain ⟨hwf, hbound⟩ := trapped_memGood s.sampled n s.ip hsampled hok
      exact ⟨hwf, hbound, Nat.zero_le _, fun _ => ⟨rfl, rfl, Nat.succ_pos _, rfl⟩⟩
    · exact .of_inta_low hsampled (Nat.zero_le _) rfl
  · obtain ⟨-, -, -, -, r, hdec, rfl⟩ := front_run s u i hrun
    have heff := exec_effect hexec
    obtain ⟨hkept, hinta⟩ := heff.dec_inta
    refine .of_inta_low (heff.memGood (hsampled.congr rfl rfl)) ?_ hinta
    rw [hkept]
    exact (decode_len_le hdec).trans (fetchBytes_length_le _)

/-- Settles O10: the bytes are fetched, whatever stands after them, and decode to the instruction. -/
theorem stepRunsStoredBytes : Obligations.StepRunsStoredBytes := by
  unfold Obligations.StepRunsStoredBytes
  intro s i hready hwf hin hbytes
  have hle : (encode i).length ≤ maxInsnLen := (encode_length_le i).trans (by decide)
  obtain ⟨rest, hfetch⟩ := fetchFrom_of_stored s (encode i) (lin s.seg.cs s.ip) maxInsnLen hle fun k b hk =>
    ⟨(inMem_iff s _ _).mp hin k (List.getElem?_eq_some_iff.mp hk).1, hbytes k b hk⟩
  obtain ⟨r, hd, hlen⟩ := decodesTo_encode hwf rest
  exact ⟨{ r with ipStart := s.ip }, hlen, rfl, step_of_decode hready ((congrArg decode hfetch).trans hd)⟩

/-- Settles O25, byte by byte. -/
theorem storeThenLoad : Obligations.StoreThenLoad := by
  unfold Obligations.StoreThenLoad
  intro s a w v hwf hinj
  have hbyte : ∀ k, k < w.bytes → (s.store a w v).byteAt (s.phys (a + k)) = BitVec.ofNat 8 (v.toNat / 256 ^ k) :=
    fun k hk => byteAt_store_byte s a w v hwf k hk (injOn_access hinj w)
  refine ⟨load_of_bytes _ a w v hbyte, fun k hk => ?_, fun p hp => byteAt_store_other s a w v p hwf hp, ?_,
    storeCells_wf _ _ _ _ _ hwf⟩
  · rw [Nat.pow_mul]
    exact hbyte k hk
  · rw [load_toNat, loadNat_eq_sum]

/-- Settles O26: displacement and register part as numbers, then their sum modulo 2^16. -/
theorem effectiveAddress : Obligations.EffectiveAddress := by
  unfold Obligations.EffectiveAddress
  intro s o b d disp bx bp si di dv rv
  have hdisp : (dispVal d).toNat = dv := by
    cases d with
    | none | d16 => rfl
    | d8 x => exact dispVal_d8_toNat x
  have hbase : (baseVal s.gpr b).toNat % 2 ^ 16 = rv % 2 ^ 16 := by
    cases b with
    | bxsi | bxdi | bpsi | bpdi => simp only [baseVal, BitVec.toNat_add, Nat.mod_mod, rv, bx, bp, si, di]
    | si | di | bp | bx => rfl
  refine ⟨?_, rfl, lin_le _ _⟩
  simp only [State.linOf, lin, offsetOf, defaultSeg_based, BitVec.toNat_add, hdisp]
  rw [Nat.add_mod, hbase, ← Nat.add_mod]

/-- Settles O27, a clause for each source of requests. -/
theorem outOfMemoryStops : Obligations.OutOfMemoryStops := by
  unfold Obligations.OutOfMemoryStops
  refine ⟨slotOk_iff, trapOk_iff, iretOk_iff, fun s i k => step_of_fetch_outside, ?truncated, ?operand, ?pushf, ?popf,
    ?iret, ?int, ?divide, ?invalid, ?interrupt⟩
  case truncated => exact fun s hready hd _ hlen => step_of_truncated hready hd hlen
  case operand =>
    exact fun i s w m k ha hk hout => exec_of_operand_outside ha (inMem_eq_false hk hout)
  case pushf | popf => exact fun s hout => guardMem_of_false _ hout
  case iret =>
    intro s hdepth hout
    exact (if_neg hdepth).trans (guardMem_of_false _ hout)
  case int => exact fun s n hout => guardMem_of_false _ hout
  case divide =>
    exact fun s w e htrap hok => ⟨fun h => execDivide_of_fault hok (aluDiv_eq_none h) htrap,
      fun h => execDivide_of_fault hok (aluIdiv_eq_none h) htrap⟩
  case invalid =>
    rintro s i htrap hstrict (⟨op, m, rfl⟩ | ⟨m, rfl⟩) <;> exact raiseInvalidOpcode_of_outside htrap hstrict
  case interrupt =>
    intro s n hreset hrun htf hn hout
    rw [step_of_acceptedIntr hreset hrun htf hn]
    exact guardMem_of_false _ hout

/-- Settles O57: the operand written is that of the state the instruction starts in. -/
theorem destinationFrame : Obligations.DestinationFrame := by
  unfold Obligations.DestinationFrame
  intro i w e s t hdest hwf h
  obtain ⟨v, fl, k, hifl, hdf, htf⟩ := exec_writesOperand hdest h
  cases e with
  | reg r =>
    refine ⟨rfl, rfl, rfl, hifl, hdf, htf, fun q hq => ?_, nofun⟩
    cases hq
    exact ⟨⟨v, rfl⟩, fun _ => rfl⟩
  | mem m =>
    refine ⟨rfl, rfl, rfl, hifl, hdf, htf, nofun, fun q hq => ?_⟩
    cases hq
    exact ⟨rfl, fun p hp => byteAt_store_other s (s.linOf m) w v p hwf hp⟩

/-- After reset, but with 1 in BL: every other general register is 0. -/
def blOneState : State := { State.reset with gpr := { State.reset.gpr with ebx := 1 } }

/-- Refutes O58: the statement does not ask for an encodable instruction. IMUL with an immediate of one byte, which no
encoding has, writes an 8-bit register, and register number 4 is then AH, which lies in cell 0 and not in cell 4 (R23). -/
theorem not_noStoreFrame : ¬ Obligations.NoStoreFrame := by
  unfold Obligations.NoStoreFrame
  intro h
  obtain ⟨-, hcells⟩ := h (.imulRegRmImm .sp (.reg .bx) (.i8 2)) blOneState
    { blOneState with gpr := { blOneState.gpr with eax := 0x0200 }, ip := 0 }
    rfl rfl (Nat.le_refl _)
  exact absurd (hcells .ax (by decide)) (by decide)

end Sys2Proof.Machine
end

section
/-! SUPPORT. What decoding has read when it succeeds (`30_encoding.md` R112, R113): the run of prefixes and what it leaves in the
working registers, the parts of the instruction after it, the row of the opcode map it was built from, and which rows end at
their ModRM byte (R125, R126). -/

namespace Sys2Proof

open Sys2Proof.Config

/-! ### A run of prefixes (R101, R102) -/

/-- The last REPNE or REP of a run of prefixes. -/
def lastRep (ps : List Byte) : Option RepKind :=
  ps.foldl (fun acc b => if b = 0xF2 then some .repne else if b = 0xF3 then some .rep else acc) none

theorem lastRep_concat (ps : List Byte) (b : Byte) : lastRep (ps ++ [b]) =
    if b = 0xF2 then some .repne else if b = 0xF3 then some .rep else lastRep ps := by
  simp [lastRep]

theorem lastOverride_concat (ps : List Byte) (b : Byte) :
    lastOverride (ps ++ [b]) = (segOverride b).or (lastOverride ps) := by
  simp [lastOverride]

theorem lastRep_isSome (ps : List Byte) : (lastRep ps).isSome = true ↔ (0xF2 : Byte) ∈ ps ∨ (0xF3 : Byte) ∈ ps := by
  induction ps using List.reverseRecOn with
  | nil => simp [lastRep]
  | append_singleton ps b ih =>
    rw [lastRep_concat]
    simp only [List.mem_append, List.mem_singleton]
    split
    next h => simp [h]
    next h2 =>
      split
      next h => simp [h]
      next h3 => rw [ih, or_iff_left (Ne.symm h2), or_iff_left (Ne.symm h3)]

/-- The working registers after a run of prefixes. -/
def prefixRegs (ps : List Byte) : DecRegs :=
  { DecRegs.idle with
    len := ps.length
    seg := lastOverride ps
    opSize := decide ((0x66 : Byte) ∈ ps)
    lock := decide ((0xF0 : Byte) ∈ ps)
    rep := lastRep ps }

/-- One more byte of the run goes on in `D_PREFIX`, with its effect recorded. -/
theorem atPrefix_prefixRegs (ps : List Byte) {b : Byte} (h : isPrefixByte b = true) :
    atPrefix (prefixRegs ps) b = .more .dPrefix (prefixRegs (ps ++ [b])) := by
  have hmem : b ∈ ([0x26, 0x2E, 0x36, 0x3E, 0x64, 0x65, 0x66, 0xF0, 0xF2, 0xF3] : List Byte) := of_decide_eq_true h
  simp only [prefixRegs, lastRep_concat, lastOverride_concat]
  simp only [List.mem_cons, List.not_mem_nil, or_false] at hmem
  rcases hmem with rfl | rfl | rfl | rfl | rfl | rfl | rfl | rfl | rfl | rfl <;>
    simp [atPrefix, segOverride, DecRegs.eat]

theorem decode_prefixes {ps : List Byte} (h : ps.all isPrefixByte = true) (bs : List Byte) :
    decode (ps ++ bs) = dRun .dPrefix (prefixRegs ps) bs := by
  induction ps using List.reverseRecOn generalizing bs with
  | nil => rfl
  | append_singleton ps b ih =>
    simp only [List.all_append, List.all_cons, List.all_nil, Bool.and_true, Bool.and_eq_true] at h
    obtain ⟨hps, hb⟩ := h
    rw [List.append_assoc, ih hps]
    exact dRun_more (st := .dPrefix) (atPrefix_prefixRegs ps hb) bs

/-- The working registers once the opcode after a run of prefixes is known. -/
def headRegs (ps op : List Byte) : DecRegs := { prefixRegs ps with len := ps.length + op.length, opcode := op }

theorem decode_opcode {ps op : List Byte} {f : OpForm} (hps : ps.all isPrefixByte = true) (hop : opcodeIs op f)
    (bs : List Byte) : decode (ps ++ (op ++ bs)) = (afterLookup (.form f) (headRegs ps op)).run bs :=
  (decode_prefixes hps _).trans (dRun_opcode op f hop _ bs)

theorem all_isPrefixByte {ps : List Byte} (h : ps.all isPlainPrefix = true) : ps.all isPrefixByte = true := by
  simp only [List.all_eq_true, isPlainPrefix, Bool.and_eq_true] at h ⊢
  exact fun b hb => (h b hb).1

/-- LOCK, overrides and operand-size are no REP. -/
theorem lastRep_plain {ps : List Byte} (h : ps.all isPlainPrefix = true) : lastRep ps = none := by
  rw [← Option.not_isSome_iff_eq_none, lastRep_isSome]
  rintro (hmem | hmem) <;> exact absurd (List.all_eq_true.mp h _ hmem) (by decide)

/-- REP or REPNE before an admitted opcode (R102). -/
theorem decode_rep {ps op : List Byte} {f : OpForm} (hps : ps.all isPrefixByte = true)
    (hrep : (0xF2 : Byte) ∈ ps ∨ (0xF3 : Byte) ∈ ps) (hop : opcodeIs op f) (bs : List Byte) :
    decode (ps ++ (op ++ bs)) = .error .repOnAdmitted := by
  have h : (headRegs ps op).rep.isSome = true := (lastRep_isSome ps).mpr hrep
  rw [decode_opcode hps hop, afterLookup, if_pos h]
  rfl

/-- The operand-size byte before a "no 66" form (R102). -/
theorem decode_no66 {ps op : List Byte} {f : OpForm} (hps : ps.all isPlainPrefix = true) (h66 : (0x66 : Byte) ∈ ps)
    (hop : opcodeIs op f) (hno : f.no66 = true) (bs : List Byte) :
    decode (ps ++ (op ++ bs)) = .error .operandSize16Only := by
  have hrep : (headRegs ps op).rep = none := lastRep_plain hps
  have hsize : (headRegs ps op).opSize = true := decide_eq_true h66
  rw [decode_opcode (all_isPrefixByte hps) hop]
  simp [afterLookup, hrep, hsize, hno, DNext.run]

/-! ### What of the working registers an instruction depends on -/

/-- The working registers without the two that give no instruction a meaning: the length, and LOCK (R102). -/
def DecRegs.meaning (r : DecRegs) : DecRegs := { r with len := 0, lock := false }

/-- Two transitions that differ at most in length and LOCK. -/
inductive DNext.Alike : DNext → DNext → Prop
  | more (st : DState) {r q : DecRegs} (h : r.meaning = q.meaning) : Alike (.more st r) (.more st q)
  | done (i : Instr) (r q : DecRegs) : Alike (.done i r) (.done i q)
  | refused (y : DecodeStop) : Alike (.refused y) (.refused y)

theorem build_meaning (f : OpForm) (r : DecRegs) : f.build r.meaning = f.build r := by cases f <;> rfl

section
variable {r q : DecRegs} (h : r.meaning = q.meaning)
include h

theorem eq_of_meaning_eq {α : Type} (v : DecRegs → α) (hv : ∀ x : DecRegs, v x.meaning = v x := by exact fun _ => rfl) :
    v r = v q := by rw [← hv, h, hv]

theorem toImm_alike (f : OpForm) : (toImm f r).Alike (toImm f q) := by
  unfold toImm
  rw [eq_of_meaning_eq h fun x => f.immLen x.opSize (regField x.m), eq_of_meaning_eq h f.build (build_meaning f)]
  cases f.immLen q.opSize (regField q.m) with
  | zero => exact .done ..
  | succ n => exact .more _ h

theorem afterLookup_alike (l : Lookup) : (afterLookup l r).Alike (afterLookup l q) := by
  cases l with
  | notAdmitted => exact .refused _
  | reserved =>
    rw [afterLookup, eq_of_meaning_eq h DecRegs.opcode]
    exact .done ..
  | form f =>
    simp only [afterLookup, eq_of_meaning_eq h DecRegs.rep, eq_of_meaning_eq h DecRegs.opSize]
    split
    · exact .refused _
    · split
      · exact .refused _
      · split
        · exact .more _ h
        · exact toImm_alike h f

theorem atModrm_alike (f : OpForm) (m : Byte) : (atModrm f r m).Alike (atModrm f q m) := by
  have hm := eq_of_meaning_eq h fun x => ({ x.eat with modrm := some m } : DecRegs).meaning
  have hop := eq_of_meaning_eq h fun x => x.eat.opcode
  unfold atModrm
  cases f.check (regField m) with
  | ok =>
    cases dispLen m with
    | zero => exact toImm_alike hm f
    | succ n => exact .more _ hm
  | notAdmitted => exact .refused _
  | invalid | invalidMovCs | reserved =>
    simp only [hop]
    exact .done ..

theorem atOpcode_alike (b : Byte) : (atOpcode r b).Alike (atOpcode q b) := by
  have hop := eq_of_meaning_eq h fun x => ({ x.eat with opcode := [b] } : DecRegs).meaning
  unfold atOpcode
  dsimp only
  split
  · exact .more _ hop
  · exact afterLookup_alike hop _

theorem atPrefix_alike (b : Byte) : (atPrefix r b).Alike (atPrefix q b) := by
  unfold atPrefix
  split
  next g _ => exact .more _ (eq_of_meaning_eq h fun x => ({ x.eat with seg := some g } : DecRegs).meaning)
  · split
    · exact .more _ (eq_of_meaning_eq h fun x => ({ x.eat with opSize := true } : DecRegs).meaning)
    · exact .more _ h
    · exact .more _ (eq_of_meaning_eq h fun x => ({ x.eat with rep := some .repne } : DecRegs).meaning)
    · exact .more _ (eq_of_meaning_eq h fun x => ({ x.eat with rep := some .rep } : DecRegs).meaning)
    · exact .refused _
    · exact atOpcode_alike h b

theorem dStep_alike (st : DState) (b : Byte) : (dStep st r b).Alike (dStep st q b) := by
  cases st with
  | dPrefix => exact atPrefix_alike h b
  | dOpcode2 =>
    exact afterLookup_alike (eq_of_meaning_eq h fun x => ({ x.eat with opcode := x.opcode ++ [b] } : DecRegs).meaning) _
  | dModrm f => exact atModrm_alike h f b
  | dDisp f n =>
    have hdisp := eq_of_meaning_eq h fun x => ({ x.eat with disp := x.disp ++ [b] } : DecRegs).meaning
    cases n with
    | zero => exact toImm_alike hdisp f
    | succ n => exact .more _ hdisp
  | dImm f n =>
    have himm := eq_of_meaning_eq h fun x => ({ x.eat with imm := x.imm ++ [b] } : DecRegs).meaning
    cases n with
    | zero =>
      have hbuild := eq_of_meaning_eq himm f.build (build_meaning f)
      simp only [dStep, hbuild]
      exact .done ..
    | succ n => exact .more _ himm

/-- The instruction decoded depends neither on the length counted so far nor on LOCK. -/
theorem dRun_fst_eq (bs : List Byte) (st : DState) : (dRun st r bs).map Prod.fst = (dRun st q bs).map Prod.fst := by
  induction bs generalizing st r q with
  | nil => rfl
  | cons b bs ih =>
    have hstep := dStep_alike h st b
    rw [dRun_cons, dRun_cons]
    generalize dStep st r b = d at hstep ⊢
    generalize dStep st q b = d' at hstep ⊢
    cases hstep with
    | more st' h' => exact ih h' st'
    | done i r' q' => rfl
    | refused y => rfl

end

/-! ### What a decoded instruction was read from -/

/-- The bytes after the prefixes, in the order of R100. -/
def DecRegs.body (r : DecRegs) : List Byte := r.opcode ++ r.modrm.toList ++ r.disp ++ r.imm

/-- What a row of the opcode map can end in: the instruction built from the operands, or the term for what the check of
the ModRM byte found (R112). -/
inductive OpForm.Ends (f : OpForm) (r : DecRegs) : Instr → Prop
  | build : Ends f r (f.build r)
  | invalid {m : Byte} (hm : r.modrm = some m) (hc : f.check (regField m) = .invalid) :
    Ends f r (.invalid (byte0 r.opcode) m)
  | invalidMovCs {m : Byte} (hm : r.modrm = some m) (hc : f.check (regField m) = .invalidMovCs) :
    Ends f r (.invalidMovCs m)
  | reserved {m : Byte} (hm : r.modrm = some m) (hc : f.check (regField m) = .reserved) :
    Ends f r (.reserved (byte0 r.opcode) (some m))

/-- A state after the opcode belongs to the row, and the parts still to come are empty. -/
def DState.Awaits (f : OpForm) (r : DecRegs) : DState → Prop
  | .dPrefix | .dOpcode2 => False
  | .dModrm g => g = f ∧ r.modrm = none ∧ r.disp = [] ∧ r.imm = []
  | .dDisp g _ => g = f ∧ r.imm = []
  | .dImm g _ => g = f

/-- The opcode is kept and `bs` was added to what was read, each byte counted. -/
structure DecRegs.Grew (r : DecRegs) (bs : List Byte) (r' : DecRegs) : Prop where
  opcode : r'.opcode = r.opcode
  body : r'.body = r.body ++ bs
  len : r'.len = r.len + bs.length

theorem DecRegs.Grew.trans {r r1 r2 : DecRegs} {bs cs : List Byte} (h : r.Grew bs r1) (h' : r1.Grew cs r2) :
    r.Grew (bs ++ cs) r2 :=
  ⟨h'.opcode.trans h.opcode, by rw [h'.body, h.body, List.append_assoc],
    by rw [h'.len, h.len, List.length_append, Nat.add_assoc]⟩

/-- A transition that reads `bs` and goes on or ends in the row. -/
def DNext.Reads (f : OpForm) (r : DecRegs) (bs : List Byte) : DNext → Prop
  | .more st r' => st.Awaits f r' ∧ r.Grew bs r'
  | .done i r' => f.Ends r' i ∧ r.Grew bs r'
  | .refused _ => True

theorem toImm_reads (f : OpForm) {r r' : DecRegs} {bs : List Byte} (h : r.Grew bs r') : (toImm f r').Reads f r bs := by
  obtain ⟨e, -⟩ | ⟨n, e, -⟩ := toImm_cases f r' <;> rw [e]
  · exact ⟨.build, h⟩
  · exact ⟨rfl, h⟩

theorem atModrm_reads (f : OpForm) {r : DecRegs} (h : (DState.dModrm f).Awaits f r) (m : Byte) :
    (atModrm f r m).Reads f r [m] := by
  obtain ⟨-, hmodrm, hdisp, himm⟩ := h
  have hgrew : r.Grew [m] { r.eat with modrm := some m } :=
    ⟨rfl, by simp [DecRegs.body, DecRegs.eat, hmodrm, hdisp, himm], rfl⟩
  unfold atModrm
  cases hc : f.check (regField m) with
  | ok =>
    cases dispLen m with
    | zero => exact toImm_reads f hgrew
    | succ n => exact ⟨⟨rfl, himm⟩, hgrew⟩
  | invalid => exact ⟨.invalid rfl hc, hgrew⟩
  | invalidMovCs => exact ⟨.invalidMovCs rfl hc, hgrew⟩
  | reserved => exact ⟨.reserved rfl hc, hgrew⟩
  | notAdmitted => trivial

theorem dStep_reads {f : OpForm} {st : DState} {r : DecRegs} (h : st.Awaits f r) (b : Byte) :
    (dStep st r b).Reads f r [b] := by
  cases st with
  | dPrefix | dOpcode2 => exact h.elim
  | dModrm g =>
    obtain rfl := h.1
    exact atModrm_reads g h b
  | dDisp g n =>
    obtain ⟨rfl, himm⟩ := h
    have hgrew : r.Grew [b] { r.eat with disp := r.disp ++ [b] } :=
      ⟨rfl, by simp [DecRegs.body, DecRegs.eat, himm], rfl⟩
    cases n with
    | zero => exact toImm_reads g hgrew
    | succ n => exact ⟨⟨rfl, himm⟩, hgrew⟩
  | dImm g n =>
    obtain rfl := h
    have hgrew : r.Grew [b] { r.eat with imm := r.imm ++ [b] } := ⟨rfl, by simp [DecRegs.body, DecRegs.eat], rfl⟩
    cases n with
    | zero => exact ⟨.build, hgrew⟩
    | succ n => exact ⟨rfl, hgrew⟩

/-- After the opcode the bytes consumed are those that were added to the parts. -/
theorem DNext.Reads.run {f : OpForm} {r r' : DecRegs} {seen bs : List Byte} {d : DNext} {i : Instr}
    (hd : d.Reads f r seen) (h : d.run bs = .ok (i, r')) :
    f.Ends r' i ∧ ∃ used tail, bs = used ++ tail ∧ r.Grew (seen ++ used) r' := by
  induction bs generalizing d r seen with
  | nil =>
    cases d with
    | more st r1 => cases h
    | refused y => cases h
    | done j r1 =>
      cases h
      exact ⟨hd.1, [], [], rfl, by simpa using hd.2⟩
  | cons b bs ih =>
    cases d with
    | refused y => cases h
    | done j r1 =>
      cases h
      exact ⟨hd.1, [], b :: bs, rfl, by simpa using hd.2⟩
    | more st r1 =>
      obtain ⟨hst, hgrew⟩ := hd
      rw [DNext.run, dRun_cons] at h
      obtain ⟨hends, used, tail, rfl, hrest⟩ := ih (dStep_reads hst b) h
      exact ⟨hends, b :: used, tail, rfl, hgrew.trans hrest⟩

theorem afterLookup_reads (f : OpForm) {r : DecRegs} (hmodrm : r.modrm = none) (hdisp : r.disp = [])
    (himm : r.imm = []) : (afterLookup (.form f) r).Reads f r [] := by
  have hgrew : r.Grew [] r := ⟨rfl, (List.append_nil _).symm, rfl⟩
  simp only [afterLookup]
  split
  · trivial
  · split
    · trivial
    · split
      · exact ⟨⟨rfl, hmodrm, hdisp, himm⟩, hgrew⟩
      · exact toImm_reads f hgrew

theorem lookup2_ne_reserved : ∀ b : Byte, lookup2 b ≠ .reserved := by decide

/-- The first byte after the prefixes starts the opcode: a reserved one, or a row of the opcode map (R120, R126). -/
theorem opcode_cases {b : Byte} {tail : List Byte} {r r' : DecRegs} {i : Instr} (hb : isPrefixByte b = false)
    (h : dRun .dPrefix r (b :: tail) = .ok (i, r')) :
    (lookup1 b = .reserved ∧ i = .reserved b none ∧ r' = { r.eat with opcode := [b] }) ∨
    ∃ op f rest, b :: tail = op ++ rest ∧ opcodeIs op f := by
  by_cases h67 : b = 0x67
  · subst h67
    cases h
  by_cases h0F : b = 0x0F
  · subst h0F
    cases tail with
    | nil => cases h
    | cons c rest =>
      rw [dRun_opcode2] at h
      cases hrow : lookup2 c with
      | form f => exact .inr ⟨_, f, rest, rfl, opcodeIs_two hrow⟩
      | reserved => exact absurd hrow (lookup2_ne_reserved c)
      | notAdmitted =>
        rw [hrow] at h
        cases h
  rw [dRun_opcode1 r b hb h67 h0F] at h
  cases hrow : lookup1 b with
  | form f => exact .inr ⟨_, f, tail, rfl, opcodeIs_one ⟨⟨hb, h67, h0F⟩, hrow⟩⟩
  | reserved =>
    rw [hrow] at h
    cases h
    exact .inl ⟨rfl, rfl, rfl⟩
  | notAdmitted =>
    rw [hrow] at h
    cases h

/-- The row of the opcode map a decoded instruction comes from: a reserved opcode, or a form that ends in it. -/
def FromRow (i : Instr) (r : DecRegs) : Prop :=
  (∃ b, r.opcode = [b] ∧ lookup1 b = .reserved ∧ i = .reserved b none) ∨ ∃ f, opcodeIs r.opcode f ∧ f.Ends r i

/-- What a successful decoding has read: the prefixes, then the parts, every byte counted. -/
structure DecodedFrom (bs : List Byte) (i : Instr) (r : DecRegs) : Prop where
  bytes : ∃ tail, bs = bs.takeWhile isPrefixByte ++ r.body ++ tail
  len : r.len = (bs.takeWhile isPrefixByte).length + r.body.length
  row : FromRow i r

theorem decodedFrom_of_decode {bs : List Byte} {i : Instr} {r : DecRegs} (h : decode bs = .ok (i, r)) :
    DecodedFrom bs i r := by
  have hps : (bs.takeWhile isPrefixByte).all isPrefixByte = true := List.all_takeWhile
  have hsplit : bs.takeWhile isPrefixByte ++ bs.dropWhile isPrefixByte = bs := List.takeWhile_append_dropWhile
  have hrun := (decode_prefixes hps _).symm.trans ((congrArg decode hsplit).trans h)
  cases hdrop : bs.dropWhile isPrefixByte with
  | nil =>
    rw [hdrop] at hrun
    cases hrun
  | cons b tail =>
    have hb : isPrefixByte b = false := by simpa [hdrop] using List.head?_dropWhile_not isPrefixByte bs
    rw [hdrop] at hrun hsplit
    obtain ⟨hrow, rfl, rfl⟩ | ⟨op, f, rest, htail, hop⟩ := opcode_cases hb hrun
    · refine ⟨⟨tail, ?_⟩, rfl, .inl ⟨b, rfl, hrow, rfl⟩⟩
      simpa [DecRegs.body, DecRegs.eat, prefixRegs, DecRegs.idle] using hsplit.symm
    · rw [htail] at hrun hsplit
      rw [dRun_opcode op f hop] at hrun
      obtain ⟨hends, used, tail', rfl, hgrew⟩ := (afterLookup_reads f rfl rfl rfl).run hrun
      refine ⟨⟨tail', ?_⟩, ?_, .inr ⟨f, hgrew.opcode ▸ hop, hends⟩⟩
      · rw [hgrew.body]
        simpa [DecRegs.body, prefixRegs, DecRegs.idle] using hsplit.symm
      · rw [hgrew.len, hgrew.body]
        simp [DecRegs.body, prefixRegs, DecRegs.idle, Nat.add_assoc]

/-! ### Which rows end at the ModRM byte (R125, R126) -/

/-- The term stands for an invalid or a reserved encoding. -/
def Instr.isEncodingError : Instr → Bool
  | .invalid _ _ | .invalidMovCs _ | .reserved _ _ => true
  | _ => false

/-- A row that is one instruction is not an encoding error. -/
def Lookup.plainOk : Lookup → Bool
  | .form (.plain i _) => !i.isEncodingError
  | _ => true

theorem lookup1_plainOk : ∀ b : Byte, (lookup1 b).plainOk = true := by decide
theorem lookup2_plainOk : ∀ b : Byte, (lookup2 b).plainOk = true := by decide

theorem opcodeIs_plainOk {op : List Byte} {f : OpForm} (h : opcodeIs op f) : (Lookup.form f).plainOk = true := by
  obtain ⟨b, -, -, -, -, hrow⟩ | ⟨b, -, hrow⟩ := h
  · exact hrow ▸ lookup1_plainOk b
  · exact hrow ▸ lookup2_plainOk b

theorem AluOp.instr_isEncodingError (k : AluOp) (g : BinForm) : (k.instr g).isEncodingError = false := by
  cases k <;> rfl

theorem grp2Instr_isEncodingError (n : BitVec 3) (w : Width) (e : Rm) (c : Count) :
    (grp2Instr n w e c).isEncodingError = false := by
  unfold grp2Instr
  split <;> rfl

theorem grp3Instr_isEncodingError (n : BitVec 3) (w : Width) (e : Rm) (imm : List Byte) :
    (grp3Instr n w e imm).isEncodingError = false := by
  unfold grp3Instr
  split <;> rfl

theorem build_isEncodingError {op : List Byte} {f : OpForm} (h : opcodeIs op f) (r : DecRegs) :
    (f.build r).isEncodingError = false := by
  cases f with
  | aluRmReg | aluRegRm | aluAcc | grp1 | grp1S => exact AluOp.instr_isEncodingError _ _
  | grp2 => exact grp2Instr_isEncodingError ..
  | grp3 => exact grp3Instr_isEncodingError ..
  | grp4 | grp5 =>
    simp only [OpForm.build]
    split <;> rfl
  | plain i no66 => exact Bool.eq_false_of_not_eq_true' (opcodeIs_plainOk h)
  | _ => rfl

theorem check_of_no_modrm {f : OpForm} (h : f.hasModrm = false) (n : BitVec 3) : f.check n = .ok := by
  cases f with
  | aluAcc | incZ | decZ | jcc | testAcc | movRegImm | jmpRel8 | jmpRel16 | int | plain => rfl
  | _ => cases h

/-- No row of table 3 is a group. -/
theorem lookup2_checksTo :
    ∀ (b : Byte) (n : BitVec 3), lookup2 b ≠ .notAdmitted → (lookup2 b).checksTo n .ok = true := by decide

/-- A row whose check finds something stands in table 1 or 2. -/
theorem checksTo_of_opcodeIs {op : List Byte} {f : OpForm} (h : opcodeIs op f) {n : BitVec 3} {c : ModCheck}
    (hc : f.check n = c) (hne : c ≠ .ok) : ∃ b, op = [b] ∧ (lookup1 b).checksTo n c = true := by
  have hm : f.hasModrm = true := by
    by_contra hm
    exact hne (hc.symm.trans (check_of_no_modrm (Bool.eq_false_of_not_eq_true hm) n))
  obtain ⟨b, rfl, -, -, -, hrow⟩ | ⟨b, rfl, hrow⟩ := h
  · exact ⟨b, rfl, by simp [hrow, Lookup.checksTo, hm, hc]⟩
  · have hok := lookup2_checksTo b n (by simp [hrow])
    simp only [hrow, Lookup.checksTo, hm, Bool.true_and, decide_eq_true_eq] at hok
    exact absurd (hc.symm.trans hok) hne

/-- A decoded invalid or reserved encoding has one opcode byte, and the opcode map shows it, or the check of its ModRM
byte does. -/
theorem FromRow.encodingError {i : Instr} {r : DecRegs} (h : FromRow i r) (hi : i.isEncodingError = true) :
    ∃ b, r.opcode = [b] ∧ ((lookup1 b = .reserved ∧ i = .reserved b none) ∨ ∃ m, r.modrm = some m ∧
      (((lookup1 b).checksTo (regField m) .invalid = true ∧ i = .invalid b m) ∨
      ((lookup1 b).checksTo (regField m) .invalidMovCs = true ∧ i = .invalidMovCs m) ∨
      ((lookup1 b).checksTo (regField m) .reserved = true ∧ i = .reserved b (some m)))) := by
  obtain ⟨b, hop, hrow, rfl⟩ | ⟨f, hop, hends⟩ := h
  · exact ⟨b, hop, .inl ⟨hrow, rfl⟩⟩
  · cases hends with
    | build => exact absurd hi (by simp [build_isEncodingError hop])
    | invalid hm hc =>
      obtain ⟨b, hb, hrow⟩ := checksTo_of_opcodeIs hop hc nofun
      exact ⟨b, hb, .inr ⟨_, hm, .inl ⟨hrow, by rw [hb, byte0]⟩⟩⟩
    | invalidMovCs hm hc =>
      obtain ⟨b, hb, hrow⟩ := checksTo_of_opcodeIs hop hc nofun
      exact ⟨b, hb, .inr ⟨_, hm, .inr (.inl ⟨hrow, rfl⟩)⟩⟩
    | reserved hm hc =>
      obtain ⟨b, hb, hrow⟩ := checksTo_of_opcodeIs hop hc nofun
      exact ⟨b, hb, .inr ⟨_, hm, .inr (.inr ⟨hrow, by rw [hb, byte0]⟩)⟩⟩

theorem lookup1_eq_reserved : ∀ b : Byte, lookup1 b = .reserved → b = 0x82 := by decide

theorem mem_invalidRows_of_checksTo :
    ∀ (op : Byte) (n : BitVec 3), (lookup1 op).checksTo n .invalid = true → (op, n.toNat) ∈ invalidRows := by decide

theorem movCs_of_checksTo :
    ∀ (op : Byte) (n : BitVec 3), (lookup1 op).checksTo n .invalidMovCs = true → op = 0x8E ∧ n.toNat = 1 := by decide

theorem mem_reservedRows_of_checksTo :
    ∀ (op : Byte) (n : BitVec 3), (lookup1 op).checksTo n .reserved = true → (op, n.toNat) ∈ reservedRows := by decide

/-- The list of R125, `MOV CS` apart. -/
theorem mem_invalidRows_iff (op : Byte) (k : Nat) : (op, k) ∈ invalidRows ↔
    (op = 0x8E ∧ k ∈ [6, 7]) ∨ (op = 0x8C ∧ k ∈ [6, 7]) ∨
    (op = 0xFE ∧ k ∈ [2, 3, 4, 5, 6, 7]) ∨ (op = 0xFF ∧ k = 7) := by
  simp only [invalidRows, List.mem_cons, Prod.mk.injEq, List.not_mem_nil, or_false]
  grind

/-- The list of R126, 0x82 apart. -/
theorem mem_reservedRows_iff (op : Byte) (n : BitVec 3) : (op, n.toNat) ∈ reservedRows ↔
    (op ∈ [0xF6, 0xF7] ∧ n.toNat = 1) ∨ (op ∈ [0xC0, 0xC1, 0xD0, 0xD1, 0xD2, 0xD3] ∧ n.toNat = 6) ∨
    (op ∈ [0xC6, 0xC7] ∧ n.toNat ≠ 0) := by
  have hrows : ∀ p ∈ reservedRows, (p.1 ∈ ([0xF6, 0xF7] : List Byte) ∧ p.2 = 1) ∨
      (p.1 ∈ ([0xC0, 0xC1, 0xD0, 0xD1, 0xD2, 0xD3] : List Byte) ∧ p.2 = 6) ∨
      (p.1 ∈ ([0xC6, 0xC7] : List Byte) ∧ p.2 ≠ 0) := by decide
  have hgrp3 : ∀ op ∈ ([0xF6, 0xF7] : List Byte), (op, 1) ∈ reservedRows := by decide
  have hgrp2 : ∀ op ∈ ([0xC0, 0xC1, 0xD0, 0xD1, 0xD2, 0xD3] : List Byte), (op, 6) ∈ reservedRows := by decide
  have hgrp11 : ∀ op ∈ ([0xC6, 0xC7] : List Byte), ∀ n : BitVec 3, n.toNat ≠ 0 → (op, n.toNat) ∈ reservedRows := by
    decide
  constructor
  · exact hrows _
  · rintro (⟨hop, hn⟩ | ⟨hop, hn⟩ | ⟨hop, hn⟩)
    · exact hn ▸ hgrp3 op hop
    · exact hn ▸ hgrp2 op hop
    · exact hgrp11 op hop n hn

/-- The decoder finds an invalid encoding exactly on the rows of R125. -/
theorem decode_invalid_iff (op m : Byte) (rest : List Byte) :
    (∃ r, decode (op :: m :: rest) = .ok (.invalid op m, r) ∧ r.len = 2) ↔ (op, groupIndex m) ∈ invalidRows := by
  constructor
  · rintro ⟨r, hd, -⟩
    obtain ⟨_, -, ⟨-, hi⟩ | ⟨_, -, ⟨hcheck, hi⟩ | ⟨-, hi⟩ | ⟨-, hi⟩⟩⟩ :=
      (decodedFrom_of_decode hd).row.encodingError rfl
    all_goals cases hi
    rw [groupIndex_eq]
    exact mem_invalidRows_of_checksTo _ _ hcheck
  · exact fun h => decodesTo_invalid h rest

/-- The decoder finds `MOV CS, rm` in two bytes exactly on 0x8E /1 (R125, R304). -/
theorem decode_invalidMovCs_iff (op m : Byte) (rest : List Byte) :
    (∃ r, decode (op :: m :: rest) = .ok (.invalidMovCs m, r) ∧ r.len = 2) ↔ op = 0x8E ∧ groupIndex m = 1 := by
  constructor
  · rintro ⟨r, hd, hlen⟩
    obtain ⟨⟨tail, hbytes⟩, hcount, hrow⟩ := decodedFrom_of_decode hd
    obtain ⟨b, hop, ⟨-, hi⟩ | ⟨_, hm, ⟨-, hi⟩ | ⟨hcheck, hi⟩ | ⟨-, hi⟩⟩⟩ := hrow.encodingError rfl
    all_goals cases hi
    have hbody : r.body = b :: m :: (r.disp ++ r.imm) := by simp [DecRegs.body, hop, hm]
    have hnone : (op :: m :: rest).takeWhile isPrefixByte = [] := by
      rw [hlen, hbody] at hcount
      simp only [List.length_cons] at hcount
      exact List.eq_nil_of_length_eq_zero (by omega)
    rw [hnone, hbody] at hbytes
    cases hbytes
    rw [groupIndex_eq]
    exact movCs_of_checksTo _ _ hcheck
  · rintro ⟨rfl, h⟩
    exact decodesTo_invalidMovCs h rest

/-- The decoder finds a group index reserved exactly on the rows of R126. -/
theorem decode_reserved_iff (op m : Byte) (rest : List Byte) :
    (∃ r, decode (op :: m :: rest) = .ok (.reserved op (some m), r)) ↔ (op, groupIndex m) ∈ reservedRows := by
  constructor
  · rintro ⟨r, hd⟩
    obtain ⟨_, -, ⟨-, hi⟩ | ⟨_, -, ⟨-, hi⟩ | ⟨-, hi⟩ | ⟨hcheck, hi⟩⟩⟩ :=
      (decodedFrom_of_decode hd).row.encodingError rfl
    all_goals cases hi
    rw [groupIndex_eq]
    exact mem_reservedRows_of_checksTo _ _ hcheck
  · intro h
    obtain ⟨r, hd, -⟩ := decodesTo_reserved h rest
    exact ⟨r, hd⟩

/-- The decoder finds a reserved opcode exactly at 0x82 (R126). -/
theorem decode_reservedOpcode_iff (op : Byte) (rest : List Byte) :
    (∃ r, decode (op :: rest) = .ok (.reserved op none, r)) ↔ op = 0x82 := by
  constructor
  · rintro ⟨r, hd⟩
    obtain ⟨_, -, ⟨hrow, hi⟩ | ⟨_, -, ⟨-, hi⟩ | ⟨-, hi⟩ | ⟨-, hi⟩⟩⟩ :=
      (decodedFrom_of_decode hd).row.encodingError rfl
    all_goals cases hi
    exact lookup1_eq_reserved op hrow
  · rintro rfl
    exact ⟨_, rfl⟩

/-! ### The opcode of an encoding -/

/-- An encodable instruction other than the reserved opcode 0x82 starts, after its prefixes, with the opcode of a
row. -/
theorem encode_opcode {i : Instr} (hwf : i.wf = true) (hi : i ≠ .reserved 0x82 none) :
    ∃ ps op f tail, encode i = ps ++ (op ++ tail) ∧ ps.all isPrefixByte = true ∧ opcodeIs op f := by
  obtain ⟨r, hd, -⟩ := decodesTo_encode hwf []
  rw [List.append_nil] at hd
  obtain ⟨⟨tail, hbytes⟩, -, ⟨b, -, hrow, rfl⟩ | ⟨f, hop, -⟩⟩ := decodedFrom_of_decode hd
  · exact absurd (congrArg (Instr.reserved · none) (lookup1_eq_reserved b hrow)) hi
  · refine ⟨(encode i).takeWhile isPrefixByte, r.opcode, f, r.modrm.toList ++ r.disp ++ r.imm ++ tail,
      hbytes.trans ?_, List.all_takeWhile, hop⟩
    simp [DecRegs.body]

theorem overrideBytes_plain (e : Rm) : e.overrideBytes.all isPlainPrefix = true := by
  rcases e with r | ⟨_ | g, a⟩
  · rfl
  · rfl
  · cases g <;> rfl

/-- An encoding that refuses 0x66 has at most a segment override before the opcode of a "no 66" row (R120). -/
theorem encode_no66 {i : Instr} (hwf : i.wf = true) (h : i.refuses66 = true) :
    ∃ ps op f tail, encode i = ps ++ (op ++ tail) ∧ ps.all isPlainPrefix = true ∧ opcodeIs op f ∧ f.no66 = true := by
  cases i with
  | movRmSreg e r =>
    exact ⟨e.overrideBytes, [0x8C], .movRmSreg, e.bytes r.num, by simp [encode, encodeRm, Width.prefixBytes],
      overrideBytes_plain e, opcodeIs_one (by decide), rfl⟩
  | movSregRm r e =>
    exact ⟨e.overrideBytes, [0x8E], .movSregRm, e.bytes r.num, by simp [encode, encodeRm, Width.prefixBytes],
      overrideBytes_plain e, opcodeIs_one (by decide), rfl⟩
  | pushf => exact ⟨[], [0x9C], .plain .pushf true, [], rfl, rfl, opcodeIs_one (by decide), rfl⟩
  | popf => exact ⟨[], [0x9D], .plain .popf true, [], rfl, rfl, opcodeIs_one (by decide), rfl⟩
  | iret => exact ⟨[], [0xCF], .plain .iret true, [], rfl, rfl, opcodeIs_one (by decide), rfl⟩
  | jcc c rel =>
    exact ⟨[], [(7 : BitVec 4) ++ c.num], .jcc c, [rel], rfl, rfl, opcodeIs_one (by cases c <;> decide), rfl⟩
  | jmpRel8 rel => exact ⟨[], [0xEB], .jmpRel8, [rel], rfl, rfl, opcodeIs_one (by decide), rfl⟩
  | jmpRel16 rel => exact ⟨[], [0xE9], .jmpRel16, bytes16 rel, rfl, rfl, opcodeIs_one (by decide), rfl⟩
  | int n => exact ⟨[], [0xCD], .int, [n], rfl, rfl, opcodeIs_one (by decide), rfl⟩
  | invalidMovCs m => exact ⟨[], [0x8E], .movSregRm, [m], rfl, rfl, opcodeIs_one (by decide), rfl⟩
  | invalid op m =>
    obtain rfl | rfl : op = 0x8C ∨ op = 0x8E := of_decide_eq_true h
    · exact ⟨[], [0x8C], .movRmSreg, [m], rfl, rfl, opcodeIs_one (by decide), rfl⟩
    · exact ⟨[], [0x8E], .movSregRm, [m], rfl, rfl, opcodeIs_one (by decide), rfl⟩
  | _ => cases h

/-! ### Opcodes outside the tables (R127) -/

theorem decode_notAdmitted1 {b : Byte} (hb : isOneByteOpcode b) (h : lookup1 b = .notAdmitted) (rest : List Byte) :
    decode (b :: rest) = .error .notAdmitted := by
  obtain ⟨hprefix, h67, h0F⟩ := hb
  rw [decode, dRun_opcode1 _ b hprefix h67 h0F, h]
  rfl

theorem decode_notAdmitted2 {b : Byte} (h : lookup2 b = .notAdmitted) (rest : List Byte) :
    decode (0x0F :: b :: rest) = .error .notAdmitted := by
  rw [decode, dRun_opcode2, h]
  rfl

/-- Group 5 admits indices 0 and 1, and index 7 is invalid (R121, R125). -/
theorem decode_grp5_notAdmitted {m : Byte} (h : OpForm.grp5.check (regField m) = .notAdmitted) (rest : List Byte) :
    decode (0xFF :: m :: rest) = .error .notAdmitted := by
  have hstep : dStep (.dModrm .grp5) (opcodeRegs 0xFF) m = .refused .notAdmitted := by
    simp only [dStep, atModrm, h]
  exact (dRun_more (st := .dPrefix) (b := 0xFF) rfl _).trans (dRun_refused hstep rest)

/-! The bytes outside tables 1 and 2 of R120, range by range. -/

theorem lookup1_notAdmitted_below_40 : ∀ op : Byte, op.toNat < 0x40 → op.toNat % 8 = 6 ∨ op.toNat % 8 = 7 →
    lookup1 op = .notAdmitted := by decide

theorem lookup1_notAdmitted_50_to_70 : ∀ op : Byte, 0x50 ≤ op.toNat → op.toNat < 0x70 → op ∉ [0x69, 0x6B] →
    lookup1 op = .notAdmitted := by decide

theorem lookup1_notAdmitted_83_to_B0 : ∀ op : Byte, 0x82 < op.toNat → op.toNat < 0xB0 →
    op ∉ [0x83, 0x84, 0x85, 0x88, 0x89, 0x8A, 0x8B, 0x8C, 0x8E, 0x90, 0x9C, 0x9D, 0x9E, 0x9F, 0xA8, 0xA9] →
    lookup1 op = .notAdmitted := by decide

theorem lookup1_notAdmitted_from_C2 : ∀ op : Byte, 0xC2 ≤ op.toNat → ¬ (0xD8 ≤ op.toNat ∧ op.toNat < 0xE0) →
    op ∉ [0xC6, 0xC7, 0xCD, 0xCF, 0xD0, 0xD1, 0xD2, 0xD3, 0xE9, 0xEB, 0xF4, 0xF5, 0xF6, 0xF7, 0xF8, 0xF9, 0xFA,
      0xFB, 0xFC, 0xFD, 0xFE, 0xFF] →
    lookup1 op = .notAdmitted := by decide

/-- The second bytes outside table 3 of R120. -/
theorem lookup2_notAdmitted : ∀ b : Byte, b ∉ [0xA4, 0xA5, 0xAC, 0xAD, 0xAF] → lookup2 b = .notAdmitted := by decide

theorem grp5_check_notAdmitted :
    ∀ n : BitVec 3, n.toNat ∈ [2, 3, 4, 5, 6] → OpForm.grp5.check n = .notAdmitted := by decide

end Sys2Proof
end

section
/-! SUPPORT. The obligations of the encoding family (`30_encoding.md`): what the decoder reads, which encodings are invalid,
reserved or not admitted, and the operands of every form. -/

namespace Sys2Proof.Machine

open Sys2Proof.Config

/-! ### Values of operands (R107 to R110) -/

/-- CL is the low byte of cell 1 (R23). -/
theorem readCl_toNat (g : Gprs) : (g.read .w8 .cx).toNat = (g.cell .cx).toNat % 2 ^ 8 :=
  BitVec.extractLsb'_toNat ..

/-- A byte immediate keeps its signed value when it is extended to a `v` width (R110). -/
theorem simmVal_toInt (o : OpSize) (v : Byte) : (simmVal o.width v).toInt = v.toInt :=
  BitVec.toInt_signExtend_of_le (by cases o <;> decide)

/-! ### The obligations -/

/-- Settles O1: `decodesTo_encode`, family by family of the opcode map. -/
theorem decodeOfEncode : Obligations.DecodeOfEncode := by
  unfold Obligations.DecodeOfEncode
  exact fun i rest hwf => decodesTo_encode hwf rest

/-- Settles O2, each word by running the decoder on it. -/
theorem decodeWords : Obligations.DecodeWords := by
  unfold Obligations.DecodeWords
  exact ⟨rfl, rfl, rfl, rfl, rfl, rfl, rfl, rfl, rfl, rfl, rfl, rfl⟩

/-- Settles O3: the parts and the count from `decodedFrom_of_decode`, independence of what follows from the runs of the
decoder. -/
theorem lengthIsBytesConsumed : Obligations.LengthIsBytesConsumed := by
  unfold Obligations.LengthIsBytesConsumed
  intro bs i r hd
  obtain ⟨⟨tail, hbytes⟩, hlen, hrow⟩ := decodedFrom_of_decode hd
  refine ⟨?parts, ?count, ?opcode, fun rest => ?alone⟩
  case parts =>
    have htake : bs.take r.len = bs.takeWhile isPrefixByte ++ r.body := by
      conv_lhs => rw [hbytes]
      exact List.take_left' (by rw [List.length_append, hlen])
    simp [htake, DecRegs.body]
  case count =>
    rw [hlen]
    simp [DecRegs.body, Nat.add_assoc]
  case opcode =>
    obtain ⟨b, hop, -⟩ | ⟨f, ⟨b, hop, -⟩ | ⟨b, hop, -⟩, -⟩ := hrow <;> simp [hop]
  case alone => exact (dRun_append _ rest _ _ _ _ (dRun_take bs _ _ _ _ hd)).1

/-- Settles O4: what a run of prefixes leaves in the working registers decides what the opcode after it comes to. -/
theorem prefixEffects : Obligations.PrefixEffects := by
  unfold Obligations.PrefixEffects
  refine ⟨?order, ?rep, ?no66, ?addressSize⟩
  case order =>
    intro ps qs bs hps hqs hseg h66
    have hregs : (prefixRegs ps).meaning = (prefixRegs qs).meaning := by
      simp only [DecRegs.meaning, prefixRegs, hseg, h66, lastRep_plain hps, lastRep_plain hqs]
    rw [decode_prefixes (all_isPrefixByte hps), decode_prefixes (all_isPrefixByte hqs)]
    exact dRun_fst_eq hregs bs .dPrefix
  case rep =>
    intro ps rest i hps hrep hwf hi
    obtain ⟨qs, op, f, tail, henc, hqs, hop⟩ := encode_opcode hwf hi
    have hall : (ps ++ qs).all isPrefixByte = true := by rw [List.all_append, hps, hqs, Bool.true_and]
    have hmem : (0xF2 : Byte) ∈ ps ++ qs ∨ (0xF3 : Byte) ∈ ps ++ qs :=
      hrep.imp (List.mem_append_left qs) (List.mem_append_left qs)
    simpa [henc] using decode_rep hall hmem hop (tail ++ rest)
  case no66 =>
    intro ps rest i hps h66 hwf hi
    obtain ⟨qs, op, f, tail, henc, hqs, hop, hno⟩ := encode_no66 hwf hi
    have hall : (ps ++ qs).all isPlainPrefix = true := by rw [List.all_append, hps, hqs, Bool.true_and]
    simpa [henc] using decode_no66 hall (List.mem_append_left qs h66) hop hno (tail ++ rest)
  case addressSize =>
    intro ps rest hps
    exact (decode_prefixes hps _).trans (dRun_refused (st := .dPrefix) rfl rest)

/-- Settles O5: the rows of R125 are those of the statement, and each raises InvalidOpcode (R371). -/
theorem invalidEncodings : Obligations.InvalidEncodings := by
  unfold Obligations.InvalidEncodings
  refine ⟨fun op m rest => (decode_invalid_iff op m rest).trans (mem_invalidRows_iff op _), decode_invalidMovCs_iff, ?_⟩
  intro i s hi
  have hexec : exec i s = raiseInvalidOpcode s := by
    obtain ⟨op, m, rfl⟩ | ⟨m, rfl⟩ := hi <;> rfl
  rw [hexec]
  exact ⟨fun hstrict htrap => (raiseInvalidOpcode_next ..).mpr (.inr ⟨hstrict, htrap, rfl⟩),
    fun hstrict => (raiseInvalidOpcode_next ..).mpr (.inl ⟨hstrict, rfl⟩)⟩

/-- Settles O6: the rows of R126 are those of the statement, and none has a meaning. -/
theorem reservedEncodings : Obligations.ReservedEncodings := by
  unfold Obligations.ReservedEncodings
  refine ⟨fun op m rest => (decode_reserved_iff op m rest).trans ?_, decode_reservedOpcode_iff, fun _ _ _ => rfl⟩
  rw [groupIndex_eq]
  exact mem_reservedRows_iff op _

/-- Settles O7: what the tables leave out, and the refusal of the step that meets it. -/
theorem notAdmitted : Obligations.NotAdmitted := by
  unfold Obligations.NotAdmitted
  refine ⟨?one, ?two, ?grp5, ?step⟩
  case one =>
    intro op rest hprefix h0F h67 h82 hlow hinc hjcc hmov hesc hlist
    refine decode_notAdmitted1 ⟨hprefix, h67, h0F⟩ ?_ rest
    have h82' : op.toNat ≠ 0x82 := fun h => h82 (BitVec.eq_of_toNat_eq h)
    obtain h | ⟨h, h'⟩ | ⟨h, h'⟩ | h : op.toNat < 0x40 ∨ (0x50 ≤ op.toNat ∧ op.toNat < 0x70) ∨
        (0x82 < op.toNat ∧ op.toNat < 0xB0) ∨ 0xC2 ≤ op.toNat := by omega
    · exact lookup1_notAdmitted_below_40 op h (hlow h)
    · exact lookup1_notAdmitted_50_to_70 op h h' fun hmem => hlist (List.mem_of_mem_take (i := 2) hmem)
    · exact lookup1_notAdmitted_83_to_B0 op h h' fun hmem =>
        hlist (List.mem_of_mem_drop (i := 2) (List.mem_of_mem_take (i := 16) hmem))
    · exact lookup1_notAdmitted_from_C2 op h hesc fun hmem => hlist (List.mem_of_mem_drop (i := 18) hmem)
  case two => exact fun b rest hb => decode_notAdmitted2 (lookup2_notAdmitted b hb) rest
  case grp5 =>
    intro m rest hm
    rw [groupIndex_eq] at hm
    exact decode_grp5_notAdmitted (grp5_check_notAdmitted _ hm) rest
  case step => exact fun s hready hd => step_of_decode_error hready hd

/-- Settles O8: the fifteen bytes fetched run out in the middle of the instruction. -/
theorem tooLongRefused : Obligations.TooLongRefused := by
  unfold Obligations.TooLongRefused
  intro s i r more hready hfetched hd hlong
  have hshort : DecRegs.idle.len + s.fetchBytes.length < r.len := by
    rw [hfetched]
    exact hlong
  have htrunc : decode s.fetchBytes = .error .truncated := dRun_truncated _ more _ _ r i hd hshort
  rw [step_of_decode_error hready htrunc, hfetched]
  rfl

/-- Settles O9. -/
theorem stepRunsDecoded : Obligations.StepRunsDecoded := by
  unfold Obligations.StepRunsDecoded
  exact fun s i r hready hd => step_of_decode hready hd

/-- Settles O28: each form by its definition, the values of immediates and of CL by arithmetic. -/
theorem operandForms : Obligations.OperandForms := by
  unfold Obligations.OperandForms
  intro s
  refine ⟨?register, ?memory, ?rmReg, ?regRm, ?accImm, ?rmImm, ?imm8, ?imm16, ?imm32, ?simm, rfl, rfl,
    fun _ _ _ => rfl, fun _ => rfl, fun _ _ => rfl, fun _ => ⟨rfl, rfl⟩, rfl, readCl_toNat _, readCl_toNat _⟩
  case register => exact fun w r v => ⟨rfl, rfl, rfl⟩
  case memory => exact fun w m v => ⟨rfl, rfl, inMem_iff s _ _⟩
  case rmReg | regRm => exact fun _ _ _ => ⟨rfl, rfl, rfl, rfl⟩
  case accImm => exact fun _ => ⟨rfl, rfl⟩
  case rmImm => exact fun _ _ => ⟨rfl, rfl⟩
  case imm8 | imm16 | imm32 =>
    exact fun e v => ⟨rfl, congrArg _ (BitVec.setWidth_eq v), rfl, congrArg _ (BitVec.setWidth_eq v)⟩
  case simm => exact fun o e v => ⟨rfl, rfl, simmVal_toInt o v, rfl⟩

end Sys2Proof.Machine
end

section
/-! SUPPORT. The obligations of the add and subtract family (`40_alu_add_sub.md`): what the shared operations do with an
ALU output that has `ZSP_N(res)`, and INC, DEC and NEG by arithmetic. -/

namespace Sys2Proof.Machine

open Sys2Proof.Config

/-! ### Instructions whose flags are `ZSP_N(res)` and some of CF, AF, OF (R82, R160) -/

theorem Width.three_lt_bits (w : Width) : 3 < w.bits := by cases w <;> decide

/-- The flag latch after a write set `ZSP_N(res)` with `w` added: a flag that `w` does not name keeps its value. -/
def Flags.afterZsp {n : Nat} (f : Flags) (res : BitVec n) (w : FlagWrites) : Flags :=
  { f.ofResult res with cf := w.cf.getD f.cf, af := w.af.getD f.af, ofl := w.ofl.getD f.ofl }

/-- Where no flag is left free, the last two steps of R82 are `finish`. -/
theorem State.writeFlags_zsp_advance {n : Nat} (s : State) (res : BitVec n) (w : FlagWrites) :
    (s.writeFlags (.zsp res w) []).advance = s.finish (s.flags.afterZsp res w) := by
  rw [State.writeFlags_nil, zsp_apply]
  rfl

section
variable {s : State} {fw : FlagWrites}

theorem execBin_of_zsp {op : AluOp2} {f : BinForm} {res : BitVec (binWidth f).bits} (hok : s.binOk f = true)
    (hop : op (s.readRm (binWidth f) (binDst f)) (s.binSrc f) = ⟨res, .zsp res fw⟩) :
    execBin op [] f s = .next ((s.writeRm (binWidth f) (binDst f) res).finish (s.flags.afterZsp res fw)) := by
  rw [execBin_next, hop, State.writeFlags_zsp_advance, State.writeRm_flags]
  exact ⟨hok, rfl⟩

theorem execBinFlags_of_zsp {op : AluOp2} {f : BinForm} {res : BitVec (binWidth f).bits} (hok : s.binOk f = true)
    (hop : op (s.readRm (binWidth f) (binDst f)) (s.binSrc f) = ⟨res, .zsp res fw⟩) :
    execBinFlags op [] f s = .next (s.finish (s.flags.afterZsp res fw)) := by
  rw [execBinFlags_next, hop, State.writeFlags_zsp_advance]
  exact ⟨hok, rfl⟩

theorem execRmw_of_zsp {w : Width} {e : Rm} {op : BitVec w.bits → AluOut w.bits} {res : BitVec w.bits}
    (hok : s.rmOk w e = true) (hop : op (s.readRm w e) = ⟨res, .zsp res fw⟩) :
    execRmw w e op [] s = .next ((s.writeRm w e res).finish (s.flags.afterZsp res fw)) := by
  rw [execRmw_next, hop, State.writeFlags_zsp_advance, State.writeRm_flags]
  exact ⟨hok, rfl⟩

end

/-! ### INC, DEC and NEG by arithmetic (R164, R165, R173) -/

section
variable {n : Nat} (v : BitVec n)

/-- The signed range of n bits, and which unsigned values stand for its two ends. -/
theorem toInt_range (hn : 0 < n) :
    let half : Nat := 2 ^ (n - 1)
    v.toInt ≤ half - 1 ∧ -(half : Int) ≤ v.toInt ∧
      (v.toInt = -(half : Int) ↔ v.toNat = half) ∧ (v.toInt = half - 1 ↔ v.toNat = half - 1) := by
  have hlt := v.isLt
  have hpow := two_pow_pred hn
  obtain ⟨-, hint, hsign⟩ | ⟨-, hint, hsign⟩ := sign_cases hn v <;> rw [hint] <;> omega

/-- The successor overflows at the largest signed value only. -/
theorem not_fitsSigned_add_one (hn : 0 < n) :
    (!fitsSigned n (v.toInt + 1)) = decide (v.toNat = 2 ^ (n - 1) - 1) := by
  obtain ⟨hhigh, hlow, -, hmax⟩ := toInt_range v hn
  rw [fitsSigned_eq, ← decide_not, decide_eq_decide, ← hmax]
  omega

/-- The predecessor overflows at the most negative value only. -/
theorem not_fitsSigned_sub_one (hn : 0 < n) :
    (!fitsSigned n (v.toInt - 1)) = decide (v.toNat = 2 ^ (n - 1)) := by
  obtain ⟨hhigh, hlow, hmin, -⟩ := toInt_range v hn
  rw [fitsSigned_eq, ← decide_not, decide_eq_decide, ← hmin]
  omega

/-- The negation overflows at the most negative value only. -/
theorem not_fitsSigned_neg (hn : 0 < n) : (!fitsSigned n (-v.toInt)) = decide (v.toNat = 2 ^ (n - 1)) := by
  obtain ⟨hhigh, hlow, hmin, -⟩ := toInt_range v hn
  rw [fitsSigned_eq, ← decide_not, decide_eq_decide, ← hmin]
  omega

theorem aluInc_eq (hn : 3 < n) :
    aluInc v = ⟨BitVec.ofNat n (v.toNat + 1), .zsp (BitVec.ofNat n (v.toNat + 1))
      { af := some (decide (v.toNat % 16 = 15)), ofl := some (decide (v.toNat = 2 ^ (n - 1) - 1)) }⟩ := by
  have haf : 15 < v.toNat % 16 + 1 ↔ v.toNat % 16 = 15 := by omega
  simp only [aluInc, aluAdd_eq hn, BitVec.toNat_one (show 0 < n by omega), BitVec.toInt_one (show 1 < n by omega),
    Bool.toNat_false, Nat.cast_zero, Int.add_zero, Nat.add_zero, not_fitsSigned_add_one v (show 0 < n by omega),
    Nat.reduceMod, haf]
  rfl

theorem aluDec_eq (hn : 3 < n) :
    aluDec v = ⟨BitVec.ofInt n (v.toNat - 1), .zsp (BitVec.ofInt n (v.toNat - 1))
      { af := some (decide (v.toNat % 16 = 0)), ofl := some (decide (v.toNat = 2 ^ (n - 1))) }⟩ := by
  simp only [aluDec, aluSub_eq hn, BitVec.toNat_one (show 0 < n by omega), BitVec.toInt_one (show 1 < n by omega),
    Bool.toNat_false, Nat.cast_zero, Nat.cast_one, Int.sub_zero, Nat.add_zero,
    not_fitsSigned_sub_one v (show 0 < n by omega), Nat.reduceMod, Nat.lt_one_iff]
  rfl

theorem aluSub_zero_left_eq (hn : 3 < n) :
    aluSub 0 v false = ⟨BitVec.ofInt n (-v.toNat), .zsp (BitVec.ofInt n (-v.toNat))
      { cf := some (decide (v.toNat ≠ 0)), af := some (decide (v.toNat % 16 ≠ 0)),
        ofl := some (decide (v.toNat = 2 ^ (n - 1))) }⟩ := by
  simp only [aluSub_eq hn, BitVec.ofNat_eq_ofNat, BitVec.toNat_zero, BitVec.toInt_zero, Bool.toNat_false,
    Nat.cast_zero, Int.sub_zero, Int.zero_sub, Nat.add_zero, Nat.zero_mod, Nat.pos_iff_ne_zero,
    not_fitsSigned_neg v (show 0 < n by omega)]

/-- A subtraction without borrow in, as CMP makes it (R170). -/
theorem aluSub_false_eq (hn : 3 < n) (a b : BitVec n) :
    aluSub a b false = ⟨BitVec.ofInt n (a.toNat - b.toNat), .zsp (BitVec.ofInt n (a.toNat - b.toNat))
      { cf := some (decide (a.toNat < b.toNat)), af := some (decide (a.toNat % 16 < b.toNat % 16)),
        ofl := some (!fitsSigned n (a.toInt - b.toInt)) }⟩ := by
  simp only [aluSub_eq hn, Bool.toNat_false, Nat.cast_zero, Int.sub_zero, Nat.add_zero]

end

/-! ### The parity table (R161) -/

/-- A byte has an even number of ones when its nibbles' counts have one parity: over all 256 bytes. -/
theorem parityByTable_eq : ∀ b : Byte, parityByTable b = evenOnes b.toNat := by decide

theorem parityTable_eq : ∀ i, i < 16 → parityTable.getD i false = evenOnes i := by decide

/-! ### The obligations -/

/-- Settles O24. -/
theorem parityOfLowByte : Obligations.ParityOfLowByte := by
  unfold Obligations.ParityOfLowByte
  exact ⟨fun n res => evenParity_eq res, parityByTable_eq, rfl, parityTable_eq⟩

/-- Settles O29: ADD and ADC are one operation but for the carry-in. -/
theorem addAdcResult : Obligations.AddAdcResult := by
  unfold Obligations.AddAdcResult
  intro f s hok n a b outcome
  have hsum (c : Bool) : execBin (fun a b => aluAdd a b c) [] f s = .next (outcome c) :=
    have halu := aluAdd_eq (Width.three_lt_bits _) a b c
    execBin_of_zsp (op := fun a b => aluAdd a b c) hok halu
  exact ⟨hsum false, hsum s.flags.cf⟩

/-- Settles O30: SUB and SBB are one operation but for the borrow-in. -/
theorem subSbbResult : Obligations.SubSbbResult := by
  unfold Obligations.SubSbbResult
  intro f s hok n a b outcome
  have hdiff (c : Bool) : execBin (fun a b => aluSub a b c) [] f s = .next (outcome c) :=
    have halu := aluSub_eq (Width.three_lt_bits _) a b c
    execBin_of_zsp (op := fun a b => aluSub a b c) hok halu
  exact ⟨hdiff false, hdiff s.flags.cf⟩

/-- Settles O31: CMP is SUB without the write, NEG the subtraction from 0. -/
theorem cmpNegResult : Obligations.CmpNegResult := by
  unfold Obligations.CmpNegResult
  refine ⟨fun f s hok => ?cmp, fun w e s hok => ?neg⟩
  case cmp =>
    have halu := aluSub_false_eq (Width.three_lt_bits _) (s.readRm (binWidth f) (binDst f)) (s.binSrc f)
    exact execBinFlags_of_zsp (op := fun a b => aluSub a b false) hok halu
  case neg =>
    have halu := aluSub_zero_left_eq (s.readRm w e) (Width.three_lt_bits w)
    exact execRmw_of_zsp (op := fun v => aluSub 0 v false) hok halu

/-- Settles O32: the short form is the r/m form of a register. -/
theorem incDecResult : Obligations.IncDecResult := by
  unfold Obligations.IncDecResult
  intro f w e s hf hok
  have hinc := execRmw_of_zsp hok (aluInc_eq (s.readRm w e) (Width.three_lt_bits w))
  have hdec := execRmw_of_zsp hok (aluDec_eq (s.readRm w e) (Width.three_lt_bits w))
  obtain rfl | ⟨o, r, rfl, rfl, rfl⟩ := hf <;> exact ⟨hinc, hdec⟩

end Sys2Proof.Machine
end

section
/-! SUPPORT. The obligations of the logic family (`41_alu_logic.md`): what the shared operations do with the output of
And, Or and Xor, whose AF policy `draw` leaves free. -/

namespace Sys2Proof.Machine

open Sys2Proof.Config

/-! ### Instructions with the flags of R200 -/

/-- The flag latch after AND, OR, XOR and TEST with AF at `x` (R200). -/
def Flags.afterLogic {n : Nat} (f : Flags) (res : BitVec n) (x : Bool) : Flags :=
  { f.ofResult res with cf := false, ofl := false, af := x }

/-- The write set of R200 does not name AF. -/
theorem logicOut_apply {n : Nat} (res : BitVec n) (f : Flags) :
    (logicOut res).fw.apply f = f.afterLogic res f.af := zsp_apply res _ f

/-- The last two steps of R82 for the logic instructions: AF, the one flag U4 names, is kept under `as_specified`; every
other flag has its value under either policy. -/
theorem State.writeFlags_logic_advance {n : Nat} (s : State) (res : BitVec n) :
    ∃ (x : Bool) (k : Nat), (s.specified → x = s.flags.af ∧ k = s.draws) ∧
      (s.writeFlags (logicOut res).fw undefLogic).advance = { s.finish (s.flags.afterLogic res x) with draws := k } := by
  obtain ⟨fl, k, heq, hspec, hget, htf, hifl, hdf⟩ := s.writeFlags_cases (logicOut res).fw undefLogic
  rw [logicOut_apply] at hspec hget
  have hfl : fl = s.flags.afterLogic res fl.af := by
    refine Flags.ext_get _ _ (fun n => ?_) htf hifl hdf
    cases n with
    | af => rfl
    | cf | pf | zf | sf | ofl => exact hget _ (by decide)
  refine ⟨fl.af, k, fun h => ?_, ?_⟩
  · obtain ⟨rfl, hk⟩ := hspec (.inl h)
    exact ⟨rfl, hk⟩
  · rw [heq, ← hfl]
    rfl

section
variable {s : State} {op : AluOp2} {f : BinForm} {res : BitVec (binWidth f).bits}

theorem execBin_of_logic (hok : s.binOk f = true)
    (hop : op (s.readRm (binWidth f) (binDst f)) (s.binSrc f) = logicOut res) :
    ∃ (x : Bool) (k : Nat), (s.specified → x = s.flags.af ∧ k = s.draws) ∧
      execBin op undefLogic f s =
        .next { (s.writeRm (binWidth f) (binDst f) res).finish (s.flags.afterLogic res x) with draws := k } := by
  obtain ⟨x, k, hspec, hnext⟩ := (s.writeRm (binWidth f) (binDst f) res).writeFlags_logic_advance res
  simp only [State.specified, State.writeRm_cfg, State.writeRm_flags, State.writeRm_draws] at hspec hnext
  refine ⟨x, k, hspec, ?_⟩
  rw [execBin_next, hop, ← hnext]
  exact ⟨hok, rfl⟩

theorem execBinFlags_of_logic (hok : s.binOk f = true)
    (hop : op (s.readRm (binWidth f) (binDst f)) (s.binSrc f) = logicOut res) :
    ∃ (x : Bool) (k : Nat), (s.specified → x = s.flags.af ∧ k = s.draws) ∧
      execBinFlags op undefLogic f s = .next { s.finish (s.flags.afterLogic res x) with draws := k } := by
  obtain ⟨x, k, hspec, hnext⟩ := s.writeFlags_logic_advance res
  refine ⟨x, k, hspec, ?_⟩
  rw [execBinFlags_next, hop, ← hnext]
  exact ⟨hok, rfl⟩

end

/-- The complement by arithmetic (R205). -/
theorem not_eq_ofNat {n : Nat} (v : BitVec n) : ~~~v = BitVec.ofNat n (2 ^ n - 1 - v.toNat) := by
  rw [← BitVec.toNat_not, BitVec.ofNat_toNat, BitVec.setWidth_eq]

/-- An operation on one operand whose write set is empty keeps the latch. -/
theorem execRmw_of_noFlags {s : State} {w : Width} {e : Rm} {op : BitVec w.bits → AluOut w.bits} {res : BitVec w.bits}
    (hok : s.rmOk w e = true) (hop : op (s.readRm w e) = ⟨res, {}⟩) :
    execRmw w e op [] s = .next ((s.writeRm w e res).finish s.flags) := by
  rw [execRmw_next, hop, State.writeFlags_nil, FlagWrites.apply_empty, State.writeRm_flags]
  exact ⟨hok, rfl⟩

/-! ### The obligations -/

/-- Settles O33: AND, OR and XOR are one operation but for the result. -/
theorem andOrXorResult : Obligations.AndOrXorResult := by
  unfold Obligations.AndOrXorResult
  intro f s hok a b p hp
  simp only [List.mem_cons, List.not_mem_nil, or_false] at hp
  obtain rfl | rfl | rfl := hp
  · exact execBin_of_logic (op := aluAnd) (res := a &&& b) hok rfl
  · exact execBin_of_logic (op := aluOr) (res := a ||| b) hok rfl
  · exact execBin_of_logic (op := aluXor) (res := a ^^^ b) hok rfl

/-- Settles O34: TEST is AND without the write, NOT the complement with an empty write set. -/
theorem testNotResult : Obligations.TestNotResult := by
  unfold Obligations.TestNotResult
  refine ⟨fun f s hok => ?test, fun w e s hok => ?not⟩
  case test => exact execBinFlags_of_logic (op := aluAnd) hok rfl
  case not =>
    rw [← not_eq_ofNat]
    exact execRmw_of_noFlags (op := fun v => ⟨~~~v, {}⟩) hok rfl

end Sys2Proof.Machine
end

section
/-! SUPPORT. The obligations of the multiply and divide family (`42_alu_mul_div.md`): the halves of a product and the value of
a dividend by arithmetic, and what the shared operations do with the flags that policy `draw` leaves free. -/

namespace Sys2Proof.Machine

open Sys2Proof.Config

/-! ### Slices and concatenations by arithmetic -/

/-- The low `len` bits of the quotient by `2 ^ start` come from the low `start + len` bits of the dividend alone. -/
theorem ediv_emod_two_pow (x : Int) (start len k : Nat) :
    x % 2 ^ (start + len + k) / 2 ^ start % 2 ^ len = x / 2 ^ start % 2 ^ len := by
  have hx : x % 2 ^ (start + len + k) + x / 2 ^ (start + len + k) * 2 ^ k * 2 ^ len * 2 ^ start = x := by
    conv_rhs => rw [← Int.emod_add_ediv_mul x (2 ^ (start + len + k))]
    ring
  conv_rhs => rw [← hx]
  rw [Int.add_mul_ediv_right _ _ (by positivity), Int.add_mul_emod_self_right]

/-- A slice of the two's complement of an integer is the quotient by a power of two, rounded down, in the slice's width. -/
theorem extractLsb'_ofInt {start len n : Nat} (h : start + len ≤ n) (x : Int) :
    (BitVec.ofInt n x).extractLsb' start len = BitVec.ofInt len (x / 2 ^ start) := by
  obtain ⟨k, rfl⟩ := Nat.exists_eq_add_of_le h
  refine BitVec.eq_of_toNat_eq (Int.ofNat_inj.mp ?_)
  rw [BitVec.extractLsb'_toNat, Nat.shiftRight_eq_div_pow, BitVec.toNat_ofInt, BitVec.toNat_ofInt]
  push_cast
  rw [Int.toNat_of_nonneg (Int.emod_nonneg _ (by positivity)), Int.toNat_of_nonneg (Int.emod_nonneg _ (by positivity)),
    ediv_emod_two_pow]

theorem setWidth_ofInt {len n : Nat} (h : len ≤ n) (x : Int) :
    (BitVec.ofInt n x).setWidth len = BitVec.ofInt len x := by
  rw [BitVec.setWidth_eq_extractLsb' h, extractLsb'_ofInt (by omega), Int.pow_zero, Int.ediv_one]

theorem toNat_append_eq {m n : Nat} (x : BitVec m) (y : BitVec n) : (x ++ y).toNat = x.toNat * 2 ^ n + y.toNat := by
  rw [BitVec.toNat_append, ← Nat.shiftLeft_add_eq_or_of_lt y.isLt, Nat.shiftLeft_eq]

theorem toInt_append_eq {m n : Nat} (h : 0 < m) (x : BitVec m) (y : BitVec n) :
    (x ++ y).toInt = x.toInt * 2 ^ n + y.toNat := by
  rw [BitVec.toInt_append, if_neg (by simpa using h.ne'), Int.mul_comm]

/-! ### The registers of a product and of a division (R227, R230) -/

/-- AX, DX:AX or EDX:EAX with the integer `x` in them, cut to their 2N bits (R227, R228). -/
def Gprs.writeProduct (g : Gprs) (x : Int) : Width → Gprs
  | .w8 => g.write .w16 .ax (BitVec.ofInt 16 x)
  | .w16 => (g.write .w16 .ax (BitVec.ofInt 16 x)).write .w16 .dx (BitVec.ofInt 16 (x / 2 ^ 16))
  | .w32 => (g.write .w32 .ax (BitVec.ofInt 32 x)).write .w32 .dx (BitVec.ofInt 32 (x / 2 ^ 32))

theorem State.writeDouble_ofInt (s : State) (w : Width) (x : Int) :
    s.writeDouble w (BitVec.ofInt (2 * w.bits) x) = { s with gpr := s.gpr.writeProduct x w } := by
  cases w <;>
    simp (disch := decide) only [State.writeDouble, Gprs.writeProduct, setWidth_ofInt, extractLsb'_ofInt, Int.pow_zero,
      Int.ediv_one]

theorem State.writeQuotRem_eq (s : State) (w : Width) (d : DivOut w.bits) : s.writeQuotRem w d =
    { s with gpr := (s.gpr.write w .ax d.quot).write w (if w = .w8 then .sp else .dx) d.rem } := by
  cases w <;> rfl

/-! ### The flag latch and `ip` after a multiplication or a division (R82, R220, R221) -/

/-- The last two steps of R82, where `writeFlags` may leave flags free. -/
theorem State.writeFlags_advance_cases (s : State) (fw : FlagWrites) (names : List FlagName) :
    ∃ (fl : Flags) (k : Nat), (s.writeFlags fw names).advance = { s.finish fl with draws := k } ∧
      (s.specified → fl = fw.apply s.flags ∧ k = s.draws) ∧
      (∀ n, n ∉ names → fl.get n = (fw.apply s.flags).get n) ∧
      fl.ifl = s.flags.ifl ∧ fl.df = s.flags.df ∧ fl.tf = s.flags.tf := by
  obtain ⟨fl, k, heq, hspec, hget, htf, hifl, hdf⟩ := s.writeFlags_cases fw names
  refine ⟨fl, k, ?_, fun h => hspec (.inl h), hget, hifl, hdf, htf⟩
  rw [heq]
  rfl

/-- The output of Mul, with its overflow as a bound on the product (R220). -/
theorem aluMul_eq {n : Nat} (a b : BitVec n) :
    let p := a.toNat * b.toNat
    let w : FlagWrites := { cf := some (decide (2 ^ n ≤ p)), ofl := some (decide (2 ^ n ≤ p)) }
    aluMul a b = ⟨BitVec.ofNat (2 * n) p, if n = 8 then .zsp (BitVec.ofNat n p) w else .zsp (BitVec.ofNat (2 * n) p) w⟩ := by
  have hhigh : decide (a.toNat * b.toNat / 2 ^ n ≠ 0) = decide (2 ^ n ≤ a.toNat * b.toNat) :=
    decide_eq_decide.mpr (by simp)
  simp only [aluMul, hhigh]

/-- MUL and IMUL write CF and OF whatever the policy: U3 and U4 name only the other four. -/
theorem State.writeFlags_mul_advance (s : State) (fw : FlagWrites) :
    ∃ (fl : Flags) (k : Nat), (s.writeFlags fw undefMul).advance = { s.finish fl with draws := k } ∧
      fl.cf = (fw.apply s.flags).cf ∧ fl.ofl = (fw.apply s.flags).ofl ∧
      fl.ifl = s.flags.ifl ∧ fl.df = s.flags.df ∧ fl.tf = s.flags.tf ∧
      (s.specified → fl = fw.apply s.flags ∧ k = s.draws) := by
  obtain ⟨fl, k, heq, hspec, hget, hifl, hdf, htf⟩ := s.writeFlags_advance_cases fw undefMul
  exact ⟨fl, k, heq, hget .cf (by decide), hget .ofl (by decide), hifl, hdf, htf, hspec⟩

/-- IMUL in any form writes no flag but CF and OF (R221). -/
theorem State.writeFlags_imul_advance {n : Nat} (s : State) (a b : BitVec n) :
    ∃ (fl : Flags) (k : Nat), (s.writeFlags (aluImul a b).fw undefMul).advance = { s.finish fl with draws := k } ∧
      fl.cf = !fitsSigned n (a.toInt * b.toInt) ∧ fl.ofl = !fitsSigned n (a.toInt * b.toInt) ∧
      fl.ifl = s.flags.ifl ∧ fl.df = s.flags.df ∧ fl.tf = s.flags.tf ∧
      (s.specified → fl = { s.flags with cf := fl.cf, ofl := fl.ofl } ∧ k = s.draws) := by
  obtain ⟨fl, k, heq, hcf, hofl, hifl, hdf, htf, hspec⟩ := s.writeFlags_mul_advance (aluImul a b).fw
  refine ⟨fl, k, heq, hcf, hofl, hifl, hdf, htf, fun h => ?_⟩
  obtain ⟨rfl, hk⟩ := hspec h
  exact ⟨rfl, hk⟩

/-! ### The shared operations of multiplication into a register and of division (R229, R230) -/

/-- A multiplication into a register: the low N bits of the product (R229). -/
theorem imulInto_result {s : State} {w : Width} {g : Gpr} {e : Rm} {x y : BitVec w.bits} {a b : Int}
    (hok : s.rmOk w e = true) (hx : x.toInt = a) (hy : y.toInt = b) :
    ∃ (fl : Flags) (k : Nat),
      imulInto w g e x y s =
        .next { ({ s with gpr := s.gpr.write w g (BitVec.ofInt w.bits (a * b)) } : State).finish fl with draws := k } ∧
      fl.cf = !fitsSigned w.bits (a * b) ∧ fl.ofl = !fitsSigned w.bits (a * b) ∧
      fl.ifl = s.flags.ifl ∧ fl.df = s.flags.df ∧ fl.tf = s.flags.tf ∧
      (s.specified → fl = { s.flags with cf := fl.cf, ofl := fl.ofl } ∧ k = s.draws) := by
  subst hx hy
  have hlow : (aluImul x y).res.setWidth w.bits = BitVec.ofInt w.bits (x.toInt * y.toInt) :=
    setWidth_ofInt (Nat.le_mul_of_pos_left _ Nat.two_pos) _
  obtain ⟨fl, k, heq, hflags⟩ := State.writeFlags_imul_advance
    { s with gpr := s.gpr.write w g (BitVec.ofInt w.bits (x.toInt * y.toInt)) } x y
  refine ⟨fl, k, ?_, hflags⟩
  rw [imulInto_next, hlow, heq]
  exact ⟨hok, rfl⟩

section
variable {s : State} {w : Width} {e : Rm} {divide : BitVec (2 * w.bits) → BitVec w.bits → Option (DivOut w.bits)}

/-- A division that does not fault (R230). -/
theorem execDivide_of_some {q r : BitVec w.bits} (hok : s.rmOk w e = true)
    (hd : divide (s.dividend w) (s.readRm w e) = some ⟨q, r⟩) :
    ∃ (fl : Flags) (k : Nat),
      execDivide w e divide s = .next { ({ s with
        gpr := (s.gpr.write w .ax q).write w (if w = .w8 then .sp else .dx) r } : State).finish fl with draws := k } ∧
      fl.ifl = s.flags.ifl ∧ fl.df = s.flags.df ∧ fl.tf = s.flags.tf ∧
      (s.specified → fl = s.flags ∧ k = s.draws) := by
  obtain ⟨fl, k, heq, hspec, -, hifl, hdf, htf⟩ := (s.writeQuotRem w ⟨q, r⟩).writeFlags_advance_cases {} undefDiv
  rw [State.writeQuotRem_eq] at heq hspec hifl hdf htf
  refine ⟨fl, k, ?_, hifl, hdf, htf, hspec⟩
  rw [execDivide_next]
  exact ⟨hok, .inl ⟨_, hd, by rw [State.writeQuotRem_eq, heq]⟩⟩

/-- A division that faults writes nothing before the trap entry (R224, R370). -/
theorem execDivide_of_none (hok : s.rmOk w e = true) (hd : divide (s.dividend w) (s.readRm w e) = none) :
    execDivide w e divide s = takeTrap s 0 s.dec.ipStart := by
  simp only [execDivide, hok, hd, if_true, raiseDivisionFault]

end

/-! ### The obligations -/

/-- Settles O35: the latch of the write set is `full` with CF and OF, and policy `draw` leaves these two alone. -/
theorem mulResult : Obligations.MulResult := by
  unfold Obligations.MulResult
  intro w e s hok p full g
  have hg : s.gpr.writeProduct p w = g := by
    cases w with
    | w8 => exact congrArg (s.gpr.write .w16 .ax) (BitVec.ofInt_natCast ..)
    | w16 | w32 =>
      simp only [Gprs.writeProduct, BitVec.ofInt_natCast]
      norm_cast
  have hlatch : (aluMul (s.gpr.read w .ax) (s.readRm w e)).fw.apply s.flags =
      { full with cf := decide (2 ^ w.bits ≤ p), af := s.flags.af, ofl := decide (2 ^ w.bits ≤ p) } := by
    rw [aluMul_eq]
    cases w <;> exact zsp_apply _ _ _
  obtain ⟨fl, k, heq, hcf, hofl, hifl, hdf, htf, hspec⟩ :=
    State.writeFlags_mul_advance { s with gpr := g } (aluMul (s.gpr.read w .ax) (s.readRm w e)).fw
  rw [hlatch] at hcf hofl hspec
  refine ⟨fl, k, (guardMem_next ..).mpr ⟨hok, ?_⟩, hcf, hofl, hifl, hdf, htf, fun h => ?_⟩
  · rw [← heq, ← hg, ← State.writeDouble_ofInt, BitVec.ofInt_natCast]
    rfl
  · obtain ⟨rfl, hk⟩ := hspec h
    exact ⟨rfl, rfl, rfl, rfl, hk⟩

/-- Settles O36: the product's halves by floor division, the flags as in every form of IMUL. -/
theorem imulOneOperandResult : Obligations.ImulOneOperandResult := by
  unfold Obligations.ImulOneOperandResult
  intro w e s hok p g
  have hg : s.gpr.writeProduct p w = g := by cases w <;> rfl
  obtain ⟨fl, k, heq, hflags⟩ :=
    State.writeFlags_imul_advance { s with gpr := g } (s.gpr.read w .ax) (s.readRm w e)
  refine ⟨fl, k, (guardMem_next ..).mpr ⟨hok, ?_⟩, hflags⟩
  rw [← heq, ← hg, ← State.writeDouble_ofInt]
  rfl

/-- Settles O37: the three forms are one operation but for the factors. -/
theorem imulIntoRegisterResult : Obligations.ImulIntoRegisterResult := by
  unfold Obligations.ImulIntoRegisterResult
  intro o w g e s hok outcome
  refine ⟨?regRm, ?imm16, ?imm32, ?simm⟩
  case regRm =>
    rintro rfl
    exact imulInto_result hok rfl rfl
  case imm16 | imm32 =>
    rintro v rfl
    exact imulInto_result hok rfl (congrArg _ (BitVec.setWidth_eq v))
  case simm =>
    rintro v rfl
    exact imulInto_result hok rfl (simmVal_toInt o v)

/-- Settles O38: `aluDiv_eq` says when Div faults and what it gives otherwise. -/
theorem divResult : Obligations.DivResult := by
  unfold Obligations.DivResult
  intro w e s hok a b q r g
  have ha : (s.dividend w).toNat = a := by
    cases w with
    | w8 => rfl
    | w16 | w32 => exact toNat_append_eq _ _
  refine ⟨fun hb hq => execDivide_of_some hok ?_, fun h => execDivide_of_none hok (aluDiv_eq_none ?_)⟩
  · rw [aluDiv_eq, ha, if_pos ⟨hb, hq⟩]
  · rwa [ha]

/-- Settles O39: `aluIdiv_eq` says when Idiv faults and what it gives otherwise. -/
theorem idivResult : Obligations.IdivResult := by
  unfold Obligations.IdivResult
  intro w e s hok a b q r g
  have ha : (s.dividend w).toInt = a := by
    cases w with
    | w8 => rfl
    | w16 | w32 => exact toInt_append_eq (by decide) _ _
  refine ⟨fun hb hq => execDivide_of_some hok ?_, fun h => execDivide_of_none hok ?_⟩
  · rw [aluIdiv_eq, ha, if_pos ⟨hb, hq⟩]
  · rw [aluIdiv_eq, ha, if_neg]
    rintro ⟨hb, hq⟩
    exact h.elim hb (Bool.eq_false_iff.mp · hq)

end Sys2Proof.Machine
end

section
/-! SUPPORT. The obligations of the rotate and shift family (`43_alu_rotate_shift.md`): which flags policy `draw` leaves
free at which count, and what the shared operation on one operand then does with them. -/

namespace Sys2Proof.Machine

open Sys2Proof.Config

/-! ### The flags that policy `draw` leaves free (U2, U4, U7) -/

section
variable {k : Byte} {m : Nat}

theorem undefRotate_eq_nil (h : k.toNat % 32 % m = 0 ∨ k.toNat % 32 % m = 1) : undefRotate m k = [] := by
  rw [undefRotate, count5_eq, if_pos h]

theorem undefShift_eq_nil (h : k.toNat % 32 = 0) : undefShift k = [] := by
  rw [undefShift, count5_eq, if_pos h]

theorem undefAf_eq_nil (h : k.toNat % 32 = 0) : undefAf k = [] := by
  rw [undefAf, count5_eq, if_pos h]

/-- A shift by 1 has a specified OF (U2). -/
theorem ofl_notMem_undefShift (h : k.toNat % 32 = 1) : FlagName.ofl ∉ undefShift k := by
  rw [undefShift, count5_eq, h]
  decide

theorem undefRotate_subset (m : Nat) (k : Byte) : undefRotate m k ⊆ [.ofl] := by
  unfold undefRotate
  split <;> decide

theorem undefShift_subset (k : Byte) : undefShift k ⊆ [.af, .ofl] := by
  unfold undefShift
  split_ifs <;> decide

theorem undefAf_subset (k : Byte) : undefAf k ⊆ [.af] := by
  unfold undefAf
  split <;> decide

end

/-! ### Instructions of which at most AF and OF are left free -/

section
variable {s : State} {w : Width} {e : Rm} {op : BitVec w.bits → AluOut w.bits} {res : BitVec w.bits} {k : Byte}

/-- The last steps of R82 where at most AF and OF are left free: every other flag has its value under either policy. -/
theorem execRmw_of_free {names : List FlagName} {fw : FlagWrites} {fl : Flags} (hok : s.rmOk w e = true)
    (hop : op (s.readRm w e) = ⟨res, fw⟩) (hfl : fw.apply s.flags = fl) (hfree : names ⊆ [.af, .ofl]) :
    ∃ (x y : Bool) (d : Nat),
      execRmw w e op names s =
        .next { (s.writeRm w e res).finish { fl with af := x, ofl := y } with draws := d } ∧
      (s.specified ∨ names = [] → x = fl.af ∧ y = fl.ofl ∧ d = s.draws) ∧
      (.af ∉ names → x = fl.af) ∧ (.ofl ∉ names → y = fl.ofl) := by
  subst hfl
  obtain ⟨fl, d, heq, hspec, hget, htf, hifl, hdf⟩ := (s.writeRm w e res).writeFlags_cases fw names
  simp only [State.specified, State.writeRm_cfg, State.writeRm_flags, State.writeRm_draws] at hspec hget htf hifl hdf
  have hfl : fl = { fw.apply s.flags with af := fl.af, ofl := fl.ofl } := by
    refine Flags.ext_get _ _ (fun n => ?_) htf hifl hdf
    cases n with
    | af | ofl => rfl
    | cf | pf | zf | sf => exact hget _ fun h => absurd (hfree h) (by decide)
  refine ⟨fl.af, fl.ofl, d, ?_, fun h => ?_, hget .af, hget .ofl⟩
  · rw [execRmw_next, hop, heq, ← hfl]
    exact ⟨hok, rfl⟩
  · obtain ⟨rfl, hd⟩ := hspec h
    exact ⟨rfl, rfl, hd⟩

/-- An operation that writes no flag and leaves none free keeps the latch under either policy (R250, R255). -/
theorem execRmw_of_noWrites {names : List FlagName} (hok : s.rmOk w e = true) (hfree : names = [])
    (hop : op (s.readRm w e) = ⟨res, {}⟩) :
    execRmw w e op names s = .next ((s.writeRm w e res).finish s.flags) :=
  hfree ▸ execRmw_of_noFlags hok hop

/-- A rotate writes CF and OF; OF is free unless the reduced count is 0 or 1 (R251 to R254, U7). -/
theorem execRmw_of_rotate {m : Nat} {cf ofl : Bool} (hok : s.rmOk w e = true)
    (hop : op (s.readRm w e) = ⟨res, { cf := some cf, ofl := some ofl }⟩) :
    ∃ (x : Bool) (d : Nat), (s.specified ∨ k.toNat % 32 % m = 1 → x = ofl ∧ d = s.draws) ∧
      execRmw w e op (undefRotate m k) s =
        .next { (s.writeRm w e res).finish { s.flags with cf := cf, ofl := x } with draws := d } := by
  have haf : FlagName.af ∉ undefRotate m k := fun h => absurd (undefRotate_subset m k h) (by decide)
  obtain ⟨x, y, d, heq, hspec, hx, -⟩ := execRmw_of_free hok hop rfl
    (List.Subset.trans (undefRotate_subset m k) (by decide))
  obtain rfl := hx haf
  refine ⟨y, d, fun h => ?_, heq⟩
  obtain ⟨-, hy⟩ := hspec (h.imp_right fun h1 => undefRotate_eq_nil (.inr h1))
  exact hy

/-- SHL and SHR leave AF free, and OF unless the count is 1 (R256, R257, U2, U4). -/
theorem execRmw_of_shift {cf ofl : Bool} (hok : s.rmOk w e = true)
    (hop : op (s.readRm w e) = ⟨res, .zsp res { cf := some cf, ofl := some ofl }⟩) :
    ∃ (x y : Bool) (d : Nat),
      (s.specified → x = s.flags.af ∧ d = s.draws) ∧ (s.specified ∨ k.toNat % 32 = 1 → y = ofl) ∧
      execRmw w e op (undefShift k) s = .next { (s.writeRm w e res).finish
        { s.flags.ofResult res with cf := cf, ofl := y, af := x } with draws := d } := by
  obtain ⟨x, y, d, heq, hspec, -, hone⟩ := execRmw_of_free hok hop (zsp_apply ..) (undefShift_subset k)
  refine ⟨x, y, d, fun h => ?_, fun h => ?_, heq⟩
  · obtain ⟨hx, -, hd⟩ := hspec (.inl h)
    exact ⟨hx, hd⟩
  · obtain h | h := h
    · obtain ⟨-, hy, -⟩ := hspec (.inl h)
      exact hy
    · exact hone (ofl_notMem_undefShift h)

/-- SAR, SHLD and SHRD leave AF alone free (R258, R259, R270, U4). -/
theorem execRmw_of_shiftAf {cf ofl : Bool} (hok : s.rmOk w e = true)
    (hop : op (s.readRm w e) = ⟨res, .zsp res { cf := some cf, ofl := some ofl }⟩) :
    ∃ (x : Bool) (d : Nat), (s.specified → x = s.flags.af ∧ d = s.draws) ∧
      execRmw w e op (undefAf k) s = .next { (s.writeRm w e res).finish
        { s.flags.ofResult res with cf := cf, ofl := ofl, af := x } with draws := d } := by
  have hofl : FlagName.ofl ∉ undefAf k := fun h => absurd (undefAf_subset k h) (by decide)
  obtain ⟨x, y, d, heq, hspec, -, hy⟩ := execRmw_of_free hok hop (zsp_apply ..)
    (List.Subset.trans (undefAf_subset k) (by decide))
  obtain rfl := hy hofl
  refine ⟨x, d, fun h => ?_, heq⟩
  obtain ⟨hx, -, hd⟩ := hspec (.inl h)
  exact ⟨hx, hd⟩

end

/-! ### Overflow of a rotate through Carry (R253, R254) -/

section
variable {m n : Nat}

/-- A result cut to N bits has the two top bits it is cut at. -/
theorem topTwo_setWidth (hn : 1 < n) (y : BitVec m) :
    topTwo (y.setWidth n) = (y.getLsbD (n - 1) ^^ y.getLsbD (n - 2)) := by
  simp [topTwo, show n - 1 < n by omega, show n - 2 < n by omega]

theorem leftOverflow_setWidth (hn : 1 < n) (mode : RotLeftOf) (y : BitVec m) (cf : Bool) :
    leftOverflow mode (y.setWidth n) cf = match mode with
      | .top2 => y.getLsbD (n - 1) ^^ y.getLsbD (n - 2)
      | .msbXorCf => y.getLsbD (n - 1) ^^ cf := by
  cases mode with
  | top2 => exact topTwo_setWidth hn y
  | msbXorCf => simp [leftOverflow, show n - 1 < n by omega]

end

/-! ### The obligations -/

/-- Settles O40: each rotate is `execRmw_of_rotate` with its ALU output. -/
theorem rolRorResult : Obligations.RolRorResult := by
  unfold Obligations.RolRorResult
  intro w e k s hok n c v left right hc
  have hn : 0 < w.bits := Nat.zero_lt_of_lt (Width.three_lt_bits w)
  exact ⟨execRmw_of_rotate (op := fun v => aluRol s.cfg.rotLeftOf v (s.countVal k)) hok (aluRol_eq hn _ v _ hc),
    execRmw_of_rotate (op := fun v => aluRor v (s.countVal k)) hok (aluRor_eq hn v _ hc)⟩

/-- Settles O41: as for ROL and ROR, with Overflow read from the (N+1)-bit value. -/
theorem rclRcrResult : Obligations.RclRcrResult := by
  unfold Obligations.RclRcrResult
  intro w e k s hok n c x0 left right hc
  have hn : 1 < w.bits := Nat.lt_trans (by decide) (Width.three_lt_bits w)
  have hrcl := aluRcl_eq s.cfg.rotLeftOf (s.readRm w e) (s.countVal k) s.flags.cf hc
  have hrcr := aluRcr_eq (s.readRm w e) (s.countVal k) s.flags.cf hc
  simp only [leftOverflow_setWidth hn, topTwo_setWidth hn] at hrcl hrcr
  exact ⟨execRmw_of_rotate (op := fun v => aluRcl s.cfg.rotLeftOf v (s.countVal k) s.flags.cf) hok hrcl,
    execRmw_of_rotate (op := fun v => aluRcr v (s.countVal k) s.flags.cf) hok hrcr⟩

/-- Settles O42: both are `execRmw_of_shift` with their ALU output. -/
theorem shlShrResult : Obligations.ShlShrResult := by
  unfold Obligations.ShlShrResult
  intro w e k s hok n c v left right out hc
  exact ⟨execRmw_of_shift (op := fun v => aluShl v (s.countVal k)) hok (aluShl_eq v _ hc),
    execRmw_of_shift (op := fun v => aluShr v (s.countVal k)) hok (aluShr_eq v _ hc)⟩

/-- Settles O43: the floor division is `aluSar_eq`. -/
theorem sarResult : Obligations.SarResult := by
  unfold Obligations.SarResult
  intro w e k s hok n c v res hc
  have hn : 0 < w.bits := Nat.zero_lt_of_lt (Width.three_lt_bits w)
  exact execRmw_of_shiftAf (op := fun v => aluSar v (s.countVal k)) hok (aluSar_eq hn v _ hc)

/-- Settles O44: the two shift-ins are `aluShld_eq` and `aluShrd_eq`. -/
theorem shldShrdResult : Obligations.ShldShrdResult := by
  unfold Obligations.ShldShrdResult
  intro o e g k s hok n c d v left right hc
  have hn : 16 ≤ o.width.bits := by cases o <;> decide
  exact ⟨execRmw_of_shiftAf (op := fun d => aluShld d v (s.dcountVal k)) hok (aluShld_eq d v _ hc hn),
    execRmw_of_shiftAf (op := fun d => aluShrd d v (s.dcountVal k)) hok (aluShrd_eq d v _ hc hn)⟩

/-- Settles O45: the ALU gives the operand back with an empty write set, and no flag is left free. -/
theorem reducedCountZero : Obligations.ReducedCountZero := by
  unfold Obligations.ReducedCountZero
  refine ⟨?single, ?double⟩
  case single =>
    intro w e k s hok m same
    obtain ⟨hrotate, hcarry, hshift⟩ :=
      alu_count_zero s.cfg.rotLeftOf (s.readRm w e) (s.readRm w e) (s.countVal k) s.flags.cf
    refine ⟨fun hm => ?_, fun hm => ?_, fun hm => ?_⟩
    · obtain ⟨hrol, hror⟩ := hrotate hm
      have hfree := undefRotate_eq_nil (.inl hm)
      exact ⟨execRmw_of_noWrites (op := fun v => aluRol s.cfg.rotLeftOf v (s.countVal k)) hok hfree hrol,
        execRmw_of_noWrites (op := fun v => aluRor v (s.countVal k)) hok hfree hror⟩
    · obtain ⟨hrcl, hrcr⟩ := hcarry hm
      have hfree := undefRotate_eq_nil (.inl hm)
      exact ⟨execRmw_of_noWrites (op := fun v => aluRcl s.cfg.rotLeftOf v (s.countVal k) s.flags.cf) hok hfree hrcl,
        execRmw_of_noWrites (op := fun v => aluRcr v (s.countVal k) s.flags.cf) hok hfree hrcr⟩
    · obtain ⟨hshl, hshr, hsar, -, -⟩ := hshift hm
      have hfree := undefShift_eq_nil hm
      exact ⟨execRmw_of_noWrites (op := fun v => aluShl v (s.countVal k)) hok hfree hshl,
        execRmw_of_noWrites (op := fun v => aluShr v (s.countVal k)) hok hfree hshr,
        execRmw_of_noWrites (op := fun v => aluSar v (s.countVal k)) hok (undefAf_eq_nil hm) hsar⟩
  case double =>
    intro o e g k s hok hm same
    obtain ⟨-, -, hshift⟩ :=
      alu_count_zero s.cfg.rotLeftOf (s.readRm o.width e) (s.gpr.read o.width g) (s.dcountVal k) s.flags.cf
    obtain ⟨-, -, -, hshld, hshrd⟩ := hshift hm
    have hfree := undefAf_eq_nil hm
    exact ⟨execRmw_of_noWrites (op := fun d => aluShld d (s.gpr.read o.width g) (s.dcountVal k)) hok hfree hshld,
      execRmw_of_noWrites (op := fun d => aluShrd d (s.gpr.read o.width g) (s.dcountVal k)) hok hfree hshrd⟩

end Sys2Proof.Machine
end

section
/-! SUPPORT. The obligations of the move and flag access family (`44_move_and_flag_access.md`): a push as a store at the
new SP, the last steps of an instruction that writes no flag, the bits of AH. -/

namespace Sys2Proof.Machine

open Sys2Proof.Config

/-! ### A word on the stack (R77, R378) -/

theorem State.setSp_sp (s : State) (v : Word) : (s.setSp v).sp = v := Gprs.read_write_same s.gpr .w16 .sp v

/-- A push is a store at the new SP. -/
theorem State.push16_eq_store (s : State) (v : Word) :
    s.push16 v = (s.setSp (s.sp - 2)).store (lin s.seg.ss (s.sp - 2)) .w16 v := by
  simp only [State.push16, State.setSp_sp, State.setSp_seg]

/-- A stored value reads back where the transform keeps its own bytes apart (R77). -/
theorem load_store_same (s : State) (a : Nat) (w : Width) (v : BitVec w.bits) (hwf : memWf s.mem)
    (hinj : ∀ i j, i < w.bytes → j < w.bytes → s.phys (a + i) = s.phys (a + j) → i = j) :
    (s.store a w v).load a w = v :=
  load_of_bytes _ a w v fun k hk => byteAt_store_byte s a w v hwf k hk hinj

section
variable {s : State} (hwf : memWf s.mem)
include hwf

/-- A pushed word reads back at the new SP: the stack segment and the byte after it hold both bytes of every slot, the one
at offset 0xFFFF too. -/
theorem load_push16 (hinj : s.cfg.injOn (s.seg.ss.toNat * 16) (s.seg.ss.toNat * 16 + 0x10001)) (v : Word) :
    (s.push16 v).load (lin s.seg.ss (s.sp - 2)) .w16 = v := by
  rw [State.push16_eq_store]
  refine load_store_same (s.setSp (s.sp - 2)) _ .w16 v hwf fun i j hi hj he => ?_
  have hoff := (s.sp - 2).isLt
  simp only [lin, Width.bytes] at hi hj he
  exact Nat.add_left_cancel (hinj _ _ (by omega) (by omega) (by omega) (by omega) he)

theorem byteAt_push16_other (v : Word) (p : Nat) (hp : ∀ k, k < 2 → p ≠ s.phys (lin s.seg.ss (s.sp - 2) + k)) :
    (s.push16 v).byteAt p = s.byteAt p := by
  rw [State.push16_eq_store]
  exact byteAt_store_other (s.setSp (s.sp - 2)) _ .w16 v p hwf hp

end

/-! ### Instructions that write no flag (R82, R300 to R305) -/

theorem State.advance_eq_finish (s : State) : s.advance = s.finish s.flags := rfl

theorem State.advance_eq (s : State) :
    s.advance = { s with ip := BitVec.ofNat 16 (s.dec.ipStart.toNat + s.dec.len) } :=
  congrArg (fun ip => { s with ip }) (nextIp_eq s)

section
variable {s : State}

/-- A move to an `E` operand inside memory completes. -/
theorem guardMem_writeRm {w : Width} {e : Rm} (hok : s.rmOk w e = true) (v : BitVec w.bits) :
    guardMem (s.rmOk w e) (s.writeRm w e v).advance = .next ((s.writeRm w e v).finish s.flags) := by
  rw [hok, guardMem_true, State.advance_eq_finish, State.writeRm_flags]

/-- MOV of an immediate whose value is `v` to a register (R301). -/
theorem exec_movRegImm {i : Imm} {v : BitVec i.width.bits} {g : Gpr} (hv : immVal i.width i = v) :
    exec (.movRegImm g i) s = .next (({ s with gpr := s.gpr.write i.width g v } : State).finish s.flags) := by
  subst hv
  rfl

/-- MOV of an immediate whose value is `v` to an `E` operand (R302). -/
theorem exec_movRmImm {i : Imm} {v : BitVec i.width.bits} {e : Rm} (hv : immVal i.width i = v)
    (hok : s.rmOk i.width e = true) : exec (.movRmImm e i) s = .next ((s.writeRm i.width e v).finish s.flags) := by
  subst hv
  exact guardMem_writeRm hok _

end

/-! ### AH (R23) -/

/-- AH is bits 15:8 of cell 0. -/
theorem State.ah_getLsbD (s : State) {k : Nat} (hk : k < 8) : s.ah.getLsbD k = (s.gpr.cell .ax).getLsbD (k + 8) :=
  Gprs.read_getLsbD s.gpr .sp k .w8 hk

/-! ### Instructions of one byte -/

theorem decode_plain_fst {b : Byte} {i : Instr} {no66 : Bool}
    (hb : isOneByteOpcode b ∧ lookup1 b = .form (.plain i no66)) (rest : List Byte) :
    (decode (b :: rest)).map Prod.fst = .ok i := by
  obtain ⟨r, hd, -⟩ := decodesTo_plain no66 hb rest
  exact congrArg (Except.map Prod.fst) hd

/-! ### The obligations -/

/-- Settles O50: a push stores at the new SP, and the image of the flags taken from a word is that word with the fixed
bits of R28. -/
theorem pushfPopfResult : Obligations.PushfPopfResult := by
  unfold Obligations.PushfPopfResult
  intro s hwf hinj
  refine ⟨fun hok => ?pushf, fun hok => ?popf⟩
  case pushf =>
    exact ⟨(s.push16 s.flags.image).advance, (guardMem_next ..).mpr ⟨hok, rfl⟩, rfl, rfl, load_push16 hwf hinj _,
      byteAt_push16_other hwf _⟩
  case popf =>
    exact ⟨({ s.pop16 with flags := Flags.ofImage s.top16 } : State).advance, (guardMem_next ..).mpr ⟨hok, rfl⟩, rfl,
      Flags.image_ofImage s.top16⟩

/-- Settles O46: an immediate of the operand's width is its own value. -/
theorem movResult : Obligations.MovResult := by
  unfold Obligations.MovResult
  refine ⟨fun w e g s hok => ⟨guardMem_writeRm hok _, (guardMem_next ..).mpr ⟨hok, rfl⟩⟩, ?regImm8, ?regImm16, ?regImm32,
    ?rmImm8, ?rmImm16, ?rmImm32⟩
  case regImm8 | regImm16 | regImm32 => exact fun g v s => exec_movRegImm (BitVec.setWidth_eq v)
  case rmImm8 | rmImm16 | rmImm32 => exact fun e v s hok => exec_movRmImm (BitVec.setWidth_eq v) hok

/-- Settles O47: the store is a move to an `E` operand, the load a write of one segment register. -/
theorem movSegmentResult : Obligations.MovSegmentResult := by
  unfold Obligations.MovSegmentResult
  refine ⟨fun r e s hok => guardMem_writeRm hok _, fun r e s hr hok => ?load⟩
  case load =>
    exact ⟨_, (guardMem_next ..).mpr ⟨hok, rfl⟩, rfl, Segs.get_set_same s.seg r _,
      fun q hq => Segs.get_set_other s.seg r q _ hq⟩

/-- Settles O48: all three only move `ip` (`State.advance_eq`), HLT the run state too. -/
theorem nopEscHltResult : Obligations.NopEscHltResult := by
  unfold Obligations.NopEscHltResult
  intro s
  have hip := s.advance_eq
  exact ⟨congrArg _ hip, fun op reg e => congrArg _ hip,
    congrArg (fun t : State => (.next { t with run := .halted } : Result)) hip⟩

/-- Settles O49: AH reads back what LAHF wrote; the bits SAHF copies stand eight places up in cell 0. -/
theorem lahfSahfResult : Obligations.LahfSahfResult := by
  unfold Obligations.LahfSahfResult
  refine ⟨fun rest => ⟨?lahfByte, ?sahfByte⟩, fun s => ⟨?lahf, ?sahf⟩⟩
  case lahfByte | sahfByte => exact decode_plain_fst (no66 := false) (by decide) rest
  case lahf =>
    have hah := Gprs.read_write_same s.gpr .w8 .sp (s.flags.image.extractLsb' 0 8)
    refine ⟨_, rfl, rfl, fun k hk => ?_, congrArg (s.gpr.write .w8 .sp) hah.symm⟩
    have hlow : (s.flags.image.extractLsb' 0 8).getLsbD k = s.flags.image.getLsbD k := by simp [hk]
    exact (congrArg (·.getLsbD k) hah).trans hlow
  case sahf =>
    have hset : s.flags.setLow s.ah = { s.flags with
        sf := (s.gpr.cell .ax).getLsbD 15, zf := (s.gpr.cell .ax).getLsbD 14, af := (s.gpr.cell .ax).getLsbD 12,
        pf := (s.gpr.cell .ax).getLsbD 10, cf := (s.gpr.cell .ax).getLsbD 8 } := by
      simp only [Flags.setLow, State.ah_getLsbD, Nat.reduceLT, Nat.reduceAdd]
    exact congrArg (fun f => (.next (s.finish f) : Result)) hset

/-- Settles O51: each byte is a row of its own (R120), and CMC's complement is an exclusive or with 1. -/
theorem singleFlagResult : Obligations.SingleFlagResult := by
  unfold Obligations.SingleFlagResult
  refine ⟨fun p hp rest => ?decodes, fun s => ⟨rfl, rfl, ?cmc, rfl, rfl, rfl, rfl⟩⟩
  case decodes =>
    have hrow : isOneByteOpcode p.1 ∧ lookup1 p.1 = .form (.plain p.2 false) := by
      revert p
      decide
    exact decode_plain_fst hrow rest
  case cmc =>
    exact congrArg (fun c => (.next (s.finish { s.flags with cf := c }) : Result)) (Bool.xor_true _).symm

end Sys2Proof.Machine
end

section
/-! SUPPORT. The obligations of the control and system family (`45_control_and_system.md`): jump targets as numbers modulo
2^16, the frame a trap entry leaves on the stack read back word by word, and IRET as one update of the state. -/

namespace Sys2Proof.Machine

open Sys2Proof.Config

/-! ### Jump targets (R340) -/

section
variable (s : State)

/-- The target of a jump is relative to the byte after the instruction, modulo 2^16. -/
theorem State.jumpRel_eq (rel : Word) :
    s.jumpRel rel = { s with ip := BitVec.ofInt 16 (s.dec.ipStart.toNat + s.dec.len + rel.toInt) } := by
  have htarget : s.nextIp + rel = BitVec.ofInt 16 (s.dec.ipStart.toNat + s.dec.len + rel.toInt) := by
    rw [nextIp_eq, BitVec.ofInt_add, BitVec.ofInt_toInt, ← Int.natCast_add, BitVec.ofInt_natCast]
  exact congrArg (fun ip => { s with ip }) htarget

theorem State.jumpRel_signExtend_eq (rel : Byte) :
    s.jumpRel (rel.signExtend 16) =
      { s with ip := BitVec.ofInt 16 (s.dec.ipStart.toNat + s.dec.len + rel.toInt) } := by
  rw [State.jumpRel_eq, BitVec.toInt_signExtend_of_le (by decide)]

theorem State.advance_eq_ofInt :
    s.advance = { s with ip := BitVec.ofInt 16 (s.dec.ipStart.toNat + s.dec.len) } := by
  rw [State.advance_eq, ← Int.natCast_add, BitVec.ofInt_natCast]

end

/-! ### Words on the stack (R378) -/

/-- Bytes that read the same load as the same value. -/
theorem load_congr {s t : State} {a : Nat} {w : Width} (hcfg : t.cfg = s.cfg)
    (h : ∀ k, k < w.bytes → t.byteAt (s.phys (a + k)) = s.byteAt (s.phys (a + k))) : t.load a w = s.load a w := by
  have hphys : t.phys = s.phys := funext fun p => congrArg (·.a20.apply p) hcfg
  refine BitVec.eq_of_toNat_eq ?_
  rw [load_toNat, load_toNat, loadNat_eq_sum, loadNat_eq_sum, hphys]
  refine congrArg List.sum (List.map_congr_left fun k hk => ?_)
  rw [h k (List.mem_range.mp hk)]

theorem State.push16_memWf {s : State} (h : memWf s.mem) (v : Word) : memWf (s.push16 v).mem :=
  storeCells_wf _ _ _ _ _ h

@[simp] theorem State.maskIntr_sp (s : State) : s.maskIntr.sp = s.sp := rfl

theorem State.trapped_sp (s : State) (n : Byte) (saved : Word) : (s.trapped n saved).sp = s.sp - 6 := by
  calc (s.trapped n saved).sp = (s.trapFrame saved).sp := rfl
    _ = s.sp - 2 - 2 - 2 := by simp only [State.trapFrame, State.push16_sp, State.maskIntr_sp]
    _ = s.sp - 6 := by bv_omega

section
variable {s : State} (hwf : memWf s.mem)
  (hinj : s.cfg.injOn (s.seg.ss.toNat * 16) (s.seg.ss.toNat * 16 + 0x10001))
include hwf hinj

/-- A push leaves every word of the stack segment that shares no byte with the new one. -/
theorem load_push16_other (v : Word) {p d : Word} (hp : p = s.sp - 2 + d) (hlo : 2 ≤ d.toNat)
    (hhi : d.toNat ≤ 0xFFFE) : (s.push16 v).load (lin s.seg.ss p) .w16 = s.load (lin s.seg.ss p) .w16 := by
  refine load_congr rfl fun k hk => byteAt_push16_other hwf v _ fun j hj he => ?_
  simp only [Width.bytes] at hk
  have hnew := (s.sp - 2).isLt
  have hword := p.isLt
  have hsame := hinj _ _ (by simp only [lin]; omega) (by simp only [lin]; omega) (by simp only [lin]; omega)
    (by simp only [lin]; omega) he
  simp only [lin, hp, BitVec.toNat_add] at hsame
  omega

/-- Two pushes leave two words, the second below the first. -/
theorem load_push16_push16 (v v' : Word) :
    ((s.push16 v).push16 v').load (lin s.seg.ss (s.sp - 2)) .w16 = v ∧
    ((s.push16 v).push16 v').load (lin s.seg.ss (s.sp - 4)) .w16 = v' := by
  have hwf' := State.push16_memWf hwf v
  have hsp : (s.push16 v).sp - 2 = s.sp - 4 := (congrArg (· - 2) (State.push16_sp s v)).trans (sub_sub _ 2 2)
  have habove : s.sp - 2 = (s.push16 v).sp - 2 + 2 := by
    rw [hsp]
    exact (sub_add _ 4 2).symm
  exact ⟨(load_push16_other hwf' hinj v' habove (by decide) (by decide)).trans (load_push16 hwf hinj v),
    hsp ▸ load_push16 hwf' hinj v'⟩

/-- The frame of a trap entry, word by word (R377). -/
theorem load_trapFrame (saved : Word) :
    (s.trapFrame saved).load (lin s.seg.ss (s.sp - 2)) .w16 = s.flags.image ∧
    (s.trapFrame saved).load (lin s.seg.ss (s.sp - 4)) .w16 = s.seg.cs ∧
    (s.trapFrame saved).load (lin s.seg.ss (s.sp - 6)) .w16 = saved := by
  have hpushes : ∀ a, (s.trapFrame saved).load a .w16 =
      (((s.push16 s.flags.image).push16 s.seg.cs).push16 saved).load a .w16 := fun a => load_congr rfl fun _ _ => rfl
  have hwf' := State.push16_memWf hwf s.flags.image
  have hflagsAt : s.sp - 2 = s.sp - 4 - 2 + 4 := by bv_omega
  have hsp : (s.push16 s.flags.image).sp = s.sp - 2 := State.push16_sp ..
  have hcsAt : s.sp - 2 - 2 = s.sp - 4 := sub_sub _ 2 2
  have hipAt : s.sp - 2 - 4 = s.sp - 6 := sub_sub _ 2 4
  have habove : s.sp - 2 = ((s.push16 s.flags.image).push16 s.seg.cs).sp - 2 + 4 := by
    rw [State.push16_sp, hsp, hcsAt, ← hflagsAt]
  obtain ⟨himage, -⟩ := load_push16_push16 hwf hinj s.flags.image s.seg.cs
  obtain ⟨hcs, hip⟩ := load_push16_push16 hwf' hinj s.seg.cs saved
  rw [hsp, hcsAt, State.push16_seg] at hcs
  rw [hsp, hipAt, State.push16_seg] at hip
  simp only [hpushes]
  have hkept := load_push16_other (State.push16_memWf hwf' s.seg.cs) hinj saved habove (by decide) (by decide)
  exact ⟨hkept.trans himage, hcs, hip⟩

end

/-! ### IRET (R345, R380) -/

/-- Of two 16-bit writes to one register the second alone counts (R22). -/
theorem Gprs.write16_write16 (g : Gprs) (r : Gpr) (v v' : Word) :
    (g.write .w16 r v).write .w16 r v' = g.write .w16 r v' := by
  refine Gprs.ext_cell _ _ fun q => BitVec.eq_of_getLsbD_eq fun k _ => ?_
  simp only [Gprs.cell_write16_getLsbD]
  split_ifs <;> rfl

/-- Three pops read the words at SP, +2 and +4 and add 6 to SP. -/
theorem State.iretted_eq (s : State) : s.iretted = { s with
    gpr := s.gpr.write .w16 .sp (s.sp + 6)
    ip := s.load (lin s.seg.ss s.sp) .w16
    seg := { s.seg with cs := s.load (lin s.seg.ss (s.sp + 2)) .w16 }
    flags := Flags.ofImage (s.load (lin s.seg.ss (s.sp + 4)) .w16)
    depth := s.depth - 1 } := by
  have h4 : s.sp + 2 + 2 = s.sp + 4 := BitVec.add_assoc ..
  have h6 : s.sp + 4 + 2 = s.sp + 6 := BitVec.add_assoc ..
  have hgpr : s.pop16.pop16.pop16.gpr = s.gpr.write .w16 .sp (s.sp + 6) := by
    simp only [State.pop16_gpr, State.pop16_sp, Gprs.write16_write16, h4, h6]
  have hcs : s.pop16.top16 = s.load (lin s.seg.ss (s.sp + 2)) .w16 := by
    rw [State.top16, State.pop16_sp]
    rfl
  have himage : s.pop16.pop16.top16 = s.load (lin s.seg.ss (s.sp + 4)) .w16 := by
    rw [State.top16, State.pop16_sp, State.pop16_sp, h4]
    rfl
  rw [← hgpr, ← hcs, ← himage]
  rfl

theorem exec_iret_of_depth {s : State} (hdepth : s.depth ≠ 0) (hok : s.iretOk = true) :
    exec .iret s = .next s.iretted :=
  (trapReturn_next s s.iretted).mpr (.inr ⟨hdepth, hok, rfl⟩)

theorem exec_iret_of_depth_zero {s : State} (hdepth : s.depth = 0) :
    exec .iret s = .next (s.stopFatal .contextUnderflow) :=
  (trapReturn_next s _).mpr (.inl ⟨hdepth, rfl⟩)

/-- Where the slots of a trap entry were inside memory, an IRET that finds SP 6 below can pop them. -/
theorem iretOk_of_trapOk {s u : State} {n : Byte} (hok : s.trapOk n = true) (hcfg : u.cfg = s.cfg)
    (hss : u.seg.ss = s.seg.ss) (hsp : u.sp = s.sp - 6) : u.iretOk = true := by
  have hslot : ∀ d e : Word, d - 6 = e → u.slotOk d = s.slotOk e := by
    rintro d _ rfl
    have hoff : s.sp - 6 + d = s.sp + (d - 6) := by bv_omega
    rw [State.slotOk, State.slotOk, inMem_congr s u hcfg, hss, hsp, hoff]
  simp only [State.trapOk, Bool.and_eq_true] at hok
  obtain ⟨⟨⟨⟨hflags, hcs⟩, hip⟩, -⟩, -⟩ := hok
  simp only [State.iretOk, hslot 0 (-6) rfl, hslot 2 (-4) rfl, hslot 4 (-2) rfl, hip, hcs, hflags, Bool.and_self]

/-! ### The obligations -/

/-- Settles O52: the opcode map gives each byte its form, and a jump's `ip` is `State.jumpRel_eq`. -/
theorem jumpResult : Obligations.JumpResult := by
  unfold Obligations.JumpResult
  refine ⟨fun p hp rel rest => ?jccByte, fun rel rest => ?jmp8Byte, fun lo hi rest => ?jmp16Byte, fun s =>
    ⟨fun rel => ?jmp8, fun rel => ?jmp16, fun p hp rel => ?jcc⟩⟩
  case jccByte =>
    have hrow : isOneByteOpcode p.1 ∧ lookup1 p.1 = .form (.jcc p.2) := by
      revert p
      decide
    exact DecodesTo.opImm (imm := [rel]) .w16 (opcodeIs_one hrow) rfl rfl nofun rfl rest
  case jmp8Byte =>
    obtain ⟨r, hd, -⟩ := decodesTo_encode (i := .jmpRel8 rel) rfl rest
    exact congrArg (Except.map Prod.fst) hd
  case jmp16Byte =>
    obtain ⟨r, hd, -⟩ := DecodesTo.opImm (op := [0xE9]) (imm := [lo, hi]) (i := .jmpRel16 (hi ++ lo)) .w16
      (opcodeIs_one (f := .jmpRel16) (by decide)) rfl rfl nofun rfl rest
    exact congrArg (Except.map Prod.fst) hd
  case jmp8 => exact congrArg Host.Outcome.next (s.jumpRel_signExtend_eq rel)
  case jmp16 => exact congrArg Host.Outcome.next (s.jumpRel_eq rel)
  case jcc =>
    have hcond : condHolds s.flags p.1 = p.2 := by
      revert p
      simp [condHolds, bne, Bool.beq_eq_decide_eq]
    have hexec : exec (.jcc p.1 rel) s =
        .next (if condHolds s.flags p.1 then s.jumpRel (rel.signExtend 16) else s.advance) := rfl
    rw [hexec, hcond, apply_ite Host.Outcome.next, s.jumpRel_signExtend_eq, s.advance_eq_ofInt]

/-- Settles O54: INT n is the trap entry at the next offset. -/
theorem intEntersTrap : Obligations.IntEntersTrap := by
  unfold Obligations.IntEntersTrap
  intro n s hok
  have htrap : takeTrap s n s.nextIp = .next (s.trapped n s.nextIp) := (takeTrap_next ..).mpr ⟨hok, rfl⟩
  exact ⟨s.trapped n s.nextIp, htrap, nextIp_eq s ▸ htrap, rfl, rfl, s.trapped_sp n s.nextIp⟩

/-- Settles O55: the pops are `State.iretted_eq`; the stop changes the run state alone, so the report is read off it. -/
theorem iretResult : Obligations.IretResult := by
  unfold Obligations.IretResult
  refine ⟨decode_plain_fst (no66 := true) (by decide), fun s => ⟨fun hdepth hok => ?pops, exec_iret_of_depth_zero,
    fun hdepth t h => ?report⟩⟩
  case pops => rw [exec_iret_of_depth hdepth hok, s.iretted_eq]
  case report =>
    obtain rfl := Host.Outcome.next.inj ((exec_iret_of_depth_zero hdepth).symm.trans h)
    rw [← hdepth]
    rfl

/-- Settles O56: the three words IRET pops are those of `load_trapFrame`, and an image gives its flags back. -/
theorem intThenIret : Obligations.IntThenIret := by
  unfold Obligations.IntThenIret
  intro s t u n hwf hinj hint hcfg hss hsp hdepth hframe
  obtain ⟨hok, rfl⟩ := (takeTrap_next ..).mp hint
  rw [State.trapped_seg] at hss
  rw [State.trapped_sp] at hsp
  rw [State.trapped_depth] at hdepth
  have hword : ∀ d ∈ [(2 : Word), 4, 6],
      u.load (lin s.seg.ss (s.sp - d)) .w16 = (s.trapFrame s.nextIp).load (lin s.seg.ss (s.sp - d)) .w16 :=
    fun d hd => load_congr hcfg (hframe d hd)
  obtain ⟨himage, hcs, hip⟩ := load_trapFrame hwf hinj s.nextIp
  have h2 : u.sp + 2 = s.sp - 4 := by rw [hsp]; bv_omega
  have h4 : u.sp + 4 = s.sp - 2 := by rw [hsp]; bv_omega
  refine ⟨u.iretted, exec_iret_of_depth (by omega) (iretOk_of_trapOk hok hcfg hss hsp), ?_⟩
  rw [State.iretted_eq]
  refine ⟨?ip, ?cs, ?flags, ?sp, ?depth, rfl, fun r hr => Gprs.cell_write_other _ .w16 .sp r _ hr⟩
  case ip =>
    show u.load (lin u.seg.ss u.sp) .w16 = s.nextIp
    rw [hss, hsp, hword 6 (by decide), hip]
  case cs =>
    show u.load (lin u.seg.ss (u.sp + 2)) .w16 = s.seg.cs
    rw [hss, h2, hword 4 (by decide), hcs]
  case flags =>
    show Flags.ofImage (u.load (lin u.seg.ss (u.sp + 4)) .w16) = s.flags
    rw [hss, h4, hword 2 (by decide), himage, Flags.ofImage_image]
  case sp =>
    refine (Gprs.read_write_same u.gpr .w16 .sp (u.sp + 6)).trans ?_
    rw [hsp, BitVec.sub_add_cancel]
  case depth =>
    show u.depth - 1 = s.depth
    omega

end Sys2Proof.Machine
end

section
/-! SUPPORT. The obligations of the exceptions family (`60_exceptions.md`): what a step comes to at each check of R376, which
part of the pins it can see, a stopped core over several steps, and what a trap entry leaves. -/

namespace Sys2Proof.Machine

open Sys2Proof.Config

/-! ### The checks of one step (R376) -/

section
variable {s : State} (hreset : s.pins.reset = false)
include hreset

/-- A stopped core only takes its sample (R386). -/
theorem step_of_stopped {y : FatalReason} (hrun : s.run = .stopped y) : step s = .next s.sampled := by
  simp [step, State.front, hreset, hrun]

/-- TF is looked at before the request line, in either run state (R387). -/
theorem step_of_tf (hrun : s.run = .fetching ∨ s.run = .halted) (htf : s.flags.tf = true) :
    step s = .refused .trapFlagSet := by
  obtain hrun | hrun := hrun <;> simp [step, State.front, hreset, hrun, htf]

/-- A halted core that accepts no interrupt only takes its sample (R347). -/
theorem step_of_halted (hrun : s.run = .halted) (htf : s.flags.tf = false) (hintr : s.acceptedIntr = none) :
    step s = .next s.sampled := by
  simp [step, State.front, hreset, hrun, htf, hintr]

end

/-! ### What a step sees of the pins (R375) -/

theorem acceptedIntr_of_masked {s : State} (h : s.flags.ifl = false) : s.acceptedIntr = none := by
  simp [State.acceptedIntr, h]

/-- Of the pins a step sees RESET and the vector it accepts. -/
theorem step_congr {s u : State} (hsampled : u.sampled = s.sampled) (hreset : u.pins.reset = s.pins.reset)
    (hintr : u.acceptedIntr = s.acceptedIntr) : step u = step s := by
  have hrun : u.run = s.run := congrArg (·.run) hsampled
  have hflags : u.flags = s.flags := congrArg (·.flags) hsampled
  simp only [step, State.front, hsampled, hreset, hintr, hrun, hflags]

theorem State.pins_of_head {s : State} {p : Pins} (h : s.inputs.head? = some p) : s.pins = p := by
  rw [State.pins, List.headD_eq_head?_getD, h, Option.getD_some]

/-! ### A stopped core (R386) -/

/-- The first of the next k + 1 samples is that of this step; where none is listed RESET is low (log 5). -/
theorem State.pins_reset_low {s : State} {k : Nat} (h : ∀ p ∈ s.inputs.take (k + 1), p.reset = false) :
    s.pins.reset = false := by
  unfold State.pins
  cases hin : s.inputs with
  | nil => rfl
  | cons p ps => exact h p (by simp [hin])

/-- Steps of a stopped core use up samples, and touch besides only `INTA` and the decoder's working registers. -/
theorem runs_of_stopped {y : FatalReason} (k : Nat) (s : State) (hrun : s.run = .stopped y)
    (hlow : ∀ p ∈ s.inputs.take k, p.reset = false) :
    ∃ inputs inta dec, runs k s { s with inputs, inta, dec } := by
  induction k generalizing s with
  | zero => exact ⟨s.inputs, s.inta, s.dec, rfl⟩
  | succ k ih =>
    have hlow' : ∀ p ∈ s.sampled.inputs.take k, p.reset = false := fun p hp =>
      hlow p (by
        rw [State.sampled_inputs, ← List.drop_one, List.take_drop] at hp
        rw [Nat.add_comm]
        exact List.mem_of_mem_drop hp)
    obtain ⟨inputs, inta, dec, hruns⟩ := ih s.sampled hrun hlow'
    exact ⟨inputs, inta, dec, s.sampled, step_of_stopped (State.pins_reset_low hlow) hrun, hruns⟩

/-! ### What a trap entry leaves (R377, R378) -/

/-- A 16-bit write keeps the upper half of its cell (R22). -/
theorem Gprs.cell_write16_high (g : Gprs) (r : Gpr) (v : Word) :
    ((g.write .w16 r v).cell r).toNat / 2 ^ 16 = (g.cell r).toNat / 2 ^ 16 := by
  have hv := v.isLt
  have hcell := (g.cell r).isLt
  rw [Gprs.cell_write16, withWord0, toNat_append_eq, BitVec.extractLsb'_toNat, Nat.shiftRight_eq_div_pow]
  omega

/-- Of the general registers a trap entry writes SP alone, once for three pushes. -/
theorem State.trapFrame_gpr (s : State) (saved : Word) :
    (s.trapFrame saved).gpr = s.gpr.write .w16 .sp (s.sp - 6) := by
  have hsp : s.sp - 2 - 2 - 2 = s.sp - 6 := by bv_omega
  simp only [State.trapFrame, State.push16_gpr, State.maskIntr_gpr, State.push16_sp, State.maskIntr_sp,
    Gprs.write16_write16, hsp]

/-- Outside its three slots a trap entry leaves memory as it was. -/
theorem byteAt_trapFrame_other {s : State} (hwf : memWf s.mem) (saved : Word) {p : Nat}
    (hp : ∀ d ∈ [(2 : Word), 4, 6], ∀ k, k < 2 → p ≠ s.phys (lin s.seg.ss (s.sp - d) + k)) :
    (s.trapFrame saved).byteAt p = s.byteAt p := by
  let s₁ := (s.push16 s.flags.image).maskIntr
  let s₂ := s₁.push16 s.seg.cs
  have hsp₁ : s₁.sp - 2 = s.sp - 4 := (congrArg (· - 2) (s.push16_sp s.flags.image)).trans (sub_sub _ 2 2)
  have hsp₂ : s₂.sp - 2 = s.sp - 6 := by
    rw [State.push16_sp, hsp₁]
    exact sub_sub _ 4 2
  have hwf₁ : memWf s₁.mem := State.push16_memWf hwf _
  calc (s.trapFrame saved).byteAt p
    _ = s₂.byteAt p := byteAt_push16_other (State.push16_memWf hwf₁ _) saved p (hsp₂ ▸ hp 6 (by decide))
    _ = s₁.byteAt p := byteAt_push16_other hwf₁ s.seg.cs p (hsp₁ ▸ hp 4 (by decide))
    _ = s.byteAt p := byteAt_push16_other hwf s.flags.image p (hp 2 (by decide))

/-- Entering the handler writes no memory after the pushes. -/
theorem load_trapped (s : State) (n : Byte) (saved : Word) (a : Nat) (w : Width) :
    (s.trapped n saved).load a w = (s.trapFrame saved).load a w :=
  load_congr (s := s.trapFrame saved) (t := s.trapped n saved) rfl fun _ _ => rfl

/-! ### The obligations -/

/-- Settles O13: taking the interrupt is the trap entry of the sampled state, with `INTA` up and the core fetching. -/
theorem interruptTaken : Obligations.InterruptTaken := by
  unfold Obligations.InterruptTaken
  intro s n hreset hrun htf hifl hintr hok
  have haccepted : s.acceptedIntr = some n := by rw [State.acceptedIntr, if_pos hifl, hintr]
  have hstep : step s = .next { s.sampled.trapped n s.ip with run := .fetching, inta := true } :=
    (step_of_acceptedIntr hreset hrun htf haccepted).trans ((takeInterrupt_next ..).mpr ⟨hok, rfl⟩)
  have htrap : takeTrap s.sampled n s.ip = .next (s.sampled.trapped n s.ip) := (takeTrap_next ..).mpr ⟨hok, rfl⟩
  have hifl' : (s.sampled.trapped n s.ip).flags.ifl = false := congrArg Flags.ifl (s.sampled.trapped_flags n s.ip)
  have hdepth : (s.sampled.trapped n s.ip).depth = s.depth + 1 := s.sampled.trapped_depth n s.ip
  have hinputs : (s.sampled.trapped n s.ip).inputs = s.inputs.tail := s.sampled.trapped_inputs n s.ip
  have hinta : (s.sampled.trapped n s.ip).inta = false := s.sampled.trapped_inta n s.ip
  have hkept : (s.sampled.trapped n s.ip).run = s.run := s.sampled.trapped_run n s.ip
  refine ⟨_, hstep, rfl, rfl, hifl', hdepth, hinputs, ?sameTrap⟩
  case sameTrap => rw [htrap, ← hinta, ← hkept]

/-- Settles O15, by induction on the number of steps (`runs_of_stopped`). -/
theorem stoppedStays : Obligations.StoppedStays := by
  unfold Obligations.StoppedStays
  intro k s y hrun hlow
  obtain ⟨inputs, inta, dec, hruns⟩ := runs_of_stopped k s hrun hlow
  exact ⟨_, hruns, hrun, rfl, rfl, rfl, rfl, rfl, rfl, rfl, rfl, rfl⟩

/-- Settles O53: the three pushes word by word and as one write of SP, then the vector from the memory they leave. -/
theorem trapEntry : Obligations.TrapEntry := by
  unfold Obligations.TrapEntry
  intro s n saved hok hwf hinj
  have hgpr : (s.trapped n saved).gpr = s.gpr.write .w16 .sp (s.sp - 6) := s.trapFrame_gpr saved
  obtain ⟨himage, hcs, hip⟩ := load_trapFrame hwf hinj saved
  refine ⟨s.trapped n saved, (takeTrap_next ..).mpr ⟨hok, rfl⟩, ?_⟩
  simp only [load_trapped, hgpr]
  exact ⟨himage, hcs, hip, fun p hp => byteAt_trapFrame_other hwf saved hp, s.trapped_ip n saved, s.trapped_seg n saved,
    s.trapped_flags n saved, s.trapped_depth n saved, Gprs.read_write_same .., Gprs.cell_write16_high ..,
    fun r hr => Gprs.cell_write_other _ .w16 .sp r _ hr, hgpr ▸ rfl⟩

/-- Settles O11: one lemma for each check. -/
theorem orderOfChecks : Obligations.OrderOfChecks := by
  unfold Obligations.OrderOfChecks
  exact fun s => ⟨step_of_reset s, fun hreset ⟨_, hrun⟩ => step_of_stopped hreset hrun, step_of_tf,
    fun _ => step_of_acceptedIntr, step_of_halted⟩

/-- Settles O14: with IF = 0 no vector is accepted, and a step sees nothing else of the request line. -/
theorem interruptMasked : Obligations.InterruptMasked := by
  unfold Obligations.InterruptMasked
  intro s p hhead hifl
  have hpins := State.pins_of_head hhead
  have hnone := acceptedIntr_of_masked hifl
  refine ⟨?sameStep, fun hreset hrun htf => step_of_halted (hpins ▸ hreset) hrun htf hnone⟩
  case sameStep =>
    refine step_congr (u := s) (s := { s with inputs := { p with intr := none } :: s.inputs.tail }) rfl ?reset ?intr
    case reset => rw [hpins]; rfl
    case intr => exact hnone.trans (Eq.symm (acceptedIntr_of_masked (by exact hifl)))

end Sys2Proof.Machine
end
